-- ==== Sys2Proof/Word.lean ====
section
/-! DEFINITION. The machine's units of data: the byte and the packet.
Every number of the block is unsigned (spec 00_scope.md R9). -/

namespace Sys2Proof

/-- A byte: 8 bits, bit 7 the most significant (R9). -/
abbrev Byte := BitVec 8

/-- An RtpPacket: an owned byte sequence (10_state.md R34). -/
abbrev Packet := List Byte

end Sys2Proof
end

