-- ==== Sys2Proof/Config.lean ====
section
/-! DEFINITION. The implementation parameters (spec 00_scope.md R7) and the free value of the host's time base (R11, R150). -/

namespace Sys2Proof

/-- The parameters of the block, with the defaults of R7. A capacity that is `none` is infinite. -/
structure Params where
  /-- `FULL_DGRAM_SIZE`, natural, at least 1. -/
  fullDgramSize : Nat := 1460
  /-- `MAX_PAYLOAD`, natural, at least 1. -/
  maxPayload : Nat := 1440
  /-- `PT`, 7 bits (R95). -/
  pt : BitVec 7 := 96#7
  /-- `SEQ_INIT`, 16 bits (D7). -/
  seqInit : BitVec 16 := 0#16
  /-- `BUF_CAP`: capacity in bytes of the carry-over store and of the access-unit store. -/
  bufCap : Option Nat := none
  /-- `DGRAM_MAX`: largest datagram the IN port carries. -/
  dgramMax : Option Nat := none
  /-- `DQ_CAP`: capacity in packets of the Dispatch Queue. -/
  dqCap : Option Nat := none
  deriving DecidableEq, Repr

/-- The legal ranges of R7 that the field types do not already give (93_implementation_defined.md U17). -/
def Params.legal (c : Params) : Bool :=
  1 ≤ c.fullDgramSize && 1 ≤ c.maxPayload

/-- `Draw_u32()`: the elapsed-milliseconds sample the host presents (R11, 43_rtp_header_builder.md R150).
A FREE VALUE: the `n`-th draw is any 32-bit number, and nothing relates two draws (notes/assumptions/4.md). -/
opaque Config.drawU32 : Nat → BitVec 32

end Sys2Proof
end

