-- ==== Sys2Proof/Syntax.lean ====
section
/-! DEFINITION. The instructions: one constructor for each of the 27 rows of spec/opcode_table.json
(spec 30_encoding.md R100, R104): input patterns, output formats, operations and sub-operations. -/

namespace Sys2Proof

/-- One row of the opcode table, with its operands.
The four `pkt…` rows have no operands: R160 and R161 take every field from the registers. -/
inductive Instr where
  /-- `SC3`: the start code 00 00 01 at the search index (R76). -/
  | sc3
  /-- `SC4`: the start code 00 00 00 01 at the search index (R77). -/
  | sc4
  /-- `BND0`: the boundary pattern 00 00 00 at the search index (R78). -/
  | bnd0
  /-- `BND1`: the boundary pattern 00 00 01 at the search index (R78). -/
  | bnd1
  /-- `NALHDR`: the NAL header byte, `fnnttttt` (R79). -/
  | nalhdr (f : BitVec 1) (nri : BitVec 2) (type : BitVec 5)
  /-- `DGRAM.LEN`: the datagram-length test (R81). -/
  | dgramLen (len : Nat)
  /-- `RTPHDR`: the 12-byte RTP header (R82). -/
  | rtphdr (m : Bool) (pt : BitVec 7) (seq : BitVec 16) (ts ssrc : BitVec 32)
  /-- `FUIND`: the FU indicator byte, `fnn11100` (R83). -/
  | fuind (f : BitVec 1) (nri : BitVec 2)
  /-- `FUHDR.S`: FU header of a start fragment, `100ttttt` (R84). -/
  | fuhdrS (type : BitVec 5)
  /-- `FUHDR.M`: FU header of a middle fragment, `000ttttt` (R84). -/
  | fuhdrM (type : BitVec 5)
  /-- `FUHDR.E`: FU header of an end fragment, `010ttttt` (R84). -/
  | fuhdrE (type : BitVec 5)
  /-- `PKT.SINGLE`: emit the single-NAL-unit packet (R87, R160). -/
  | pktSingle
  /-- `PKT.FUA.S`: emit the start fragment (R88, R161). -/
  | pktFuaS
  /-- `PKT.FUA.M`: emit the next middle fragment (R88, R161). -/
  | pktFuaM
  /-- `PKT.FUA.E`: emit the end fragment (R88, R161). -/
  | pktFuaE
  /-- `RESET` (R185). -/
  | reset
  /-- `START ssrc_in` (R186). -/
  | start (ssrcIn : BitVec 32)
  /-- `STOP` (R187). -/
  | stop
  /-- `DGRAM payload` (R110, R189). -/
  | dgram (payload : List Byte)
  /-- `POP` (R176). -/
  | pop
  /-- `FR.APPEND(payload)` (R111). -/
  | frAppend (payload : List Byte)
  /-- `FR.FLUSH(payload)` (R112). -/
  | frFlush (payload : List Byte)
  /-- `SCAN.NEXT()` (R125). -/
  | scanNext
  /-- `CLASSIFY()` (R141). -/
  | classify
  /-- `BUILD_HDR(seq_v, ts_v, ssrc_v, M, pt_v)` (R148). -/
  | buildHdr (seqV : BitVec 16) (tsV ssrcV : BitVec 32) (m : Bool) (ptV : BitVec 7)
  /-- `PACKETIZE()` (R156). -/
  | packetize
  /-- `Enqueue(pkt)`, row `ENQ` (R170). -/
  | enq (pkt : Packet)
  deriving DecidableEq, Repr

end Sys2Proof
end

