-- ==== Sys2Proof/WellFormed.lean ====
section
/-! DEFINITION. Well-formed instructions: the limits of the operands that the operands' types do not give. -/

namespace Sys2Proof

/-- `Instr.wellFormed i`: every operand of `i` is one the spec gives the row.
- `ENQ`: a packet has at least 13 bytes (10_state.md R34, 30_encoding.md R87).
- `FR.APPEND`: its datagram has `FULL_DGRAM_SIZE` bytes, and that is at least 1 (R7, R111). -/
def Instr.wellFormed : Instr → Bool
  | .enq pkt => 13 ≤ pkt.length
  | .frAppend payload => 1 ≤ payload.length
  | .sc3 | .sc4 | .bnd0 | .bnd1 => true
  | .nalhdr _ _ _ | .dgramLen _ => true
  | .rtphdr _ _ _ _ _ | .fuind _ _ => true
  | .fuhdrS _ | .fuhdrM _ | .fuhdrE _ => true
  | .pktSingle | .pktFuaS | .pktFuaM | .pktFuaE => true
  | .reset | .start _ | .stop | .dgram _ | .pop => true
  | .frFlush _ | .scanNext | .classify | .buildHdr _ _ _ _ _ | .packetize => true

end Sys2Proof
end

