-- ==== Sys2Proof/Decode.lean ====
section
/-! DEFINITION. The decoder, total on any bytes and rejecting by name, then the encoder
(spec 30_encoding.md R75 to R98; pattern predicates 41_bitstream_scanner.md R121, R122). -/

namespace Sys2Proof

/-! ### Fields and byte order -/

/-- `be16(v)`: most significant byte first (R10). -/
def be16 (v : BitVec 16) : List Byte :=
  [v.extractLsb' 8 8, v.extractLsb' 0 8]

/-- `be32(v)`: most significant byte first (R10). -/
def be32 (v : BitVec 32) : List Byte :=
  [v.extractLsb' 24 8, v.extractLsb' 16 8, v.extractLsb' 8 8, v.extractLsb' 0 8]

/-- `forbidden_zero_bit`, bit 7 of the NAL header byte (R79). -/
def nalF (hdr : Byte) : BitVec 1 := hdr.extractLsb' 7 1

/-- `nal_ref_idc`, bits 6:5 of the NAL header byte (R79). -/
def nalNri (hdr : Byte) : BitVec 2 := hdr.extractLsb' 5 2

/-- `nal_type`, bits 4:0 of the NAL header byte (R79). -/
def nalType (hdr : Byte) : BitVec 5 := hdr.extractLsb' 0 5

/-- One bit as an 8-bit number. -/
def bit8 (b : Bool) : Byte := (BitVec.ofBool b).setWidth 8

/-- The NAL header byte `F<<7 | NRI<<5 | TYPE` (R79). -/
def nalHeaderByte (f : BitVec 1) (nri : BitVec 2) (type : BitVec 5) : Byte :=
  f.setWidth 8 <<< 7 ||| nri.setWidth 8 <<< 5 ||| type.setWidth 8

/-- `FUIND = F<<7 | NRI<<5 | 28` (R83, 44_packetizer.md R162). -/
def fuIndicator (f : BitVec 1) (nri : BitVec 2) : Byte :=
  f.setWidth 8 <<< 7 ||| nri.setWidth 8 <<< 5 ||| 28#8

/-- `FUHDR = S<<7 | E<<6 | TYPE`, bit 5 (R) always 0 (R84, R93, 44_packetizer.md R164). -/
def fuHeader (s e : Bool) (type : BitVec 5) : Byte :=
  bit8 s <<< 7 ||| bit8 e <<< 6 ||| type.setWidth 8

/-- The 12 bytes of `RTPHDR` (R82, 43_rtp_header_builder.md R148). -/
def rtpHeaderBytes (m : Bool) (pt : BitVec 7) (seq : BitVec 16) (ts ssrc : BitVec 32) : List Byte :=
  [0x80#8, bit8 m <<< 7 ||| pt.setWidth 8] ++ be16 seq ++ be32 ts ++ be32 ssrc

/-! ### Pattern predicates

Each takes the bytes of `AU` from the index `i` on, so a pattern matches only when all of its bytes lie inside
the buffer, and no byte past the end is read (R55, R121). -/

/-- `Match3(i, c)`: bytes 00 00 c at `i` (R121). -/
def match3 (c : Byte) : List Byte → Bool
  | b0 :: b1 :: b2 :: _ => b0 == 0#8 && b1 == 0#8 && b2 == c
  | _ => false

/-- `Match4(i)`: bytes 00 00 00 01 at `i` (R121). -/
def match4 : List Byte → Bool
  | b0 :: b1 :: b2 :: b3 :: _ => b0 == 0#8 && b1 == 0#8 && b2 == 0#8 && b3 == 1#8
  | _ => false

/-- `IsStart(i)`: `SC3` or `SC4` at `i` (R122). -/
def isStart (rest : List Byte) : Bool := match3 1#8 rest || match4 rest

/-- `IsBoundary(i)`: `BND0` or `BND1` at `i` (R122). -/
def isBoundary (rest : List Byte) : Bool := match3 0#8 rest || match3 1#8 rest

/-! ### The decoder -/

/-- Who reads the bytes. The formats share their bits (`SC3` and `BND1` are equal, every byte is a `NALHDR`), so what
bytes mean depends on the unit reading them (R75, R78, R98). -/
inductive Format where
  /-- The scanner's start search (R123). -/
  | startSearch
  /-- The scanner's end search (R124). -/
  | endSearch
  /-- The classifier (R141). -/
  | nalHeader
  /-- The 12-byte RTP header (R82). -/
  | rtpHeader
  /-- The byte at offset 12 of a fragment (R88). -/
  | fuInd
  /-- The byte at offset 13 of a fragment (R88). -/
  | fuHdr
  /-- A whole packet, or its header and leading bytes (R87, R88). -/
  | packet
  deriving DecidableEq, Repr

/-- Why bytes are no instruction. -/
inductive DecodeError where
  /-- The number of bytes is not one of the format's lengths. -/
  | badLength
  /-- The bytes are neither start code nor boundary pattern (R94: they are ordinary data). -/
  | notAPattern
  /-- RTP byte 0 is not 0x80 (R82). -/
  | badRtpByte0
  /-- The marker is not the one of the layout (R87, R88). -/
  | badMarker
  /-- The byte is no FU indicator: bits 4:0 are not 28 (R83). -/
  | badFuIndicator
  /-- The byte is no FU header: bit 5 set, or both S and E (R84, R93). -/
  | badFuHeader
  deriving DecidableEq, Repr

/-- The packet layouts (R87, R88). -/
inductive PacketKind where
  | single
  | fuaS
  | fuaM
  | fuaE
  deriving DecidableEq, Repr

/-- The row of the opcode table whose layout this is. -/
def PacketKind.instr : PacketKind → Instr
  | .single => .pktSingle
  | .fuaS => .pktFuaS
  | .fuaM => .pktFuaM
  | .fuaE => .pktFuaE

/-- The marker bit of a layout (44_packetizer.md R163). -/
def PacketKind.marker : PacketKind → Bool
  | .single | .fuaE => true
  | .fuaS | .fuaM => false

/-- The fields of a packet: those of its RTP header, those of the NAL header byte it carries, and the chunk. -/
structure PacketFields where
  kind : PacketKind
  pt : BitVec 7
  seq : BitVec 16
  ts : BitVec 32
  ssrc : BitVec 32
  f : BitVec 1
  nri : BitVec 2
  type : BitVec 5
  chunk : List Byte
  deriving DecidableEq, Repr

/-- The five fields of an RTP header (R82). -/
structure RtpFields where
  m : Bool
  pt : BitVec 7
  seq : BitVec 16
  ts : BitVec 32
  ssrc : BitVec 32
  deriving DecidableEq, Repr

/-- The RTP header at the front of the bytes, and the bytes after it (R82). -/
def decodeRtp : List Byte → Except DecodeError (RtpFields × List Byte)
  | b0 :: b1 :: b2 :: b3 :: b4 :: b5 :: b6 :: b7 :: b8 :: b9 :: b10 :: b11 :: rest =>
    if b0 = 0x80#8 then
      .ok ({ m := b1.getLsbD 7, pt := b1.extractLsb' 0 7, seq := b2 ++ b3,
             ts := b4 ++ b5 ++ b6 ++ b7, ssrc := b8 ++ b9 ++ b10 ++ b11 }, rest)
    else .error .badRtpByte0
  | _ => .error .badLength

/-- The FU header byte: which fragment it stands in, and the NAL type (R84). -/
def decodeFuHeader (b : Byte) : Except DecodeError (PacketKind × BitVec 5) :=
  if b.extractLsb' 5 3 = 0b100#3 then .ok (.fuaS, nalType b)
  else if b.extractLsb' 5 3 = 0b000#3 then .ok (.fuaM, nalType b)
  else if b.extractLsb' 5 3 = 0b010#3 then .ok (.fuaE, nalType b)
  else .error .badFuHeader

/-- A packet's bytes after the RTP header, read as a receiver reads them (R98): a fragment when bits 4:0 of the byte at offset 12 are
28 and another byte follows, else a single NAL unit packet (R87, R88). DESIGN CHOICE (notes/assumptions/22.md): 28 with a second byte
that is no FU header, or whose fragment does not have the marker, is rejected by name, although the block sends such bytes
as the single packet of a unit of type 28 (R92); and 28 as the last byte is a single packet. DESIGN CHOICE
(notes/assumptions/23.md): the chunk has no bound here, so bytes longer than `14 + MAX_PAYLOAD`, a length no packet of the block has
(R88, R89), are read as a packet row too. -/
def decodePayload (h : RtpFields) : List Byte → Except DecodeError PacketFields
  | [] => .error .badLength
  | [b] =>
    if h.m then .ok { kind := .single, pt := h.pt, seq := h.seq, ts := h.ts, ssrc := h.ssrc,
                      f := nalF b, nri := nalNri b, type := nalType b, chunk := [] }
    else .error .badMarker
  | b :: c :: chunk =>
    if nalType b = 28#5 then
      match decodeFuHeader c with
      | .error e => .error e
      | .ok (kind, type) =>
        if h.m = kind.marker then
          .ok { kind := kind, pt := h.pt, seq := h.seq, ts := h.ts, ssrc := h.ssrc,
                f := nalF b, nri := nalNri b, type := type, chunk := chunk }
        else .error .badMarker
    else if h.m then
      .ok { kind := .single, pt := h.pt, seq := h.seq, ts := h.ts, ssrc := h.ssrc,
            f := nalF b, nri := nalNri b, type := nalType b, chunk := c :: chunk }
    else .error .badMarker

/-- The fields of a packet, as a receiver reads them (R82, R85, R87, R88). -/
def decodePacket (bs : List Byte) : Except DecodeError PacketFields :=
  match decodeRtp bs with
  | .error e => .error e
  | .ok (h, rest) => decodePayload h rest

/-- The row of the opcode table that these bytes are, to the unit that reads them. -/
def decodeAs : Format → List Byte → Except DecodeError Instr
  | .startSearch, bs =>
    if bs.length = 3 then (if match3 1#8 bs then .ok .sc3 else .error .notAPattern)
    else if bs.length = 4 then (if match4 bs then .ok .sc4 else .error .notAPattern)
    else .error .badLength
  | .endSearch, bs =>
    if bs.length = 3 then
      (if match3 0#8 bs then .ok .bnd0 else if match3 1#8 bs then .ok .bnd1 else .error .notAPattern)
    else .error .badLength
  | .nalHeader, [b] => .ok (.nalhdr (nalF b) (nalNri b) (nalType b))
  | .nalHeader, _ => .error .badLength
  | .rtpHeader, bs =>
    match decodeRtp bs with
    | .ok (h, []) => .ok (.rtphdr h.m h.pt h.seq h.ts h.ssrc)
    | .ok (_, _ :: _) => .error .badLength
    | .error e => .error e
  | .fuInd, [b] => if nalType b = 28#5 then .ok (.fuind (nalF b) (nalNri b)) else .error .badFuIndicator
  | .fuInd, _ => .error .badLength
  | .fuHdr, [b] =>
    match decodeFuHeader b with
    | .ok (.fuaS, type) => .ok (.fuhdrS type)
    | .ok (.fuaM, type) => .ok (.fuhdrM type)
    | .ok (.fuaE, type) => .ok (.fuhdrE type)
    | .ok (.single, _) => .error .badFuHeader
    | .error e => .error e
  | .fuHdr, _ => .error .badLength
  | .packet, bs =>
    match decodePacket bs with
    | .ok x => .ok x.kind.instr
    | .error e => .error e

/-- The reader assumed for bytes with no context, by their number, and for one byte by its value: an FU indicator or an FU header
where the byte can be one, else a NAL header; for three bytes the start search, then the end search.
DESIGN CHOICE (notes/assumptions/6.md): the block itself never reads bytes without a context. -/
def contextOf (bs : List Byte) : Format :=
  match bs with
  | [b] =>
    if nalType b = 28#5 then .fuInd
    else if b.extractLsb' 5 3 = 0b100#3 ∨ b.extractLsb' 5 3 = 0b000#3 ∨ b.extractLsb' 5 3 = 0b010#3 then .fuHdr
    else .nalHeader
  | _ =>
    if bs.length = 3 then (if match3 1#8 bs then .startSearch else .endSearch)
    else if bs.length = 4 then .startSearch
    else if bs.length = 12 then .rtpHeader
    else .packet

/-- The decoder, total on any bytes: the instruction they are, or why they are none. -/
def decode (bs : List Byte) : Except DecodeError Instr := decodeAs (contextOf bs) bs

/-- The `m` bytes of the number `w`, first byte first, as the opcode table writes a row: most significant bit of the first byte
first (R104; notes/assumptions/6.md). -/
def wordBytes (m w : Nat) : List Byte :=
  match m with
  | 0 => []
  | m + 1 => BitVec.ofNat 8 (w >>> (8 * m)) :: wordBytes m w

/-- The instruction the decoder reads from a row of `nbits` bits whose number is `w`. -/
def decodeTableWord (nbits w : Nat) : Option Instr :=
  if nbits % 8 = 0 then
    match decode (wordBytes (nbits / 8) w) with
    | .ok i => some i
    | .error _ => none
  else none

/-! ### The encoder -/

/-- The unit whose reading of bytes gives this row; none for a row without bits. -/
def formatOf : Instr → Option Format
  | .sc3 | .sc4 => some .startSearch
  | .bnd0 | .bnd1 => some .endSearch
  | .nalhdr _ _ _ => some .nalHeader
  | .rtphdr _ _ _ _ _ => some .rtpHeader
  | .fuind _ _ => some .fuInd
  | .fuhdrS _ | .fuhdrM _ | .fuhdrE _ => some .fuHdr
  | .pktSingle | .pktFuaS | .pktFuaM | .pktFuaE => some .packet
  | .dgramLen _ | .reset | .start _ | .stop | .dgram _ | .pop | .frAppend _ | .frFlush _
  | .scanNext | .classify | .buildHdr _ _ _ _ _ | .packetize | .enq _ => none

/-- The bytes of an instruction, from the encodings of R76 to R84. None for a row the table gives no bits, and for the four
packet rows, whose bits are the packet's (`encodePacket`). -/
def encode : Instr → Option (List Byte)
  | .sc3 => some [0x00#8, 0x00#8, 0x01#8]
  | .sc4 => some [0x00#8, 0x00#8, 0x00#8, 0x01#8]
  | .bnd0 => some [0x00#8, 0x00#8, 0x00#8]
  | .bnd1 => some [0x00#8, 0x00#8, 0x01#8]
  | .nalhdr f nri type => some [nalHeaderByte f nri type]
  | .rtphdr m pt seq ts ssrc => some (rtpHeaderBytes m pt seq ts ssrc)
  | .fuind f nri => some [fuIndicator f nri]
  | .fuhdrS type => some [fuHeader true false type]
  | .fuhdrM type => some [fuHeader false false type]
  | .fuhdrE type => some [fuHeader false true type]
  | .pktSingle | .pktFuaS | .pktFuaM | .pktFuaE => none
  | .dgramLen _ | .reset | .start _ | .stop | .dgram _ | .pop | .frAppend _ | .frFlush _
  | .scanNext | .classify | .buildHdr _ _ _ _ _ | .packetize | .enq _ => none

/-- The bytes between the RTP header and the chunk: the NAL header byte, or FU indicator and FU header (R87, R88). -/
def leadBytes (x : PacketFields) : List Byte :=
  match x.kind with
  | .single => [nalHeaderByte x.f x.nri x.type]
  | .fuaS => [fuIndicator x.f x.nri, fuHeader true false x.type]
  | .fuaM => [fuIndicator x.f x.nri, fuHeader false false x.type]
  | .fuaE => [fuIndicator x.f x.nri, fuHeader false true x.type]

/-- The bytes of a packet (R87, R88). -/
def encodePacket (x : PacketFields) : Packet :=
  rtpHeaderBytes x.kind.marker x.pt x.seq x.ts x.ssrc ++ leadBytes x ++ x.chunk

end Sys2Proof
end

