-- ==== Sys2Proof/Machine/State.lean ====
section
/-! DEFINITION. The state of one block instance (spec 10_state.md), the reasons a step stops, and the state after reset. -/

namespace Sys2Proof.Machine

/-- A byte store: its (offset, byte) cells. The one canonical form lists the offsets 0, 1, 2, … in order, each once
(20_memory.md R50); an offset that is not listed does not exist. -/
abbrev Memory := List Host.Cell

/-- The byte stores an address can name (R50). -/
inductive StoreName where
  | carry
  | au
  deriving DecidableEq, Repr

/-- The registers a rule reads, for the fault that reading one without a value is (10_state.md R37). -/
inductive Reg where
  | seq
  | ssrc
  | i
  | nalStart
  | nalEnd
  | hdr
  | f
  | nri
  | type
  | k
  deriving DecidableEq, Repr

/-- The sub-operations that run only under a condition (the `select` of their row in the opcode table). -/
inductive SubOp where
  | frAppend
  | frFlush
  | pktSingle
  | pktFuaS
  | pktFuaM
  | pktFuaE
  deriving DecidableEq, Repr

/-- The conditions of 60_exceptions.md R206 that record something. -/
inductive Condition where
  /-- Code 1, `EMPTY_NAL` (R207). -/
  | emptyNal
  /-- Code 2, `DQ_OVF` (R208). -/
  | dqOvf
  /-- Code 3, `BUF_OVF` (R208). -/
  | bufOvf
  deriving DecidableEq, Repr

/-- Why the machine stops with a fault. No run of the five operations reaches one (R14, R37). -/
inductive Fault where
  /-- Raised by every meaning that reads a register which holds no value (R37, 93_implementation_defined.md U14). Safe. -/
  | noValue (r : Reg)
  /-- Raised by every read of a store at an offset that does not exist (R50, R55). Safe. -/
  | offsetOutsideStore (store : StoreName) (off : Nat)
  /-- Raised by PACKETIZE and the packet rows when the range is empty, which is no NAL unit (R125). Safe. -/
  | notAUnit (nalStart nalEnd : Nat)
  deriving DecidableEq, Repr

/-- Why a step gives no meaning. -/
inductive Refusal where
  /-- Raised by an arm of `exec` whose instruction has no meaning yet. Safe. -/
  | notModelled (mnemonic : String)
  /-- Raised by every meaning, and by a CONFIG line, when the parameters are not a configuration of the block (R95, U17). Safe. -/
  | illegalConfiguration
  /-- Raised by a CONFIG line while a session is active: parameters are fixed for its life (R7, U20). Safe. -/
  | configInSession
  /-- Raised by a sub-operation outside the condition that selects it (opcode table, `select`). Safe. -/
  | notSelected (op : SubOp)
  /-- Raised by ENQ on a byte sequence that is no packet: not 13 to `14 + MAX_PAYLOAD` bytes long (R34; notes/assumptions/21.md). Safe. -/
  | notAPacket (length : Nat)
  /-- Raised by a FRAME line whose length is a multiple of `FULL_DGRAM_SIZE` (R103). Safe. -/
  | frameNotDefined
  /-- Raised by the step on a script line whose instruction is not well formed. Safe. -/
  | illFormed
  /-- Raised by the step on a script line of bytes that are no instruction. Safe. -/
  | undecodable (e : DecodeError)
  deriving DecidableEq, Repr

/-- The CONFIG line of a script: four names, each a natural or unset (30_encoding.md R102). -/
structure ConfigLine where
  fullDgramSize : Option Nat := none
  maxPayload : Option Nat := none
  pt : Option Nat := none
  seqInit : Option Nat := none
  deriving DecidableEq, Repr

/-- One line of the stimulus script (R102, R103); the script is the total order of the operations of both agents and of the host
(20_memory.md R62). -/
inductive Line where
  /-- CONFIG. -/
  | config (c : ConfigLine)
  /-- TIME: every draw from here on returns `t`, until the next TIME line. -/
  | time (t : BitVec 32)
  /-- An operation; a sub-operation or a format stands in a script only by the model's choice (notes/assumptions/5.md). -/
  | op (i : Instr)
  /-- The bytes of an instruction, which the step decodes (notes/assumptions/5.md). -/
  | bytes (bs : List Byte)
  /-- FRAME. -/
  | frame (bs : List Byte)
  /-- DRAIN. -/
  | drain
  deriving DecidableEq, Repr

/-- The datapath registers (10_state.md R22) and the one-bit conditions among them (R25). Each holds a value only from the
moment an operation writes it to the end of that operation; `none` is "holds no value" (R37). -/
structure Datapath where
  /-- `p`, the scan pointer. -/
  p : Option Nat := none
  /-- `i`, the search index. -/
  i : Option Nat := none
  /-- `nal_start`. -/
  nalStart : Option Nat := none
  /-- `nal_end`. -/
  nalEnd : Option Nat := none
  /-- `hdr`, the NAL header byte. -/
  hdr : Option Byte := none
  /-- `F`, `forbidden_zero_bit`. -/
  f : Option (BitVec 1) := none
  /-- `NRI`, `nal_ref_idc`. -/
  nri : Option (BitVec 2) := none
  /-- `TYPE`, `nal_type`. -/
  type : Option (BitVec 5) := none
  /-- `IS_IDR`. -/
  isIdr : Option Bool := none
  /-- `len`, the length of the NAL body. -/
  len : Option Nat := none
  /-- `n`, the number of chunks. -/
  n : Option Nat := none
  /-- `k`, the index of the current chunk. -/
  k : Option Nat := none
  /-- `lo`, where the current chunk begins in `AU`. -/
  lo : Option Nat := none
  /-- `hi`, one past the current chunk in `AU`. -/
  hi : Option Nat := none
  /-- `M`, the marker. -/
  m : Option Bool := none
  /-- `S`, FU start. -/
  s : Option Bool := none
  /-- `E`, FU end. -/
  e : Option Bool := none
  /-- `ts`, the timestamp sample. -/
  ts : Option (BitVec 32) := none
  /-- The bit `dgram_len = FULL_DGRAM_SIZE` (R25, R81). -/
  fullSize : Option Bool := none
  /-- What SCAN.NEXT last returned: `some true` is Done, `some false` a unit (R125, R190). -/
  scanDone : Option Bool := none
  /-- The packet under construction, empty when there is none (20_memory.md R50). -/
  pkt : Packet := []
  deriving DecidableEq, Repr

/-- The consumer (R36, R177). "Stopped" (after STOP) and "suspended" (after RESET, or on an empty queue) both mean that POP is not
enabled; nothing the block holds tells them apart (R20). -/
inductive Consumer where
  /-- POP is not enabled: no session, or an empty queue. -/
  | suspended
  /-- A session and a packet to send. -/
  | ready
  deriving DecidableEq, Repr

/-- The complete state of one block instance (R20), the ports as the model holds them, and the pending script. -/
structure State where
  /-- The static configuration (R7, R20). -/
  params : Params
  /-- `session_active` (R26). -/
  sessionActive : Bool
  /-- `seq`, the number the next packet carries; `none` is "holds no value" (R27, R37). -/
  seq : Option (BitVec 16)
  /-- `ssrc`; `none` is "holds no value" (R28, R37). -/
  ssrc : Option (BitVec 32)
  /-- `CARRY` (R34). -/
  carry : Memory
  /-- `AU` (R34). -/
  au : Memory
  /-- `DQ`, head oldest (R34, 45_dispatch_queue.md R175). -/
  dq : List Packet
  /-- `dq_peak` (R31). -/
  dqPeak : Nat
  /-- `n_empty_nal`, modulo 2^32 (R31). -/
  nEmptyNal : BitVec 32
  /-- `ERR_BUF_OVF`, sticky (R32). -/
  errBufOvf : Bool
  /-- `ERR_DQ_OVF`, sticky (R32). -/
  errDqOvf : Bool
  /-- The datapath registers (R22). -/
  dp : Datapath
  /-- The OUT port: every packet passed to Send, oldest first (R176, 46_session_and_pipeline.md R193). -/
  sent : List Packet
  /-- The TIME port: the value a TIME line gives every draw; `none` leaves each draw free (R102, R150). -/
  timeHeld : Option (BitVec 32)
  /-- How many draws have been taken: the model's own field, the argument of the free value (notes/assumptions/4.md). -/
  draws : Nat
  /-- The operations still to come, in their total order: the model's own field (R62, R102; notes/assumptions/5.md). -/
  script : List Line
  deriving DecidableEq, Repr

/-- The power-on state: what RESET leaves, with the default parameters and nothing pending (R36, R185, R235). -/
def State.reset : State where
  params := {}
  sessionActive := false
  seq := none
  ssrc := none
  carry := []
  au := []
  dq := []
  dqPeak := 0
  nEmptyNal := 0#32
  errBufOvf := false
  errDqOvf := false
  dp := {}
  sent := []
  timeHeld := none
  draws := 0
  script := []

/-- `carry_len`: the valid offsets of `CARRY` are `0 .. carry_len - 1` (R34, R50). -/
def State.carryLen (s : State) : Nat := s.carry.length

/-- `L`: the valid offsets of `AU` are `0 .. L - 1` (R34, R50). -/
def State.auLen (s : State) : Nat := s.au.length

/-- `dq_level` is exactly `|DQ|` (R31). -/
def State.dqLevel (s : State) : Nat := s.dq.length

/-- What the consumer is doing (R36, R177). -/
def State.consumer (s : State) : Consumer := if s.sessionActive = true ∧ s.dq ≠ [] then .ready else .suspended

end Sys2Proof.Machine
end

