-- ==== Sys2Proof/Machine/Flags.lean ====
section
/-! DEFINITION. The one-bit conditions the block computes (spec 10_state.md R25) and the capacity tests. -/

namespace Sys2Proof.Machine

/-- `S` of fragment `k`: it is fragment 0 (44_packetizer.md R161, R163). -/
def fragStart (k : Nat) : Bool := k == 0

/-- `E` of fragment `k` of `n`: it is the last (R161, R163). -/
def fragEnd (n k : Nat) : Bool := k + 1 == n

/-- `M` of fragment `k` of `n`: `M = E` in fragmented mode (R161, R163). -/
def fragMarker (n k : Nat) : Bool := fragEnd n k

/-- `IS_IDR`: `TYPE = 5` (42_nal_classifier.md R142). -/
def isIdr (type : BitVec 5) : Bool := type == 5#5

/-- `dgram_len = FULL_DGRAM_SIZE`: selects append (30_encoding.md R81, 40_frame_reassembler.md R110). -/
def isFullSize (c : Params) (dgramLen : Nat) : Bool := dgramLen == c.fullDgramSize

/-- `len = 0`: the NAL unit is its header byte alone (R168). -/
def emptyBody (len : Nat) : Bool := len == 0

/-- A number above a capacity; nothing is above an infinite one (00_scope.md R7). -/
def above (n : Nat) : Option Nat → Bool
  | none => false
  | some cap => cap < n

/-- The store or port capacity is exceeded by a datagram of `dgramLen` bytes (R115). -/
def bufOverflow (s : State) (dgramLen : Nat) : Bool :=
  above dgramLen s.params.dgramMax || above (s.carryLen + dgramLen) s.params.bufCap

/-- `dq_level = DQ_CAP`, never true of an infinite `DQ_CAP` (R170, 45_dispatch_queue.md R180). -/
def queueFull (s : State) : Bool := some s.dqLevel == s.params.dqCap

/-- POP is enabled: a session and a non-empty queue (R176, R177). -/
def popEnabled (s : State) : Bool := s.sessionActive && s.dqLevel != 0

end Sys2Proof.Machine
end

