-- ==== Sys2Proof/Machine/Operands.lean ====
section
/-! DEFINITION. Access to the byte stores, and the operand forms of the units: bounds of a unit, of its body and of its chunks
(spec 20_memory.md R50, R56, R70; 44_packetizer.md R157, R158). -/

namespace Sys2Proof.Machine

/-! ### The byte stores -/

/-- The cells of the bytes `bs` from the offset `off` on. -/
def cellsFrom : Nat → List Byte → Memory
  | _, [] => []
  | off, b :: bs => (off, b) :: cellsFrom (off + 1) bs

/-- A store that holds exactly `bs` (whole-store write, R70). -/
def Memory.ofBytes (bs : List Byte) : Memory := cellsFrom 0 bs

/-- All bytes of a store, in increasing offset order (R51). -/
def Memory.bytes (m : Memory) : List Byte := m.map Prod.snd

/-- `Append(S, v)`: write `v` at the length, and the length grows by `|v|` (00_scope.md R11). -/
def Memory.append (m : Memory) (v : List Byte) : Memory := m ++ cellsFrom m.length v

/-- The byte at one offset; none where no such offset exists (R50). A read has no side effect (R58). -/
def Memory.read : Memory → Nat → Option Byte
  | [], _ => none
  | (a, b) :: m, off => if a = off then some b else Memory.read m off

/-- `MemRead(S + off, n)`: `n` bytes in increasing offset order; none if one of the offsets does not exist (R11, R50). -/
def Memory.readRange : Memory → Nat → Nat → Option (List Byte)
  | _, _, 0 => some []
  | [], _, _ + 1 => none
  | (a, b) :: m, off, n + 1 =>
    if a = off then (Memory.readRange m (off + 1) n).map (b :: ·) else Memory.readRange m off (n + 1)

/-- The canonical form: exactly the offsets `0 .. length - 1`, strictly rising (R50). -/
def Memory.wf (m : Memory) : Bool := m.map Prod.fst == List.range m.length

/-! ### Bounds -/

/-- A packet has 13 to `14 + MAX_PAYLOAD` bytes (10_state.md R34, 30_encoding.md R89). -/
abbrev packetSized (c : Params) (pkt : Packet) : Prop := 13 ≤ pkt.length ∧ pkt.length ≤ 14 + c.maxPayload

/-- `len`, the length of the body of the unit `[nalStart, nalEnd)` (R157). -/
def bodyLen (nalStart nalEnd : Nat) : Nat := nalEnd - nalStart - 1

/-- `n`, the number of chunks: 1 when `len = 0`, else `ceil(len / MAX_PAYLOAD)` (R157, R174). -/
def chunkCount (maxPayload len : Nat) : Nat :=
  if emptyBody len then 1 else (len + maxPayload - 1) / maxPayload

/-- `lo(k)`, the offset of the first byte of chunk `k` (R158). -/
def chunkLo (maxPayload nalStart k : Nat) : Nat := nalStart + 1 + k * maxPayload

/-- `hi(k)`, the offset one past chunk `k` (R158). -/
def chunkHi (maxPayload nalStart nalEnd k : Nat) : Nat :=
  min (chunkLo maxPayload nalStart k + maxPayload) nalEnd

end Sys2Proof.Machine
end

