-- ==== Sys2Proof/Machine/Ops.lean ====
section
/-! DEFINITION. The shared operations of the meanings: sequencing, reading a register, reading `AU`, raising a condition,
enqueueing, sampling time. -/

namespace Sys2Proof.Machine

/-- What a meaning answers. -/
abbrev Result := Host.Outcome State Fault Refusal

/-- Run `f` in the state `o` answers; a fault or a refusal stands. -/
def andThen (o : Result) (f : State → Result) : Result :=
  match o with
  | .next s => f s
  | .fault r => .fault r
  | .refused r => .refused r

/-- The block exists only with a configuration in the legal ranges; anything else is refused (00_scope.md R7, R95, U17). -/
def whenConfigured (s : State) (o : Result) : Result :=
  if s.params.legal then o else .refused .illegalConfiguration

/-- Read a register: one that holds no value must not be read, and the spec gives the read as a fault (10_state.md R37,
93_implementation_defined.md U14, 92_eei_decisions.md D24). -/
def readReg {α : Type} (r : Reg) (v : Option α) (f : α → Result) : Result :=
  match v with
  | some a => f a
  | none => .fault (.noValue r)

/-- `MemRead(AU + off, n)` (20_memory.md R70, header read and chunk read). -/
def readAu (s : State) (off n : Nat) (f : List Byte → Result) : Result :=
  match Memory.readRange s.au off n with
  | some bs => f bs
  | none => .fault (.offsetOutsideStore .au off)

/-- The unit the registers `nal_start` and `nal_end` bound; an empty range is no unit (R51, 41_bitstream_scanner.md R125). -/
def withUnit (s : State) (f : Nat → Nat → Result) : Result :=
  readReg .nalStart s.dp.nalStart fun a =>
    readReg .nalEnd s.dp.nalEnd fun b =>
      if a < b then f a b else .fault (.notAUnit a b)

/-! ### Conditions: the place of exceptions

No condition transfers control: raising one updates the status register of R206, saves nothing, changes no mode, and
processing goes on with the next statement (60_exceptions.md R205, R213). There is no handler, so no return (R214). -/

/-- The code of a condition (R206). -/
def Condition.code : Condition → Nat
  | .emptyNal => 1
  | .dqOvf => 2
  | .bufOvf => 3

/-- `raise X` (R11, R206, R213). -/
def raise (c : Condition) (s : State) : State :=
  match c with
  | .emptyNal => { s with nEmptyNal := s.nEmptyNal + 1#32 }
  | .dqOvf => { s with errDqOvf := true }
  | .bufOvf => { s with errBufOvf := true }

/-! ### Queue, time, header -/

/-- `Enqueue(pkt)` (44_packetizer.md R170; overflow 45_dispatch_queue.md R180). -/
def enqueue (pkt : Packet) (s : State) : State :=
  if queueFull s then raise .dqOvf s
  else { s with dq := s.dq ++ [pkt], dqPeak := max s.dqPeak (s.dqLevel + 1) }

/-- `Draw_u32()`: the host's time sample, free unless a TIME line of the script fixes it (R11, R102, R150). -/
def drawTime (s : State) : BitVec 32 := s.timeHeld.getD (Config.drawU32 s.draws)

/-- `BUILD_HDR`: a function of its five inputs alone (43_rtp_header_builder.md R147, R148). -/
def buildHeader (seqV : BitVec 16) (tsV ssrcV : BitVec 32) (m : Bool) (ptV : BitVec 7) : List Byte :=
  rtpHeaderBytes m ptV seqV tsV ssrcV

/-- The classifier's registers for the header byte `h` (42_nal_classifier.md R141). -/
def latchHeader (h : Byte) (s : State) : State :=
  { s with dp := { s.dp with
      hdr := some h, f := some (nalF h), nri := some (nalNri h), type := some (nalType h),
      isIdr := some (isIdr (nalType h)) } }

/-- What the host reads on the STATUS port (46_session_and_pipeline.md R199). Reading has no side effect (R58). -/
structure Status where
  sessionActive : Bool
  dqLevel : Nat
  dqPeak : Nat
  nEmptyNal : BitVec 32
  errBufOvf : Bool
  errDqOvf : Bool
  deriving DecidableEq, Repr

/-- The STATUS port (R199, D2). -/
def State.status (s : State) : Status where
  sessionActive := s.sessionActive
  dqLevel := s.dqLevel
  dqPeak := s.dqPeak
  nEmptyNal := s.nEmptyNal
  errBufOvf := s.errBufOvf
  errDqOvf := s.errDqOvf

end Sys2Proof.Machine
end

