-- ==== Sys2Proof/Machine/Formats.lean ====
section
/-! DEFINITION. Meanings of the output formats: `RTPHDR`, `FUIND`, `FUHDR.S`, `FUHDR.M`, `FUHDR.E` (spec 30_encoding.md R82 to R84).
Emitting a format puts its bytes into the packet under construction, which is built by concatenation (20_memory.md R50). -/

namespace Sys2Proof.Machine

/-- Bytes put after those already in the packet under construction (R50). -/
def appendToPacket (bs : List Byte) (s : State) : Result :=
  whenConfigured s <| .next { s with dp := { s.dp with pkt := s.dp.pkt ++ bs } }

/-- `RTPHDR` (R82): the header is always the first 12 bytes of the packet (43_rtp_header_builder.md R149). -/
def execRtphdr (m : Bool) (pt : BitVec 7) (seq : BitVec 16) (ts ssrc : BitVec 32) (s : State) : Result :=
  whenConfigured s <| .next { s with dp := { s.dp with pkt := rtpHeaderBytes m pt seq ts ssrc } }

/-- `FUIND` (R83). -/
def execFuind (f : BitVec 1) (nri : BitVec 2) (s : State) : Result :=
  appendToPacket [fuIndicator f nri] s

/-- `FUHDR.S` (R84). -/
def execFuhdrS (type : BitVec 5) (s : State) : Result := appendToPacket [fuHeader true false type] s

/-- `FUHDR.M` (R84). -/
def execFuhdrM (type : BitVec 5) (s : State) : Result := appendToPacket [fuHeader false false type] s

/-- `FUHDR.E` (R84). -/
def execFuhdrE (type : BitVec 5) (s : State) : Result := appendToPacket [fuHeader false true type] s

end Sys2Proof.Machine
end

