-- ==== Sys2Proof/Machine/HeaderBuilder.lean ====
section
/-! DEFINITION. Meaning of `BUILD_HDR` (spec 43_rtp_header_builder.md). -/

namespace Sys2Proof.Machine

/-- `BUILD_HDR` (R148): its 12 bytes begin the packet under construction (R149); no register changes, `seq` least of all (R147). -/
def execBuildHdr (seqV : BitVec 16) (tsV ssrcV : BitVec 32) (m : Bool) (ptV : BitVec 7) (s : State) : Result :=
  whenConfigured s <| .next { s with dp := { s.dp with pkt := buildHeader seqV tsV ssrcV m ptV } }

end Sys2Proof.Machine
end

