-- ==== Sys2Proof/Machine/Patterns.lean ====
section
/-! DEFINITION. Meanings of the input patterns: `SC3`, `SC4`, `BND0`, `BND1`, `NALHDR`, `DGRAM.LEN`
(spec 30_encoding.md R76 to R81). A scanner pattern is tested at the search index `i`; when it stands there it fixes the
start, or the end, of a unit; when it does not the test is false and nothing happens (20_memory.md R55). -/

namespace Sys2Proof.Machine

/-- The bytes of `AU` from the offset `i` on: what a pattern test at `i` can see (41_bitstream_scanner.md R121). -/
def auFrom (s : State) (i : Nat) : List Byte := (Memory.bytes s.au).drop i

/-- A start code test at the search index: if it matches, the unit starts `width` bytes on (R76, R77). -/
def startTest (pattern : List Byte → Bool) (width : Nat) (s : State) : Result :=
  whenConfigured s <| readReg .i s.dp.i fun i =>
    if pattern (auFrom s i) then .next { s with dp := { s.dp with nalStart := some (i + width) } } else .next s

/-- A boundary test at the search index: if it matches, the unit ends there (R78). -/
def endTest (pattern : List Byte → Bool) (s : State) : Result :=
  whenConfigured s <| readReg .i s.dp.i fun i =>
    if pattern (auFrom s i) then .next { s with dp := { s.dp with nalEnd := some i } } else .next s

/-- `SC3` (R76): the unit starts at offset `i + 3`. -/
def execSc3 (s : State) : Result := startTest (match3 1#8) 3 s

/-- `SC4` (R77): the unit starts at offset `i + 4`. -/
def execSc4 (s : State) : Result := startTest match4 4 s

/-- `BND0` (R78): the unit ends at the offset `i`. -/
def execBnd0 (s : State) : Result := endTest (match3 0#8) s

/-- `BND1` (R78): the unit ends at the offset `i`. -/
def execBnd1 (s : State) : Result := endTest (match3 1#8) s

/-- `NALHDR` (R79): the fields of the header byte, decoded by R141. -/
def execNalhdr (f : BitVec 1) (nri : BitVec 2) (type : BitVec 5) (s : State) : Result :=
  whenConfigured s <| .next (latchHeader (nalHeaderByte f nri type) s)

/-- `DGRAM.LEN` (R81): the length alone selects append or flush. -/
def execDgramLen (len : Nat) (s : State) : Result :=
  whenConfigured s <| .next { s with dp := { s.dp with fullSize := some (isFullSize s.params len) } }

end Sys2Proof.Machine
end

