-- ==== Sys2Proof/Machine/Queue.lean ====
section
/-! DEFINITION. The consumer's step, `POP` (spec 45_dispatch_queue.md). -/

namespace Sys2Proof.Machine

/-- `POP` (R176): the head of the queue is sent whole. When it is not enabled the consumer has no step: a hold, not a fault (R177). -/
def execPop (s : State) : Result :=
  whenConfigured s <|
    if popEnabled s then
      match s.dq with
      | pkt :: rest => .next { s with dq := rest, sent := s.sent ++ [pkt] }
      | [] => .next s
    else .next s

end Sys2Proof.Machine
end

