-- ==== Sys2Proof/Machine/Classifier.lean ====
section
/-! DEFINITION. The NAL Classifier and the meaning of `CLASSIFY` (spec 42_nal_classifier.md). -/

namespace Sys2Proof.Machine

/-- `CLASSIFY()` (R141): the header read `AU + nal_start`, then pure bit extraction. -/
def classify (s : State) : Result :=
  readReg .nalStart s.dp.nalStart fun a =>
    match Memory.read s.au a with
    | some h => .next (latchHeader h s)
    | none => .fault (.offsetOutsideStore .au a)

/-- `CLASSIFY` (R141). -/
def execClassify (s : State) : Result := whenConfigured s <| classify s

end Sys2Proof.Machine
end

