-- ==== Sys2Proof/Machine/Packetizer.lean ====
section
/-! DEFINITION. The Packetizer and the meanings of `PACKETIZE`, `PKT.SINGLE`, `PKT.FUA.S`, `PKT.FUA.M`, `PKT.FUA.E` and `ENQ`
(spec 44_packetizer.md). -/

namespace Sys2Proof.Machine

/-- Build one packet with the present `seq` and a fresh time sample, advance `seq` modulo 65536, enqueue the packet
(R160, R161, R166, 43_rtp_header_builder.md R149, R150). `lead` is the NAL header byte, or FU indicator and FU header. -/
def emit (m : Bool) (lead chunk : List Byte) (s : State) : Result :=
  readReg .seq s.seq fun q =>
    readReg .ssrc s.ssrc fun x =>
      let ts := drawTime s
      let pkt := buildHeader q ts x m s.params.pt ++ lead ++ chunk
      .next (enqueue pkt { s with
        seq := some (q + 1#16), draws := s.draws + 1, dp := { s.dp with m := some m, ts := some ts, pkt := pkt } })

/-- The registers `len`, `n`, `k`, `lo`, `hi` for chunk `k` of the unit `[a, b)` (R157, R158). -/
def setChunk (a b k : Nat) (s : State) : State :=
  { s with dp := { s.dp with
      len := some (bodyLen a b), n := some (chunkCount s.params.maxPayload (bodyLen a b)), k := some k,
      lo := some (chunkLo s.params.maxPayload a k), hi := some (chunkHi s.params.maxPayload a b k) } }

/-- Chunk `k` of the unit `[a, b)`, out of `AU` (R158). -/
def readChunk (a b k : Nat) (s : State) (f : List Byte → Result) : Result :=
  readAu s (chunkLo s.params.maxPayload a k)
    (chunkHi s.params.maxPayload a b k - chunkLo s.params.maxPayload a k) f

/-- `PKT.SINGLE()` on the unit `[a, b)` (R160); `EMPTY_NAL` when the body is empty (R168). -/
def emitSingle (a b : Nat) (s : State) : Result :=
  readReg .hdr s.dp.hdr fun h =>
    readChunk a b 0 s fun chunk =>
      andThen (emit true [h] chunk (setChunk a b 0 s)) fun t =>
        .next (if emptyBody (bodyLen a b) then raise .emptyNal t else t)

/-- One round of the loop of `PKT.FUA()`: fragment `k` of the unit `[a, b)` (R161 to R164). -/
def emitFragment (a b k : Nat) (s : State) : Result :=
  readReg .f s.dp.f fun f =>
    readReg .nri s.dp.nri fun nri =>
      readReg .type s.dp.type fun type =>
        readChunk a b k s fun chunk =>
          let n := chunkCount s.params.maxPayload (bodyLen a b)
          let t := setChunk a b k s
          emit (fragMarker n k) [fuIndicator f nri, fuHeader (fragStart k) (fragEnd n k) type] chunk
            { t with dp := { t.dp with s := some (fragStart k), e := some (fragEnd n k) } }

/-- The loop of `PKT.FUA()` from fragment `k` on, `r` fragments still to go, in increasing order (R161, R167). -/
def emitFragments (a b : Nat) : Nat → Nat → State → Result
  | _, 0, s => .next s
  | k, r + 1, s => andThen (emitFragment a b k s) (emitFragments a b (k + 1) r)

/-- `PACKETIZE()` on the unit `[a, b)`: one chunk is a single packet, more are FU-A fragments (R156, R159). -/
def packetizeUnit (a b : Nat) (s : State) : Result :=
  let n := chunkCount s.params.maxPayload (bodyLen a b)
  if n = 1 then emitSingle a b s else emitFragments a b 0 n s

/-- `PACKETIZE()` on the registers (R156). -/
def packetize (s : State) : Result := withUnit s fun a b => packetizeUnit a b s

/-- `PACKETIZE` (R156). -/
def execPacketize (s : State) : Result := whenConfigured s <| packetize s

/-- `PKT.SINGLE` (R160): selected when there is one chunk. -/
def execPktSingle (s : State) : Result :=
  whenConfigured s <| withUnit s fun a b =>
    if chunkCount s.params.maxPayload (bodyLen a b) = 1 then emitSingle a b s else .refused (.notSelected .pktSingle)

/-- `PKT.FUA.S` (R161): fragment 0 of a unit of more than one chunk. -/
def execPktFuaS (s : State) : Result :=
  whenConfigured s <| withUnit s fun a b =>
    if 1 < chunkCount s.params.maxPayload (bodyLen a b) then emitFragment a b 0 s
    else .refused (.notSelected .pktFuaS)

/-- `PKT.FUA.M` (R161): the fragment after the one `k` names, when that is not the last of the unit. -/
def execPktFuaM (s : State) : Result :=
  whenConfigured s <| withUnit s fun a b =>
    readReg .k s.dp.k fun k =>
      if k + 1 + 1 < chunkCount s.params.maxPayload (bodyLen a b) then emitFragment a b (k + 1) s
      else .refused (.notSelected .pktFuaM)

/-- `PKT.FUA.E` (R161): the fragment after the one `k` names, when that is the last of the unit. -/
def execPktFuaE (s : State) : Result :=
  whenConfigured s <| withUnit s fun a b =>
    readReg .k s.dp.k fun k =>
      if k + 1 + 1 = chunkCount s.params.maxPayload (bodyLen a b) then emitFragment a b (k + 1) s
      else .refused (.notSelected .pktFuaE)

/-- `ENQ` (R170) of a packet; bytes of another length are no packet (R34; notes/assumptions/21.md). Run by itself it reads no
session flag: DESIGN CHOICE (notes/assumptions/20.md). -/
def execEnq (pkt : Packet) (s : State) : Result :=
  whenConfigured s <|
    if packetSized s.params pkt then .next (enqueue pkt s) else .refused (.notAPacket pkt.length)

end Sys2Proof.Machine
end

