-- ==== Sys2Proof/Machine/Scanner.lean ====
section
/-! DEFINITION. The Bitstream Scanner and the meaning of `SCAN.NEXT` (spec 41_bitstream_scanner.md).
Each search walks the bytes of `AU` from its start offset: `rest` is always `AU[i..L)`. -/

namespace Sys2Proof.Machine

/-- The loop of `FindStart` (R123) at index `i`, with `rest = AU[i..L)`: the offset after the start code, if one is found, and
the index at which the search stopped. The pattern is tested first; the distance to the end is checked only after `i` has moved. -/
def findStartFrom (L : Nat) : Nat → List Byte → Option Nat × Nat
  | i, [] => (none, i + 1)
  | i, b :: rest =>
    if match3 1#8 (b :: rest) then (some (i + 3), i)
    else if match4 (b :: rest) then (some (i + 4), i)
    else if L ≤ i + 1 + 4 then (none, i + 1)
    else findStartFrom L (i + 1) rest

/-- `FindStart(p)` (R123). -/
def findStart (au : List Byte) (p : Nat) : Option Nat × Nat := findStartFrom au.length p (au.drop p)

/-- The loop of `FindEnd` (R124) at index `i`, with `rest = AU[i..L)`: the offset one past the unit, and the index at which
the search stopped. -/
def findEndFrom (L : Nat) : Nat → List Byte → Nat × Nat
  | i, [] => (L, i + 1)
  | i, b :: rest =>
    if isBoundary (b :: rest) then (i, i)
    else if L ≤ i + 1 + 2 then (L, i + 1)
    else findEndFrom L (i + 1) rest

/-- `FindEnd(s)` (R124). -/
def findEnd (au : List Byte) (s : Nat) : Nat × Nat := findEndFrom au.length s (au.drop s)

/-- What one `SCAN.NEXT` leaves: the unit it yields (none is Done) and the registers `p` and `i`. -/
structure ScanStep where
  unit : Option (Nat × Nat)
  p : Nat
  i : Nat
  deriving DecidableEq, Repr

/-- The loop of `SCAN.NEXT` (R125) from the scan pointer `p`. Every round leaves `p` at least 3 greater (R127), so `fuel`
above `L - p` is never used up. -/
def scanFrom (au : List Byte) : Nat → Nat → ScanStep
  | 0, p => { unit := none, p := p, i := p }
  | fuel + 1, p =>
    match findStart au p with
    | (none, i) => { unit := none, p := p, i := i }
    | (some s, i) =>
      if au.length ≤ s then { unit := none, p := p, i := i }
      else if s < (findEnd au s).1 then
        { unit := some (s, (findEnd au s).1), p := (findEnd au s).1, i := (findEnd au s).2 }
      else scanFrom au fuel (findEnd au s).1

/-- The next unit at or after `p` in the buffer `au`, or Done (R125). -/
def scanStep (au : List Byte) (p : Nat) : ScanStep := scanFrom au (au.length + 1) p

/-- The units `scanStep` yields from `p` on, in order, at most `fuel` of them. -/
def scanAllFrom (au : List Byte) : Nat → Nat → List (Nat × Nat)
  | 0, _ => []
  | fuel + 1, p =>
    match (scanStep au p).unit with
    | none => []
    | some u => u :: scanAllFrom au fuel (scanStep au p).p

/-- `ScanAll`: the whole sequence of units of a buffer, a function of its bytes alone (R126). -/
def scanAll (au : List Byte) : List (Nat × Nat) := scanAllFrom au (au.length + 1) 0

/-- `SCAN.NEXT()` on the registers (R125). A scan that has no scan pointer yet begins, with `p <- 0` (R131; DEDUCED,
notes/assumptions/7.md). The range of the last unit stays when the answer is Done. -/
def scanNext (s : State) : State :=
  let r := scanStep (Memory.bytes s.au) (s.dp.p.getD 0)
  match r.unit with
  | some (a, b) =>
    { s with dp := { s.dp with
        p := some r.p, i := some r.i, nalStart := some a, nalEnd := some b, scanDone := some false } }
  | none => { s with dp := { s.dp with p := some r.p, i := some r.i, scanDone := some true } }

/-- `SCAN.NEXT` (R125). -/
def execScanNext (s : State) : Result := whenConfigured s <| .next (scanNext s)

end Sys2Proof.Machine
end

