-- ==== Sys2Proof/Machine/Reassembler.lean ====
section
/-! DEFINITION. The Frame Reassembler, the fixed sequence that stands where a program would, and the meanings of `FR.APPEND`,
`FR.FLUSH` and `DGRAM` (spec 40_frame_reassembler.md; 46_session_and_pipeline.md R189 to R192). -/

namespace Sys2Proof.Machine

/-- The loop of `ProcessAccessUnit` (R190): scan, classify, packetize, until Done. A scan yields at most `L / 3` units (R127),
so `fuel` above `L` is never used up. -/
def processUnits : Nat → State → Result
  | 0, s => .next s
  | fuel + 1, s =>
    let t := scanNext s
    if t.dp.scanDone = some true then .next t
    else andThen (andThen (classify t) packetize) (processUnits fuel)

/-- `ProcessAccessUnit()` (R190). -/
def processAccessUnit (s : State) : Result :=
  processUnits (s.auLen + 1) { s with dp := { s.dp with p := some 0 } }

/-- A capacity is exceeded: `BUF_OVF`, the datagram and the carry-over are discarded (R115, R208). -/
def discardOverflow (s : State) : State := raise .bufOvf { s with carry := [] }

/-- `FR.APPEND(payload)` (R111, R115). -/
def frAppend (payload : List Byte) (s : State) : State :=
  if bufOverflow s payload.length then discardOverflow s
  else { s with carry := Memory.append s.carry payload }

/-- `FR.FLUSH(payload)` (R112, R115): carry-over first, then the datagram; the carry-over store is cleared. -/
def frFlush (payload : List Byte) (s : State) : Result :=
  if bufOverflow s payload.length then .next (discardOverflow s)
  else
    match Memory.readRange s.carry 0 s.carryLen with
    | some held => processAccessUnit { s with au := Memory.ofBytes (held ++ payload), carry := [] }
    | none => .fault (.offsetOutsideStore .carry 0)

/-- `FR.APPEND` (R111): selected by a full-size datagram. Run by itself it reads no session flag: DESIGN CHOICE
(notes/assumptions/20.md). -/
def execFrAppend (payload : List Byte) (s : State) : Result :=
  whenConfigured s <|
    if isFullSize s.params payload.length then .next (frAppend payload s) else .refused (.notSelected .frAppend)

/-- `FR.FLUSH` (R112): selected by a datagram of any other length. Run by itself it reads no session flag: DESIGN CHOICE
(notes/assumptions/20.md). -/
def execFrFlush (payload : List Byte) (s : State) : Result :=
  whenConfigured s <|
    if isFullSize s.params payload.length then .refused (.notSelected .frFlush) else frFlush payload s

/-- The end of an operation: the datapath registers hold no value between operations (10_state.md R22). -/
def endOperation (s : State) : Result := .next { s with dp := {} }

/-- `DGRAM` (R110, R189), one indivisible step (R192). Outside a session the datagram is discarded. -/
def execDgram (payload : List Byte) (s : State) : Result :=
  whenConfigured s <|
    if s.sessionActive then
      andThen (if isFullSize s.params payload.length then .next (frAppend payload s) else frFlush payload s) endOperation
    else .next s

end Sys2Proof.Machine
end

