-- ==== Sys2Proof/Machine/Session.lean ====
section
/-! DEFINITION. Session control: `RESET`, `START`, `STOP` (spec 46_session_and_pipeline.md R185 to R188, 10_state.md R36). -/

namespace Sys2Proof.Machine

/-- `STOP()` (R187): outside a session it changes nothing. The value of `AU` and of the datapath registers is that of R36. -/
def stopSession (s : State) : State :=
  if s.sessionActive then
    { s with sessionActive := false, dq := [], carry := [], au := [], seq := none, ssrc := none, dp := {} }
  else s

/-- The rest of `START(ssrc_in)`, after a session that was active has been stopped (R186, R188, R36). -/
def beginSession (ssrcIn : BitVec 32) (s : State) : State :=
  { s with
    ssrc := some ssrcIn, seq := some s.params.seqInit, carry := [], au := [], dq := [], dqPeak := 0, nEmptyNal := 0#32,
    sessionActive := true, dp := {} }

/-- `RESET()` (R185): the only operation that clears the fault flags. -/
def resetBlock (s : State) : State :=
  { s with
    sessionActive := false, seq := none, ssrc := none, carry := [], au := [], dq := [], dqPeak := 0, nEmptyNal := 0#32,
    errBufOvf := false, errDqOvf := false, dp := {} }

/-- `RESET` (R185). -/
def execReset (s : State) : Result := whenConfigured s <| .next (resetBlock s)

/-- `START` (R186): START during a session is STOP followed by START (R188). -/
def execStart (ssrcIn : BitVec 32) (s : State) : Result :=
  whenConfigured s <| .next (beginSession ssrcIn (stopSession s))

/-- `STOP` (R187). -/
def execStop (s : State) : Result := whenConfigured s <| .next (stopSession s)

end Sys2Proof.Machine
end

