-- ==== Sys2Proof/Machine/Dispatch.lean ====
section
/-! DEFINITION. One arm per row of the opcode table, each a direct call of its meaning. -/

namespace Sys2Proof.Machine

def exec (i : Instr) (s : State) : Host.Outcome State Fault Refusal :=
  match i with
  | .sc3 => Sys2Proof.Machine.execSc3 s
  | .sc4 => Sys2Proof.Machine.execSc4 s
  | .bnd0 => Sys2Proof.Machine.execBnd0 s
  | .bnd1 => Sys2Proof.Machine.execBnd1 s
  | .nalhdr f nri type => Sys2Proof.Machine.execNalhdr f nri type s
  | .dgramLen len => Sys2Proof.Machine.execDgramLen len s
  | .rtphdr m pt seq ts ssrc => Sys2Proof.Machine.execRtphdr m pt seq ts ssrc s
  | .fuind f nri => Sys2Proof.Machine.execFuind f nri s
  | .fuhdrS type => Sys2Proof.Machine.execFuhdrS type s
  | .fuhdrM type => Sys2Proof.Machine.execFuhdrM type s
  | .fuhdrE type => Sys2Proof.Machine.execFuhdrE type s
  | .pktSingle => Sys2Proof.Machine.execPktSingle s
  | .pktFuaS => Sys2Proof.Machine.execPktFuaS s
  | .pktFuaM => Sys2Proof.Machine.execPktFuaM s
  | .pktFuaE => Sys2Proof.Machine.execPktFuaE s
  | .reset => Sys2Proof.Machine.execReset s
  | .start ssrcIn => Sys2Proof.Machine.execStart ssrcIn s
  | .stop => Sys2Proof.Machine.execStop s
  | .dgram payload => Sys2Proof.Machine.execDgram payload s
  | .pop => Sys2Proof.Machine.execPop s
  | .frAppend payload => Sys2Proof.Machine.execFrAppend payload s
  | .frFlush payload => Sys2Proof.Machine.execFrFlush payload s
  | .scanNext => Sys2Proof.Machine.execScanNext s
  | .classify => Sys2Proof.Machine.execClassify s
  | .buildHdr seqV tsV ssrcV m ptV => Sys2Proof.Machine.execBuildHdr seqV tsV ssrcV m ptV s
  | .packetize => Sys2Proof.Machine.execPacketize s
  | .enq pkt => Sys2Proof.Machine.execEnq pkt s

end Sys2Proof.Machine
end

