-- ==== Sys2Proof/Machine/Script.lean ====
section
/-! DEFINITION. The lines of a stimulus script (spec 30_encoding.md R102, R103) and the consumer's own turn
(60_exceptions.md R211). -/

namespace Sys2Proof.Machine

/-- The number a CONFIG line gives a name, or its default where the line leaves it unset (R102). -/
def configured (given : Option Nat) (byDefault : Nat) : Nat := given.getD byDefault

/-- The parameters a CONFIG line sets: the four names it has, the capacities staying; none when a value is outside its legal
range (R7, R95, U17). -/
def configParams (c : ConfigLine) (old : Params) : Option Params :=
  let dflt : Params := {}
  let full := configured c.fullDgramSize dflt.fullDgramSize
  let maxPayload := configured c.maxPayload dflt.maxPayload
  let pt := configured c.pt dflt.pt.toNat
  let seqInit := configured c.seqInit dflt.seqInit.toNat
  if 1 ≤ full ∧ 1 ≤ maxPayload ∧ pt < 128 ∧ seqInit < 65536 then
    some { old with
      fullDgramSize := full, maxPayload := maxPayload, pt := BitVec.ofNat 7 pt, seqInit := BitVec.ofNat 16 seqInit }
  else none

/-- A CONFIG line: never inside a session (R7, U20). -/
def runConfig (c : ConfigLine) (s : State) : Result :=
  if s.sessionActive then .refused .configInSession
  else
    match configParams c s.params with
    | some p => .next { s with params := p }
    | none => .refused .illegalConfiguration

/-- The pieces of a FRAME: `m` of exactly `size` bytes, then what is left (R103). -/
def framePieces (size : Nat) : Nat → List Byte → List (List Byte)
  | 0, bs => [bs]
  | m + 1, bs => bs.take size :: framePieces size m (bs.drop size)

/-- A FRAME line puts its DGRAM lines in its place (R103); defined only when the length is no multiple of `FULL_DGRAM_SIZE`. -/
def runFrame (bs : List Byte) (s : State) : Result :=
  whenConfigured s <|
    if bs.length % s.params.fullDgramSize = 0 then .refused .frameNotDefined
    else .next { s with
      script := (framePieces s.params.fullDgramSize (bs.length / s.params.fullDgramSize) bs).map (fun d => .op (.dgram d))
        ++ s.script }

/-- A DRAIN line puts as many POP lines in its place as the queue holds packets (R103). -/
def runDrain (s : State) : Result := .next { s with script := List.replicate s.dqLevel (.op .pop) ++ s.script }

/-- Run an instruction that is well formed. -/
def runInstr (i : Instr) (s : State) : Result := if i.wellFormed then exec i s else .refused .illFormed

/-- One line of the script, in a state whose script is already what comes after it. -/
def runLine (l : Line) (s : State) : Result :=
  match l with
  | .config c => runConfig c s
  | .time t => .next { s with timeHeld := some t }
  | .op i => runInstr i s
  | .bytes bs =>
    match decode bs with
    | .ok i => runInstr i s
    | .error e => .refused (.undecodable e)
  | .frame bs => runFrame bs s
  | .drain => runDrain s

/-- With nothing pending from the host the consumer is the only agent that can have a step, and weak fairness gives it one
(R211); when POP is not enabled nothing happens (R177). -/
def consumerTurn (s : State) : Result := exec .pop s

/-! ### Placing a table row where the next step fetches it -/

/-- The tail of a packet row has no bits in the table: it is zeros. A body long enough for the row's select condition (R157, R161). -/
def stagedBodyLen (maxPayload : Nat) : PacketKind → Nat
  | .single => 0
  | .fuaS | .fuaE => maxPayload + 1
  | .fuaM => 2 * maxPayload + 1

/-- The registers, the time sample and the unit from which a packet row's sub-operation emits exactly these fields. -/
def stagePacket (x : PacketFields) (s : State) : State :=
  let hdr := nalHeaderByte x.f x.nri x.type
  let len := stagedBodyLen s.params.maxPayload x.kind
  { s with
    params := { s.params with pt := x.pt }, seq := some x.seq, ssrc := some x.ssrc, timeHeld := some x.ts,
    au := Memory.ofBytes (hdr :: List.replicate len 0#8),
    dp := { s.dp with
      nalStart := some 0, nalEnd := some (len + 1), hdr := some hdr, f := some x.f, nri := some x.nri, type := some x.type,
      k := some 0 } }

/-- The place a unit reads this row from: a scanner pattern stands in `AU` at the search index; a packet row has its fields in
the registers; the other rows need nothing (notes/assumptions/6.md). -/
def stageRow (bs : List Byte) (s : State) : State :=
  match contextOf bs with
  | .startSearch | .endSearch => { s with au := Memory.ofBytes bs, dp := { s.dp with i := some 0 } }
  | .packet =>
    match decodePacket bs with
    | .ok x => stagePacket x s
    | .error _ => s
  | .nalHeader | .rtpHeader | .fuInd | .fuHdr => s

/-- `bs` as the next line of the script, with what its row is read from. -/
def placeRow (bs : List Byte) (s : State) : State :=
  { stageRow bs s with script := .bytes bs :: s.script }

end Sys2Proof.Machine
end

