-- ==== Sys2Proof/Machine/Step.lean ====
section
/-! DEFINITION. One step of the machine: the next line of the pending script, or the consumer's turn when there is none. -/

namespace Sys2Proof.Machine

/-- One step (spec 20_memory.md R57, R62; 60_exceptions.md R211). -/
def step (s : State) : Host.Outcome State Fault Refusal :=
  match s.script with
  | [] => consumerTurn s
  | l :: rest => runLine l { s with script := rest }

/-- `s` with the table row of `nbits` bits whose number is `w` as the next line of its script. -/
def State.withFetchWord (s : State) (nbits w : Nat) : State := placeRow (wordBytes (nbits / 8) w) s

end Sys2Proof.Machine
end

