-- ==== Sys2Proof/Safety.lean ====
section
/-! DEFINITION. The terms claims use: launch premises and the end of a run (spec 46_session_and_pipeline.md R193, R200), the
invariant, and the packets a NAL unit and a buffer give, as functions of their bytes (44_packetizer.md R157 to R168). -/

namespace Sys2Proof.Machine

/-! ### Premises and ends of a run -/

/-- `Configured` (R200): the parameters are within the legal ranges of R7. -/
abbrev State.Configured (s : State) : Prop := s.params.legal = true

/-- `SessionActive` (R200): a session, and `seq` and `ssrc` hold values. -/
abbrev State.SessionActive (s : State) : Prop :=
  s.sessionActive = true ∧ s.seq.isSome = true ∧ s.ssrc.isSome = true

/-- `NoFault` (R200): both fault flags 0. -/
abbrev State.NoFault (s : State) : Prop := s.errBufOvf = false ∧ s.errDqOvf = false

/-- `CleanEntry` (R200): the state right after RESET and START. -/
abbrev State.CleanEntry (s : State) : Prop := s.carryLen = 0 ∧ s.dqLevel = 0 ∧ s.NoFault

/-- A state with a fault flag set is faulted: never a good final state (R32, 60_exceptions.md R208). -/
abbrev State.Faulted (s : State) : Prop := s.errBufOvf = true ∨ s.errDqOvf = true

/-- The end of a run (R193): nothing pending, and no session or a consumer suspended on an empty queue. -/
abbrev State.EndOfRun (s : State) : Prop := s.script = [] ∧ (s.sessionActive = false ∨ s.dqLevel = 0)

/-- A good end (R193). -/
abbrev State.GoodEnd (s : State) : Prop := s.EndOfRun ∧ s.NoFault

/-! ### The host premises about time (43_rtp_header_builder.md R150)

Both are premises about a run: about the samples the packets of the run carry, be they free or fixed by a TIME line. -/

/-- The host's time sample for the `j`-th packet built from now on, until a TIME line (R150). -/
def timeAt (s : State) (j : Nat) : BitVec 32 := s.timeHeld.getD (Config.drawU32 (s.draws + j))

/-- The state `n` steps on; none if the run stops before. -/
def State.after : Nat → State → Option State
  | 0, s => some s
  | n + 1, s =>
    match step s with
    | .next t => State.after n t
    | .fault _ => none
    | .refused _ => none

/-- The samples the packets built in the step from `s` to `t` carry, in order (R149, R150). -/
def samplesBetween (s t : State) : List (BitVec 32) := (List.range (t.draws - s.draws)).map (timeAt s)

/-- The next line of the script is a START, which restarts the host's time base (R186, R217). -/
def State.startsNext (s : State) : Bool :=
  match s.script with
  | .op (.start _) :: _ => true
  | _ => false

/-- The next line of the script is a DGRAM. -/
def State.datagramNext (s : State) : Bool :=
  match s.script with
  | .op (.dgram _) :: _ => true
  | _ => false

/-- The samples taken in the next `n` steps, in order, up to the next START. -/
def samplesTaken : Nat → State → List (BitVec 32)
  | 0, _ => []
  | n + 1, s =>
    match step s with
    | .next t => if s.startsNext then [] else samplesBetween s t ++ samplesTaken n t
    | .fault _ => []
    | .refused _ => []

/-- `b` is no earlier than `a`, modulo the wrap: the way forward from `a` to `b` is shorter than half of 2^32. DESIGN CHOICE
(notes/assumptions/19.md): R150 says "modulo the wrap" and gives no bound. -/
abbrev notEarlier (a b : BitVec 32) : Prop := (b - a).toNat < 2 ^ 31

/-- The host premise `TimeMonotone` (R150) for the run from `s`: between one START and the next, successive draws do not decrease,
modulo the wrap. DESIGN CHOICE (notes/assumptions/19.md): what a decrease is (`notEarlier`), and that a START begins anew. -/
def State.TimeMonotone (s : State) : Prop :=
  ∀ (m : Nat) (t : State), s.after m = some t →
    ∀ (n j : Nat) (a b : BitVec 32),
      (samplesTaken n t)[j]? = some a → (samplesTaken n t)[j + 1]? = some b → notEarlier a b

/-- The host premise `TimeFrozenWithinDgram` (R150) for the run from `s`: all draws inside one DGRAM operation are equal. -/
def State.TimeFrozenWithinDgram (s : State) : Prop :=
  ∀ (m : Nat) (t u : State), s.after m = some t → t.datagramNext = true → step t = .next u →
    ∀ a ∈ samplesBetween t u, ∀ b ∈ samplesBetween t u, a = b

/-! ### What a claim says of the registers and of memory -/

/-- The classifier's registers hold the fields of the header byte `h` (42_nal_classifier.md R141). -/
abbrev HeaderLatched (h : Byte) (d : Datapath) : Prop :=
  d.hdr = some h ∧ d.f = some (nalF h) ∧ d.nri = some (nalNri h) ∧ d.type = some (nalType h)

/-- The registers hold a classified unit `[a, b)` of `AU` with header byte `h`: what PACKETIZE takes as its operands (R156). -/
abbrev State.HoldsUnit (s : State) (a b : Nat) (h : Byte) : Prop :=
  s.dp.nalStart = some a ∧ s.dp.nalEnd = some b ∧ a < b ∧ b ≤ s.auLen ∧ HeaderLatched h s.dp

/-- The rows that PACKETIZE and its parts have on a unit of `n` chunks: the row that emits the next packet, by the `select` of the
opcode table and, for a fragment after the first, the chunk `k` before it (44_packetizer.md R159, R161; notes/assumptions/13.md). -/
abbrev State.SelectsRow (s : State) (n : Nat) (i : Instr) : Prop :=
  i = .packetize ∨ (n = 1 ∧ i = .pktSingle) ∨ (2 ≤ n ∧ i = .pktFuaS) ∨
    ∃ k, s.dp.k = some k ∧ ((k + 2 < n ∧ i = .pktFuaM) ∨ (k + 2 = n ∧ i = .pktFuaE))

/-- `seq` holds `q` and `ssrc` holds `x` (R26). -/
abbrev State.Numbered (s : State) (q : BitVec 16) (x : BitVec 32) : Prop := s.seq = some q ∧ s.ssrc = some x

/-- Every byte of both stores reads in `t` as it read in `s` (R50, R70). -/
abbrev SameBytes (s t : State) : Prop :=
  ∀ off, Memory.read t.carry off = Memory.read s.carry off ∧ Memory.read t.au off = Memory.read s.au off

/-- Only the datapath registers of R22 may differ. -/
abbrev OnlyDatapath (s t : State) : Prop := { t with dp := s.dp } = s

/-- RESET, START and STOP: the host's operations (R12, R100). -/
abbrev Instr.isSession (i : Instr) : Prop := i = .reset ∨ i = .stop ∨ ∃ x, i = .start x

/-! ### The invariant -/

/-- The five operations of the block (30_encoding.md R100). -/
def Instr.isOperation : Instr → Bool
  | .reset | .start _ | .stop | .dgram _ | .pop => true
  | .sc3 | .sc4 | .bnd0 | .bnd1 | .nalhdr _ _ _ | .dgramLen _ | .rtphdr _ _ _ _ _ | .fuind _ _
  | .fuhdrS _ | .fuhdrM _ | .fuhdrE _ | .pktSingle | .pktFuaS | .pktFuaM | .pktFuaE
  | .frAppend _ | .frFlush _ | .scanNext | .classify | .buildHdr _ _ _ _ _ | .packetize | .enq _ => false

/-- A line of the script language of R102 and R103: no sub-operation, no format. -/
def Line.isScript : Line → Bool
  | .op i => Instr.isOperation i
  | .bytes _ => false
  | .config _ | .time _ | .frame _ | .drain => true

/-- Both byte stores are in canonical form (20_memory.md R50). -/
abbrev State.StoresWf (s : State) : Prop := Memory.wf s.carry = true ∧ Memory.wf s.au = true

/-- What holds between operations in every run of a script (R102) from reset. -/
structure State.Inv (s : State) : Prop where
  /-- The configuration is legal (R7). -/
  configured : s.Configured
  /-- The stores are in canonical form (R50). -/
  storesWf : s.StoresWf
  /-- In a session `seq` and `ssrc` hold values (R36). -/
  inSession : s.sessionActive = true → s.seq.isSome = true ∧ s.ssrc.isSome = true
  /-- Outside a session they hold none, and nothing is stored or queued (R36, R187). -/
  outsideSession : s.sessionActive = false → s.seq = none ∧ s.ssrc = none ∧ s.carry = [] ∧ s.dq = []
  /-- The datapath registers hold no value between operations (R22). -/
  datapathEmpty : s.dp = {}
  /-- The carry-over is a whole number of full-size datagrams (40_frame_reassembler.md R116). -/
  carryFull : s.carryLen % s.params.fullDgramSize = 0
  /-- The capacities are respected (R7, R115, R170). -/
  carryCap : above s.carryLen s.params.bufCap = false
  auCap : above s.auLen s.params.bufCap = false
  levelCap : above s.dqLevel s.params.dqCap = false
  /-- `dq_peak` is at least `dq_level` and at most `DQ_CAP` (R26, R31). -/
  peak : s.dqLevel ≤ s.dqPeak
  peakCap : above s.dqPeak s.params.dqCap = false
  /-- Every queued packet has a legal length (R34, R89). -/
  packets : ∀ pkt ∈ s.dq, packetSized s.params pkt
  /-- A fault flag is set only where a capacity is finite (R32). -/
  bufFlag : s.errBufOvf = true → s.params.bufCap.isSome = true ∨ s.params.dgramMax.isSome = true
  dqFlag : s.errDqOvf = true → s.params.dqCap.isSome = true
  /-- What is pending is a script of operations (R102). -/
  scriptOnly : ∀ l ∈ s.script, Line.isScript l = true

/-! ### The packets of a unit, as a function of its bytes -/

/-- Chunk `k` of the unit `[a, b)` of the buffer `au` (R158). -/
def chunkBytes (c : Params) (au : List Byte) (a b k : Nat) : List Byte :=
  (au.drop (chunkLo c.maxPayload a k)).take (chunkHi c.maxPayload a b k - chunkLo c.maxPayload a k)

/-- The number of packets of the unit `[a, b)` (R157, R171). -/
def unitCount (c : Params) (a b : Nat) : Nat := chunkCount c.maxPayload (bodyLen a b)

/-- The layout of packet `k` of `n` (R159, R163). -/
def layoutOf (n k : Nat) : PacketKind :=
  if n = 1 then .single else if k = 0 then .fuaS else if k + 1 = n then .fuaE else .fuaM

/-- Packet `k` of the unit `[a, b)` with header byte `h`, the `j + k`-th packet built from the state `s` on, whose
sequence number register holds `q` and whose SSRC is `x` (R160 to R166). -/
def unitPacket (s : State) (q : BitVec 16) (x : BitVec 32) (au : List Byte) (h : Byte) (a b j k : Nat) : PacketFields where
  kind := layoutOf (unitCount s.params a b) k
  pt := s.params.pt
  seq := q + BitVec.ofNat 16 (j + k)
  ts := timeAt s (j + k)
  ssrc := x
  f := nalF h
  nri := nalNri h
  type := nalType h
  chunk := chunkBytes s.params au a b k

/-- All packets of the unit `[a, b)`, in chunk order (R167). -/
def unitPackets (s : State) (q : BitVec 16) (x : BitVec 32) (au : List Byte) (h : Byte) (a b j : Nat) : List Packet :=
  (List.range (unitCount s.params a b)).map fun k => encodePacket (unitPacket s q x au h a b j k)

/-- All packets of the units of a buffer, in scan order (R126, R167), `j` packets having been built before. -/
def bufferPackets (s : State) (q : BitVec 16) (x : BitVec 32) (au : List Byte) : Nat → List (Nat × Nat) → List Packet
  | _, [] => []
  | j, (a, b) :: units =>
    unitPackets s q x au (au.getD a 0#8) a b j ++ bufferPackets s q x au (j + unitCount s.params a b) units

/-- How many units of a buffer are a header byte alone (R207). -/
def emptyUnits (units : List (Nat × Nat)) : Nat := units.countP fun u => u.2 == u.1 + 1

/-- `Enqueue` of each packet in turn (R170). -/
def enqueueAll (pkts : List Packet) (s : State) : State := pkts.foldl (fun t pkt => enqueue pkt t) s

/-- The state after the packets `pkts` have been built from `s`, whose sequence number register holds `q`: each is enqueued in
order, takes one number and one time sample (R166, R150), and `empties` of them were degenerate units (R207). -/
def afterPackets (s : State) (q : BitVec 16) (pkts : List Packet) (empties : Nat) (d : Datapath) : State :=
  { enqueueAll pkts s with
    seq := some (q + BitVec.ofNat 16 pkts.length)
    draws := s.draws + pkts.length
    nEmptyNal := s.nEmptyNal + BitVec.ofNat 32 empties
    dp := d }

/-- The buffer a flush hands to the scanner: the carry-over, then the datagram (R112). -/
def flushBuffer (s : State) (payload : List Byte) : List Byte := Memory.bytes s.carry ++ payload

end Sys2Proof.Machine
end

