-- ==== Sys2Proof/Certificates/Slice0/Obligations.lean ====
section
/-! DEFINITION. The statements for the provers, one for each entry of OBLIGATIONS.json. -/

open Sys2Proof Sys2Proof.Machine

/-! ### Encodings -/

/-- Words written out from the encodings of spec/30_encoding.md decode to the rows they stand for. -/
def Obligations.SpecWordsDecode : Prop :=
  decodeAs .startSearch [0x00#8, 0x00#8, 0x01#8] = .ok .sc3 ∧
  decodeAs .startSearch [0x00#8, 0x00#8, 0x00#8, 0x01#8] = .ok .sc4 ∧
  decodeAs .endSearch [0x00#8, 0x00#8, 0x00#8] = .ok .bnd0 ∧
  decodeAs .endSearch [0x00#8, 0x00#8, 0x01#8] = .ok .bnd1 ∧
  decodeAs .endSearch [0x00#8, 0x00#8, 0x02#8] = .error .notAPattern ∧
  decodeAs .nalHeader [0xE5#8] = .ok (.nalhdr 1#1 3#2 5#5) ∧
  decodeAs .fuInd [0x5C#8] = .ok (.fuind 0#1 2#2) ∧
  decodeAs .fuHdr [0x85#8] = .ok (.fuhdrS 5#5) ∧
  decodeAs .fuHdr [0x05#8] = .ok (.fuhdrM 5#5) ∧
  decodeAs .fuHdr [0x45#8] = .ok (.fuhdrE 5#5) ∧
  decodeAs .fuHdr [0xA5#8] = .error .badFuHeader ∧
  decodeAs .rtpHeader
    [0x80#8, 0xE0#8, 0x12#8, 0x34#8, 0x00#8, 0x00#8, 0x03#8, 0xE8#8, 0x00#8, 0xAB#8, 0xCD#8, 0xEF#8] =
      .ok (.rtphdr true 96#7 0x1234#16 0x3E8#32 0xABCDEF#32)

/-- The encoding of an instruction decodes to that instruction, with every operand at every value (R76 to R84). -/
def Obligations.DecodeOfEncode : Prop :=
  ∀ (i : Instr) (bs : List Byte) (f : Format),
    encode i = some bs → formatOf i = some f → decodeAs f bs = .ok i

/-- Bytes that decode to a row other than a packet are the encoding of what they decode to: one word, one meaning (R76 to R84). -/
def Obligations.EncodeOfDecode : Prop :=
  ∀ (f : Format) (bs : List Byte) (i : Instr),
    f ≠ .packet → decodeAs f bs = .ok i → formatOf i = some f ∧ encode i = some bs

/-- A packet's bytes give back every field it was built from, and no two field values share bytes (R87, R88), but for a single packet
of an input unit of type 28 with a body, which R92 says a receiver reads as a fragment. How bytes whose byte 12 has type 28 are read
is the model's choice (notes/assumptions/22.md): with no byte after it a single packet, with one a fragment, its chunk empty or not.
So is that a chunk of any length is read, one no packet of the block has included (R89; notes/assumptions/23.md). -/
def Obligations.PacketDecodeOfEncode : Prop :=
  (∀ x : PacketFields, (x.kind = .single → x.type ≠ 28#5 ∨ x.chunk = []) → decodePacket (encodePacket x) = .ok x) ∧
  (∀ (x : PacketFields) (bs : List Byte), decodePacket bs = .ok x → encodePacket x = bs)

/-- The FU indicator and FU header, bit by bit; the receiver's rebuilding of the header byte; the constants of type 5 (R83 to R86). -/
def Obligations.FuByteLayout : Prop :=
  (∀ (f : BitVec 1) (nri : BitVec 2) (type : BitVec 5),
    fuIndicator f nri = f ++ nri ++ 28#5 ∧
    fuIndicator f nri = (nalHeaderByte f nri type &&& 0xE0#8) ||| 0x1C#8) ∧
  (∀ (n k : Nat) (type : BitVec 5),
    fuHeader (fragStart k) (fragEnd n k) type =
      BitVec.ofBool (decide (k = 0)) ++ BitVec.ofBool (decide (k + 1 = n)) ++ 0#1 ++ type) ∧
  (∀ (h : Byte) (s e : Bool),
    (fuIndicator (nalF h) (nalNri h) &&& 0xE0#8) ||| (fuHeader s e (nalType h) &&& 0x1F#8) = h) ∧
  fuHeader true false 5#5 = 0x85#8 ∧ fuHeader false false 5#5 = 0x05#8 ∧ fuHeader false true 5#5 = 0x45#8

/-- `BUILD_HDR`'s twelve bytes, bit by bit: the layout of `RTPHDR` (R82, R148). -/
def Obligations.RtpHeaderLayout : Prop :=
  ∀ (seq : BitVec 16) (ts ssrc : BitVec 32) (m : Bool) (pt : BitVec 7),
    buildHeader seq ts ssrc m pt =
      [2#2 ++ 0#1 ++ 0#1 ++ 0#4, BitVec.ofBool m ++ pt,
       seq.extractLsb' 8 8, seq.extractLsb' 0 8,
       ts.extractLsb' 24 8, ts.extractLsb' 16 8, ts.extractLsb' 8 8, ts.extractLsb' 0 8,
       ssrc.extractLsb' 24 8, ssrc.extractLsb' 16 8, ssrc.extractLsb' 8 8, ssrc.extractLsb' 0 8]

/-! ### The scanner's searches -/

/-- `Match3`, `Match4`, `IsStart` and `IsBoundary` at an index of the buffer: no byte past the end takes part (R121, R122). `SC3`
and `SC4` never match at one index, and an `SC4` contains an `SC3` one byte on, so both give one unit start (R77). -/
def Obligations.PatternPredicates : Prop :=
  ∀ (au : List Byte) (i : Nat) (c : Byte),
    (match3 c (au.drop i) = true ↔
      i + 2 < au.length ∧ au[i]? = some 0#8 ∧ au[i + 1]? = some 0#8 ∧ au[i + 2]? = some c) ∧
    (match4 (au.drop i) = true ↔
      i + 3 < au.length ∧ au[i]? = some 0#8 ∧ au[i + 1]? = some 0#8 ∧ au[i + 2]? = some 0#8 ∧ au[i + 3]? = some 1#8) ∧
    (isStart (au.drop i) = true ↔ match3 1#8 (au.drop i) = true ∨ match4 (au.drop i) = true) ∧
    (isBoundary (au.drop i) = true ↔ match3 0#8 (au.drop i) = true ∨ match3 1#8 (au.drop i) = true) ∧
    (match4 (au.drop i) = true → match3 1#8 (au.drop i) = false ∧ match3 1#8 (au.drop (i + 1)) = true)

/-- `FindStart(p)` (R123): it answers the unit start after a start code exactly when that is the first start code at or after `p`
and stands at `p` or more than 4 bytes before the end. -/
def Obligations.FindStartIsFirst : Prop :=
  ∀ (au : List Byte) (p s : Nat), p ≤ au.length →
    ((findStart au p).1 = some s ↔
      ∃ i, p ≤ i ∧ isStart (au.drop i) = true ∧ (∀ j, p ≤ j → j < i → isStart (au.drop j) = false) ∧
        (i = p ∨ i + 4 < au.length) ∧ s = if match3 1#8 (au.drop i) = true then i + 3 else i + 4)

/-- `FindEnd(s)` (R124): the first index at or after `s` that holds a boundary pattern, or the length when there is none. -/
def Obligations.FindEndIsFirst : Prop :=
  ∀ (au : List Byte) (s : Nat), s < au.length →
    s ≤ (findEnd au s).1 ∧ (findEnd au s).1 ≤ au.length ∧
    (∀ j, s ≤ j → j < (findEnd au s).1 → isBoundary (au.drop j) = false) ∧
    ((findEnd au s).1 < au.length → isBoundary (au.drop (findEnd au s).1) = true)

/-- `SCAN.NEXT` from a scan pointer inside the buffer (R125): Done, a unit, or, when the range is empty, the same search again
from its end. -/
def Obligations.ScanStepFollowsLoop : Prop :=
  ∀ (au : List Byte) (p : Nat), p ≤ au.length →
    match findStart au p with
    | (none, i) => scanStep au p = { unit := none, p := p, i := i }
    | (some s, i) =>
      if s ≥ au.length then scanStep au p = { unit := none, p := p, i := i }
      else
        let e := (findEnd au s).1
        if e > s then scanStep au p = { unit := some (s, e), p := e, i := (findEnd au s).2 }
        else scanStep au p = scanStep au e

/-- Every `SCAN.NEXT` that yields a unit leaves `p` at least 3 greater and at most `L`, every index stays at most `L + 1`, and
a buffer has at most `L / 3` units (R127). -/
def Obligations.ScanTerminates : Prop :=
  ∀ au : List Byte,
    (∀ p, p ≤ au.length →
      (scanStep au p).p ≤ au.length ∧ (scanStep au p).i ≤ au.length + 1 ∧
      ((scanStep au p).unit.isSome = true → p + 3 ≤ (scanStep au p).p)) ∧
    (scanAll au).length ≤ au.length / 3

/-- `ScanAll` is what repeated `SCAN.NEXT` returns from `p = 0` (R126): its units lie in byte order inside the buffer, none is
empty, and at least three bytes lie before the first and between any two. -/
def Obligations.ScanAllInOrder : Prop :=
  ∀ au : List Byte,
    (∀ p, p ≤ au.length →
      scanAllFrom au (au.length + 1) p =
        match (scanStep au p).unit with
        | none => []
        | some u => u :: scanAllFrom au (au.length + 1) (scanStep au p).p) ∧
    scanAll au = scanAllFrom au (au.length + 1) 0 ∧
    (∀ u ∈ scanAll au, 3 ≤ u.1 ∧ u.1 < u.2 ∧ u.2 ≤ au.length) ∧
    (scanAll au).Pairwise (fun u v => u.2 + 3 ≤ v.1)

/-- The source's scanner property (R130): `N` units `00 00 01 <payload>` one after the other give exactly `N` ranges, in order,
each exactly its payload, when no payload is empty or holds a boundary pattern and none but the last ends in a zero byte. -/
def Obligations.ScannerFindsEveryUnit : Prop :=
  ∀ payloads : List (List Byte),
    (∀ u ∈ payloads, u ≠ [] ∧ ∀ j, isBoundary (u.drop j) = false) →
    (∀ u ∈ payloads.dropLast, u.getLast? ≠ some 0#8) →
    let au := (payloads.map (fun u => [0#8, 0#8, 1#8] ++ u)).flatten
    (scanAll au).map (fun u => (au.drop u.1).take (u.2 - u.1)) = payloads

/-! ### The scanner's and the classifier's rows -/

/-- A start code row at the search index (R76, R77): when the code stands there, read byte by byte from `AU`, the unit starts
after it; when it does not, the test is false and nothing changes (R55). That the row writes `nal_start` is the model's choice
(notes/assumptions/12.md). That the rows, run by themselves, read no session flag is the model's choice
(notes/assumptions/20.md). -/
def Obligations.StartCodeRows : Prop :=
  ∀ (s : State) (i : Nat), s.Configured → Memory.wf s.au = true → s.dp.i = some i →
    exec .sc3 s =
      (if Memory.read s.au i = some 0#8 ∧ Memory.read s.au (i + 1) = some 0#8 ∧ Memory.read s.au (i + 2) = some 1#8 then
        .next { s with dp := { s.dp with nalStart := some (i + 3) } } else .next s) ∧
    exec .sc4 s =
      (if Memory.read s.au i = some 0#8 ∧ Memory.read s.au (i + 1) = some 0#8 ∧ Memory.read s.au (i + 2) = some 0#8 ∧
          Memory.read s.au (i + 3) = some 1#8 then
        .next { s with dp := { s.dp with nalStart := some (i + 4) } } else .next s)

/-- A boundary row at the search index (R78): when the pattern stands there the unit ends at the index; when it does not,
nothing changes (R55). That the row writes `nal_end` is the model's choice (notes/assumptions/12.md). That the rows, run by
themselves, read no session flag is the model's choice (notes/assumptions/20.md). -/
def Obligations.BoundaryRows : Prop :=
  ∀ (s : State) (i : Nat), s.Configured → Memory.wf s.au = true → s.dp.i = some i →
    exec .bnd0 s =
      (if Memory.read s.au i = some 0#8 ∧ Memory.read s.au (i + 1) = some 0#8 ∧ Memory.read s.au (i + 2) = some 0#8 then
        .next { s with dp := { s.dp with nalEnd := some i } } else .next s) ∧
    exec .bnd1 s =
      (if Memory.read s.au i = some 0#8 ∧ Memory.read s.au (i + 1) = some 0#8 ∧ Memory.read s.au (i + 2) = some 1#8 then
        .next { s with dp := { s.dp with nalEnd := some i } } else .next s)

/-- `SCAN.NEXT` on the registers (R125): a unit goes to `nal_start` and `nal_end`, `p` and `i` are what the search leaves,
nothing else changes. With no scan pointer a new scan begins at 0 (R131), the model's reading (notes/assumptions/7.md). That the
rows, run by themselves, read no session flag is the model's choice (notes/assumptions/20.md). -/
def Obligations.ScanNextWritesRegisters : Prop :=
  ∀ (s : State) (p : Nat), s.Configured → s.dp.p = some p ∨ (s.dp.p = none ∧ p = 0) → p ≤ s.auLen →
    let r := scanStep (Memory.bytes s.au) p
    match r.unit with
    | some (a, b) =>
      exec .scanNext s = .next { s with dp := { s.dp with
        p := some r.p, i := some r.i, nalStart := some a, nalEnd := some b, scanDone := some false } }
    | none => exec .scanNext s = .next { s with dp := { s.dp with p := some r.p, i := some r.i, scanDone := some true } }

/-- `CLASSIFY` (R141, R142): the header byte is the byte of `AU` at `nal_start`, its fields are bits 7, 6:5 and 4:0, and `IS_IDR`
is `TYPE = 5`; nothing else changes. That the row, run by itself, reads no session flag is the model's choice
(notes/assumptions/20.md). -/
def Obligations.ClassifyExtractsFields : Prop :=
  ∀ (s : State) (a : Nat) (h : Byte), s.Configured → s.dp.nalStart = some a → Memory.read s.au a = some h →
    exec .classify s = .next { s with dp := { s.dp with
      hdr := some h, f := some (h.extractLsb' 7 1), nri := some (h.extractLsb' 5 2), type := some (h.extractLsb' 0 5),
      isIdr := some (decide (h.extractLsb' 0 5 = 5#5)) } }

/-- The `NALHDR` row: the byte is `F`, `NRI`, `TYPE` from bit 7 down (R79) and reaches the classifier's registers as R141 says.
The `DGRAM.LEN` row records the one-bit condition `dgram_len = FULL_DGRAM_SIZE` (R25, R81). Nothing else changes. That these
rows run by themselves is the model's choice (notes/assumptions/12.md). That the rows, run by themselves, read no session flag
is the model's choice (notes/assumptions/20.md). -/
def Obligations.HeaderAndLengthRows : Prop :=
  ∀ (s : State), s.Configured →
    (∀ (f : BitVec 1) (nri : BitVec 2) (type : BitVec 5),
      exec (.nalhdr f nri type) s = .next { s with dp := { s.dp with
        hdr := some (f ++ nri ++ type), f := some f, nri := some nri, type := some type,
        isIdr := some (decide (type = 5#5)) } }) ∧
    (∀ len : Nat,
      exec (.dgramLen len) s =
        .next { s with dp := { s.dp with fullSize := some (decide (len = s.params.fullDgramSize)) } })

/-! ### Output formats -/

/-- The output rows put their bytes, bit by bit as in R82 to R84, into the packet under construction: the header begins it, an
FU byte is put after what is there; nothing else changes. The placing is the model's choice (notes/assumptions/12.md). That the
rows, run by themselves, read no session flag is the model's choice (notes/assumptions/20.md). -/
def Obligations.FormatRowsBuildThePacket : Prop :=
  ∀ (s : State), s.Configured →
    (∀ (m : Bool) (pt : BitVec 7) (seq : BitVec 16) (ts ssrc : BitVec 32),
      exec (.rtphdr m pt seq ts ssrc) s =
        .next { s with dp := { s.dp with
          pkt := [0x80#8, BitVec.ofBool m ++ pt] ++ be16 seq ++ be32 ts ++ be32 ssrc } }) ∧
    (∀ (f : BitVec 1) (nri : BitVec 2),
      exec (.fuind f nri) s = .next { s with dp := { s.dp with pkt := s.dp.pkt ++ [f ++ nri ++ 28#5] } }) ∧
    (∀ type : BitVec 5,
      exec (.fuhdrS type) s = .next { s with dp := { s.dp with pkt := s.dp.pkt ++ [4#3 ++ type] } } ∧
      exec (.fuhdrM type) s = .next { s with dp := { s.dp with pkt := s.dp.pkt ++ [0#3 ++ type] } } ∧
      exec (.fuhdrE type) s = .next { s with dp := { s.dp with pkt := s.dp.pkt ++ [2#3 ++ type] } })

/-- `BUILD_HDR` on any inputs (R148): its 12 bytes begin the packet under construction (R149) and no other state changes, the
sequence number least of all (R147). That the rows, run by themselves, read no session flag is the model's choice
(notes/assumptions/20.md). -/
def Obligations.BuildHeaderChangesNothingElse : Prop :=
  ∀ (seq : BitVec 16) (ts ssrc : BitVec 32) (m : Bool) (pt : BitVec 7) (s : State), s.Configured →
    exec (.buildHdr seq ts ssrc m pt) s =
      .next { s with dp := { s.dp with
        pkt := [0x80#8, BitVec.ofBool m ++ pt] ++ be16 seq ++ be32 ts ++ be32 ssrc } }

/-! ### Chunks -/

/-- The number of chunks (R157): 1 exactly when the body is at most `MAX_PAYLOAD` bytes long, else `ceil(len / MAX_PAYLOAD)`, the
least number of chunks that holds the body. -/
def Obligations.ChunkCountIsCeiling : Prop :=
  ∀ (c : Params) (a b : Nat), 1 ≤ c.maxPayload → a < b →
    let len := b - a - 1
    (unitCount c a b = 1 ↔ len ≤ c.maxPayload) ∧
    (2 ≤ unitCount c a b ↔ c.maxPayload < len) ∧
    (len = 0 → unitCount c a b = 1) ∧
    (0 < len → len ≤ unitCount c a b * c.maxPayload ∧ ∀ q, len ≤ q * c.maxPayload → unitCount c a b ≤ q)

/-- The chunks of a unit (R158): every chunk but the last is full, the last has what is left, and put together in order they are
exactly the body. -/
def Obligations.ChunksPartitionTheBody : Prop :=
  ∀ (c : Params) (au : List Byte) (a b : Nat), 1 ≤ c.maxPayload → a < b → b ≤ au.length →
    let len := b - a - 1
    let n := unitCount c a b
    (∀ k, k + 1 < n → (chunkBytes c au a b k).length = c.maxPayload) ∧
    (chunkBytes c au a b (n - 1)).length = len - (n - 1) * c.maxPayload ∧
    (0 < len → 1 ≤ (chunkBytes c au a b (n - 1)).length ∧ (chunkBytes c au a b (n - 1)).length ≤ c.maxPayload) ∧
    ((List.range n).map (chunkBytes c au a b)).flatten = (au.drop (a + 1)).take len

/-! ### The packets of a unit -/

/-- Packet lengths (R165, R89): `13 + len` for a single packet, `14 + |chunk|` for a fragment, `14 * n + len` in all for `n`
fragments; no packet is longer than `14 + MAX_PAYLOAD` or shorter than 13 bytes. -/
def Obligations.PacketLengths : Prop :=
  ∀ (s : State) (q : BitVec 16) (x : BitVec 32) (au : List Byte) (h : Byte) (a b j : Nat),
    1 ≤ s.params.maxPayload → a < b → b ≤ au.length →
    let len := b - a - 1
    let n := unitCount s.params a b
    let pkts := unitPackets s q x au h a b j
    (n = 1 → pkts.map List.length = [13 + len]) ∧
    (2 ≤ n →
      (∀ k, k + 1 < n → (pkts[k]?).map List.length = some (14 + s.params.maxPayload)) ∧
      (∀ k, k < n → (pkts[k]?).map List.length = some (14 + (chunkBytes s.params au a b k).length)) ∧
      (pkts.map List.length).sum = 14 * n + len) ∧
    (∀ pkt ∈ pkts, 13 ≤ pkt.length ∧ pkt.length ≤ 14 + s.params.maxPayload)

/-- What every unit's packets satisfy (R171): their number, one marker and on the last, one start bit and on the first, one end bit
and on the last, the constant header bytes, and the length bound. -/
def Obligations.UnitPacketsProperties : Prop :=
  ∀ (s : State) (q : BitVec 16) (x : BitVec 32) (au : List Byte) (h : Byte) (a b j : Nat),
    1 ≤ s.params.maxPayload → a < b → b ≤ au.length →
    let len := b - a - 1
    let pkts := unitPackets s q x au h a b j
    let n := pkts.length
    n = max 1 ((len + s.params.maxPayload - 1) / s.params.maxPayload) ∧
    ∀ (k : Nat) (pkt : Packet), pkts[k]? = some pkt →
      pkt.length ≤ 14 + s.params.maxPayload ∧
      pkt[0]? = some 0x80#8 ∧
      pkt[1]? = some (BitVec.ofBool (decide (k + 1 = n)) ++ s.params.pt) ∧
      (pkt.drop 8).take 4 = be32 x ∧
      (2 ≤ n → pkt[13]?.map (fun v => (v.getLsbD 7, v.getLsbD 6)) = some (decide (k = 0), decide (k + 1 = n)))

/-- One unit of `n` packets carries the sequence numbers `seq0, seq0 + 1, …` modulo 65536 in bytes 2 and 3, in chunk order, and
the host's samples in bytes 4 to 7 (R166, R150). The samples are free values (notes/assumptions/4.md). -/
def Obligations.PacketsAreNumberedInOrder : Prop :=
  ∀ (s : State) (q : BitVec 16) (x : BitVec 32) (au : List Byte) (h : Byte) (a b j k : Nat) (pkt : Packet),
    (unitPackets s q x au h a b j)[k]? = some pkt →
    (pkt.drop 2).take 2 = be16 (BitVec.ofNat 16 (q.toNat + j + k)) ∧ (pkt.drop 4).take 4 = be32 (timeAt s (j + k))

/-- Round trip (R172): a receiver rebuilds the unit, byte for byte, from the fragments in order, and reads it directly out of a
single packet. -/
def Obligations.ReceiverRebuildsTheUnit : Prop :=
  ∀ (s : State) (q : BitVec 16) (x : BitVec 32) (au : List Byte) (h : Byte) (a b j : Nat),
    1 ≤ s.params.maxPayload → a < b → b ≤ au.length → au[a]? = some h →
    let pkts := unitPackets s q x au h a b j
    (pkts.length = 1 → pkts.map (List.drop 12) = [(au.drop a).take (b - a)]) ∧
    (2 ≤ pkts.length →
      (∀ pkt ∈ pkts, ∃ ind fuh, pkt[12]? = some ind ∧ pkt[13]? = some fuh ∧ (ind &&& 0xE0#8) ||| (fuh &&& 0x1F#8) = h) ∧
      h :: (pkts.map (List.drop 14)).flatten = (au.drop a).take (b - a))

/-! ### The packetizer's rows -/

/-- `PACKETIZE` on a classified unit completes (R156, R159): every packet of the unit is built and enqueued in chunk order,
`seq` advances once for each, each takes one time sample, and a degenerate unit is counted (R160, R161, R166, R167, R168). That
the row, run by itself, reads no session flag is the model's choice (notes/assumptions/20.md). The samples are free values
(notes/assumptions/4.md). -/
def Obligations.PacketizeEmitsTheUnit : Prop :=
  ∀ (s : State) (q : BitVec 16) (x : BitVec 32) (h : Byte) (a b : Nat),
    s.Configured → Memory.wf s.au = true → s.HoldsUnit a b h → s.Numbered q x →
    ∃ d, exec .packetize s =
      .next (afterPackets s q (unitPackets s q x (Memory.bytes s.au) h a b 0) (if b = a + 1 then 1 else 0) d)

/-- `PKT.SINGLE` when there is one chunk (R160, R168): one packet with the marker, the header byte unchanged and the whole body;
`EMPTY_NAL` when the body is empty. That the row, run by itself, reads no session flag is the model's choice
(notes/assumptions/20.md). The samples are free values (notes/assumptions/4.md). -/
def Obligations.PktSingleEmits : Prop :=
  ∀ (s : State) (q : BitVec 16) (x : BitVec 32) (h : Byte) (a b : Nat),
    s.Configured → Memory.wf s.au = true → s.HoldsUnit a b h → s.Numbered q x → b - a - 1 ≤ s.params.maxPayload →
    let pkt := buildHeader q (timeAt s 0) x true s.params.pt ++ [h] ++ ((Memory.bytes s.au).drop (a + 1)).take (b - a - 1)
    exec .pktSingle s =
      .next (afterPackets s q [pkt] (if b = a + 1 then 1 else 0) { s.dp with
        len := some (b - a - 1), n := some 1, k := some 0, lo := some (a + 1), hi := some b,
        m := some true, ts := some (timeAt s 0), pkt := pkt })

/-- `PKT.FUA.S`, `PKT.FUA.M` and `PKT.FUA.E` on a unit of `n ≥ 2` chunks (R161 to R164): one packet for chunk 0, for the chunk
after `k` when that is not the last, and for it when it is; marker, S and E as in R163. That M and E take the chunk after `k` is
the model's reading (notes/assumptions/13.md), and that the rows read no session flag is its choice (notes/assumptions/20.md).
The samples are free values (notes/assumptions/4.md). -/
def Obligations.FragmentRowsEmit : Prop :=
  ∀ (s : State) (q : BitVec 16) (x : BitVec 32) (h : Byte) (a b : Nat),
    s.Configured → Memory.wf s.au = true → s.HoldsUnit a b h → s.Numbered q x →
    let n := unitCount s.params a b
    let pkt := fun (k : Nat) (fuh : Byte) =>
      buildHeader q (timeAt s 0) x (decide (k + 1 = n)) s.params.pt ++ [nalF h ++ nalNri h ++ 28#5, fuh] ++
        chunkBytes s.params (Memory.bytes s.au) a b k
    let after := fun (k : Nat) (fuh : Byte) =>
      afterPackets s q [pkt k fuh] 0 { s.dp with
        len := some (b - a - 1), n := some n, k := some k,
        lo := some (a + 1 + k * s.params.maxPayload), hi := some (min (a + 1 + (k + 1) * s.params.maxPayload) b),
        m := some (decide (k + 1 = n)), s := some (decide (k = 0)), e := some (decide (k + 1 = n)),
        ts := some (timeAt s 0), pkt := pkt k fuh }
    (2 ≤ n → exec .pktFuaS s = .next (after 0 (4#3 ++ nalType h))) ∧
    (∀ k, s.dp.k = some k → k + 2 < n → exec .pktFuaM s = .next (after (k + 1) (0#3 ++ nalType h))) ∧
    (∀ k, s.dp.k = some k → k + 2 = n → exec .pktFuaE s = .next (after (k + 1) (2#3 ++ nalType h)))

/-- `Enqueue` of a packet, 13 to `14 + MAX_PAYLOAD` bytes (R34): at the tail, the level one up and the peak at least the level
(R170); at a finite capacity the flag is set and the packet is lost (R180). Nothing else changes. Bytes of another length are no
packet: SubOperationsNotSelected. That ENQ has this effect outside a session too is the model's choice
(notes/assumptions/20.md). -/
def Obligations.EnqueueAppendsOrOverflows : Prop :=
  ∀ (pkt : Packet) (s : State), s.Configured → packetSized s.params pkt →
    (s.params.dqCap ≠ some s.dqLevel →
      exec (.enq pkt) s = .next { s with dq := s.dq ++ [pkt], dqPeak := max s.dqPeak (s.dqLevel + 1) }) ∧
    (s.params.dqCap = some s.dqLevel → exec (.enq pkt) s = .next { s with errDqOvf := true })

/-! ### The consumer -/

/-- `POP` when it is enabled (R176): the head of the queue, unchanged, goes to the OUT port; nothing else changes. -/
def Obligations.PopSendsTheHead : Prop :=
  ∀ (s : State) (pkt : Packet) (rest : List Packet), s.Configured → s.sessionActive = true → s.dq = pkt :: rest →
    exec .pop s = .next { s with dq := rest, sent := s.sent ++ [pkt] }

/-- `POP` when it is not enabled (R177): the consumer has no step. The model's form of a hold is the same state
(notes/assumptions/17.md). -/
def Obligations.PopHoldsWhenDisabled : Prop :=
  ∀ s : State, s.Configured → s.sessionActive = false ∨ s.dqLevel = 0 → exec .pop s = .next s

/-! ### The session -/

/-- `RESET` from any state: what it leaves (R185), what it keeps, and that no other instruction clears a fault flag. That the datapath
registers hold no value after it is the row of R36 (notes/assumptions/8.md); that the held time, the draw counter and what was sent
stay is the model's choice (notes/assumptions/4.md, 9.md). -/
def Obligations.ResetLeavesNothing : Prop :=
  (∀ s : State, s.Configured →
    exec .reset s = .next { s with
      sessionActive := false, seq := none, ssrc := none, carry := [], au := [], dq := [], dqPeak := 0,
      nEmptyNal := 0#32, errBufOvf := false, errDqOvf := false, dp := {} }) ∧
  (∀ (i : Instr) (s t : State), i ≠ .reset → exec i s = .next t →
    (s.errBufOvf = true → t.errBufOvf = true) ∧ (s.errDqOvf = true → t.errDqOvf = true))

/-- `START ssrc_in` from any state (R186): the fresh session of R36, the fault flags as they were. During a session it is STOP
followed by START (R188). That `AU` is empty and the datapath registers hold no value is the column of R36
(notes/assumptions/8.md); that the held time, the draw counter and what was sent stay is the model's choice
(notes/assumptions/4.md, 9.md). -/
def Obligations.StartOpensASession : Prop :=
  ∀ (x : BitVec 32) (s : State), s.Configured →
    exec (.start x) s = .next { s with
      sessionActive := true, seq := some s.params.seqInit, ssrc := some x, carry := [], au := [], dq := [],
      dqPeak := 0, nEmptyNal := 0#32, dp := {} } ∧
    (s.sessionActive = true →
      ∃ t, exec .stop s = .next t ∧ t.sessionActive = false ∧ exec (.start x) s = exec (.start x) t)

/-- `STOP` (R187): a session's queue, carry-over and numbers are gone, the counters and flags stay; outside a session nothing
changes. That `AU` is empty and the datapath registers hold no value is the column of R36 (notes/assumptions/8.md); that the held
time, the draw counter and what was sent stay is the model's choice (notes/assumptions/4.md, 9.md). -/
def Obligations.StopDiscardsTheSession : Prop :=
  ∀ s : State, s.Configured →
    (s.sessionActive = true →
      exec .stop s = .next { s with
        sessionActive := false, seq := none, ssrc := none, carry := [], au := [], dq := [], dp := {} }) ∧
    (s.sessionActive = false → exec .stop s = .next s)

/-! ### Datagrams -/

/-- `DGRAM` (R110, R189): outside a session nothing changes; in a session the length alone chooses append or flush (R81), and the
datapath registers hold no value afterwards (R22; notes/assumptions/8.md). -/
def Obligations.DatagramLengthSelects : Prop :=
  ∀ (payload : List Byte) (s : State), s.Configured →
    (s.sessionActive = false → exec (.dgram payload) s = .next s) ∧
    (s.sessionActive = true → payload.length = s.params.fullDgramSize →
      exec (.dgram payload) s = andThen (exec (.frAppend payload) s) endOperation) ∧
    (s.sessionActive = true → payload.length ≠ s.params.fullDgramSize →
      exec (.dgram payload) s = andThen (exec (.frFlush payload) s) endOperation)

/-- `FR.APPEND` (R111): the datagram lies after the carry-over, byte by byte; nothing else changes. That it has this effect outside a
session too is the model's choice (notes/assumptions/20.md). -/
def Obligations.AppendWritesAfterTheCarry : Prop :=
  ∀ (payload : List Byte) (s : State), s.Configured → s.StoresWf → payload.length = s.params.fullDgramSize →
    above payload.length s.params.dgramMax = false → above (s.carryLen + payload.length) s.params.bufCap = false →
    ∃ t, exec (.frAppend payload) s = .next t ∧ t.carryLen = s.carryLen + payload.length ∧
      (∀ off, Memory.read t.carry off =
        if off < s.carryLen then Memory.read s.carry off else payload[off - s.carryLen]?) ∧
      { t with carry := s.carry } = s

/-- A capacity is exceeded (R115): `ERR_BUF_OVF` is set, the datagram and the carry-over are discarded, no packet is produced and
nothing else changes. That `AU` stays is notes/assumptions/8.md, and that the rows have this effect outside a session too is the
model's choice (notes/assumptions/20.md). -/
def Obligations.BufferOverflowDiscards : Prop :=
  ∀ (payload : List Byte) (s : State), s.Configured →
    above payload.length s.params.dgramMax = true ∨ above (s.carryLen + payload.length) s.params.bufCap = true →
    (payload.length = s.params.fullDgramSize →
      exec (.frAppend payload) s = .next { s with carry := [], errBufOvf := true }) ∧
    (payload.length ≠ s.params.fullDgramSize →
      exec (.frFlush payload) s = .next { s with carry := [], errBufOvf := true })

/-- `FR.FLUSH` (R112, R190): `AU` becomes the carry-over then the datagram, `CARRY` is empty, and exactly the packets of the
units of that buffer, in scan order, are built and enqueued. That the row reads no session flag is the model's choice
(notes/assumptions/20.md). The samples are free values (notes/assumptions/4.md). -/
def Obligations.FlushEmitsTheAccessUnit : Prop :=
  ∀ (payload : List Byte) (s : State) (q : BitVec 16) (x : BitVec 32),
    s.Configured → s.StoresWf → s.Numbered q x → payload.length ≠ s.params.fullDgramSize →
    above payload.length s.params.dgramMax = false → above (s.carryLen + payload.length) s.params.bufCap = false →
    let buf := Memory.bytes s.carry ++ payload
    ∃ d au, exec (.frFlush payload) s =
        .next (afterPackets { s with au := au, carry := [] } q (bufferPackets s q x buf 0 (scanAll buf))
          (emptyUnits (scanAll buf)) d) ∧
      (∀ off, Memory.read au off = buf[off]?)

/-- A whole `DGRAM` of the flush case, from a session to the resting state after it: `AU` is the carry-over then the datagram,
`CARRY` is empty (R112), all packets are built in one step (R189, R190, R192). That the datapath registers hold no value
afterwards is R22 as the model reads it (notes/assumptions/8.md). The samples are free values (notes/assumptions/4.md). -/
def Obligations.DatagramFlushIsOneStep : Prop :=
  ∀ (payload : List Byte) (s : State) (q : BitVec 16) (x : BitVec 32),
    s.Configured → s.StoresWf → s.sessionActive = true → s.Numbered q x → payload.length ≠ s.params.fullDgramSize →
    above payload.length s.params.dgramMax = false → above (s.carryLen + payload.length) s.params.bufCap = false →
    let buf := Memory.bytes s.carry ++ payload
    exec (.dgram payload) s =
      .next (afterPackets { s with au := Memory.ofBytes buf, carry := [] } q (bufferPackets s q x buf 0 (scanAll buf))
        (emptyUnits (scanAll buf)) {})

/-- A sub-operation outside the condition that selects it (opcode table, `select`) is refused by name, and so is ENQ of bytes whose
length is none of a packet's, 13 to `14 + MAX_PAYLOAD` (R34): the model's choice (notes/assumptions/10.md, 21.md). That PKT.FUA.M and
PKT.FUA.E take the chunk after `k`, so are selected by it, is the model's reading (notes/assumptions/13.md). -/
def Obligations.SubOperationsNotSelected : Prop :=
  ∀ s : State, s.Configured →
    (∀ bs : List Byte, bs.length < 13 ∨ 14 + s.params.maxPayload < bs.length →
      exec (.enq bs) s = .refused (.notAPacket bs.length)) ∧
    (∀ payload : List Byte,
      (payload.length ≠ s.params.fullDgramSize → exec (.frAppend payload) s = .refused (.notSelected .frAppend)) ∧
      (payload.length = s.params.fullDgramSize → exec (.frFlush payload) s = .refused (.notSelected .frFlush))) ∧
    (∀ a b, s.dp.nalStart = some a → s.dp.nalEnd = some b → a < b →
      (s.params.maxPayload < b - a - 1 → exec .pktSingle s = .refused (.notSelected .pktSingle)) ∧
      (b - a - 1 ≤ s.params.maxPayload → exec .pktFuaS s = .refused (.notSelected .pktFuaS)) ∧
      (∀ k, s.dp.k = some k →
        (unitCount s.params a b ≤ k + 2 → exec .pktFuaM s = .refused (.notSelected .pktFuaM)) ∧
        (unitCount s.params a b ≠ k + 2 → exec .pktFuaE s = .refused (.notSelected .pktFuaE))))

/-! ### The step -/

/-- The step runs the instruction the bytes of the next line decode to, with that line taken off the script; bytes that are no
instruction are refused by name (notes/assumptions/5.md). Which row bytes without a context are is the model's choice too
(notes/assumptions/6.md). -/
def Obligations.StepRunsTheDecodedLine : Prop :=
  ∀ (s : State) (bs : List Byte) (rest : List Line), s.script = .bytes bs :: rest →
    (∀ i, decode bs = .ok i → i.wellFormed = true → step s = exec i { s with script := rest }) ∧
    (∀ e, decode bs = .error e → step s = .refused (.undecodable e))

/-- The step runs the operation of the next line, and refuses one that is not well formed; with no line pending the consumer has
its turn (R62, R102, R211). The script as data is the model's own (notes/assumptions/5.md). -/
def Obligations.StepRunsTheNextOperation : Prop :=
  ∀ s : State,
    (∀ (i : Instr) (rest : List Line), s.script = .op i :: rest →
      step s = if i.wellFormed then exec i { s with script := rest } else .refused .illFormed) ∧
    (s.script = [] → step s = exec .pop s)

/-- A TIME line fixes every draw from here on (R102): the draws of every later packet return its value until the next TIME line.
So a script with no TIME line after it meets both host premises of R150, `TimeFrozenWithinDgram` and `TimeMonotone`; what a
decrease modulo the wrap is, is the model's choice (notes/assumptions/19.md). The held time is the model's own field
(notes/assumptions/4.md). -/
def Obligations.TimeLineFixesTheDraws : Prop :=
  ∀ (s : State) (v : BitVec 32) (rest : List Line), s.script = .time v :: rest →
    ∃ t, step s = .next t ∧ t = { s with script := rest, timeHeld := some v } ∧ (∀ j, timeAt t j = v) ∧
      ((∀ w, Line.time w ∉ rest) → t.TimeFrozenWithinDgram ∧ t.TimeMonotone)

/-- A CONFIG line outside a session (R102): a name it gives takes its value, an unset name its default. A value outside its
legal range is no configuration of the block and is refused (R7, R95); so is a CONFIG line in a session. The capacities, which
the line has no name for, stay (notes/assumptions/14.md). The refusals are the model's form (notes/assumptions/11.md, 14.md). -/
def Obligations.ConfigLineSetsParameters : Prop :=
  ∀ (s : State) (c : ConfigLine) (rest : List Line), s.script = .config c :: rest →
    let full := c.fullDgramSize.getD 1460
    let size := c.maxPayload.getD 1440
    let pt := c.pt.getD 96
    let first := c.seqInit.getD 0
    (s.sessionActive = true → step s = .refused .configInSession) ∧
    (s.sessionActive = false → 1 ≤ full → 1 ≤ size → pt ≤ 127 → first ≤ 65535 →
      step s = .next { s with script := rest, params := { s.params with
        fullDgramSize := full, maxPayload := size, pt := BitVec.ofNat 7 pt, seqInit := BitVec.ofNat 16 first } }) ∧
    (s.sessionActive = false → full = 0 ∨ size = 0 ∨ 127 < pt ∨ 65535 < first →
      step s = .refused .illegalConfiguration)

/-- FRAME and DRAIN (R103): FRAME stands for the DGRAM lines of successive pieces of exactly `FULL_DGRAM_SIZE` bytes and then
the rest, and is defined only for a length that is no multiple; DRAIN stands for as many POP lines as the queue holds packets.
The script as data, and the refusal of another FRAME, are the model's (notes/assumptions/5.md). -/
def Obligations.FrameAndDrainExpand : Prop :=
  ∀ (s : State) (rest : List Line), s.Configured →
    (∀ bs, s.script = .frame bs :: rest → bs.length % s.params.fullDgramSize ≠ 0 →
      ∃ pieces last, step s =
          .next { s with script := (pieces ++ [last]).map (fun d => Line.op (.dgram d)) ++ rest } ∧
        (pieces ++ [last]).flatten = bs ∧ (∀ d ∈ pieces, d.length = s.params.fullDgramSize) ∧
        last.length = bs.length % s.params.fullDgramSize) ∧
    (∀ bs, s.script = .frame bs :: rest → bs.length % s.params.fullDgramSize = 0 → step s = .refused .frameNotDefined) ∧
    (s.script = .drain :: rest →
      step s = .next { s with script := List.replicate s.dqLevel (.op .pop) ++ rest })

/-! ### Frames and ownership -/

/-- Frame of the rows that only move values between the units (R76 to R84, R120, R140, R147): nothing but the datapath registers
changes, and every byte of both stores reads as before. That the rows, run by themselves, read no session flag is the model's
choice (notes/assumptions/20.md). So is what the format rows do when run by themselves (notes/assumptions/12.md). -/
def Obligations.DatapathRowsFrame : Prop :=
  ∀ (i : Instr) (s t : State),
    (i = .sc3 ∨ i = .sc4 ∨ i = .bnd0 ∨ i = .bnd1 ∨ (∃ f nri type, i = .nalhdr f nri type) ∨ (∃ len, i = .dgramLen len) ∨
      (∃ m pt seq ts ssrc, i = .rtphdr m pt seq ts ssrc) ∨ (∃ f nri, i = .fuind f nri) ∨
      (∃ type, i = .fuhdrS type ∨ i = .fuhdrM type ∨ i = .fuhdrE type) ∨ i = .scanNext ∨ i = .classify ∨
      ∃ seq ts ssrc m pt, i = .buildHdr seq ts ssrc m pt) →
    exec i s = .next t → OnlyDatapath s t ∧ SameBytes s t

/-- Frame of the rows that emit packets (R156): parameters, session, SSRC, both stores byte for byte, `ERR_BUF_OVF`, what was
sent and the script stay; the queue is only extended at its tail, by packets of 13 to `14 + MAX_PAYLOAD` bytes (R34, R89). That
the rows, run by themselves, read no session flag is the model's choice (notes/assumptions/20.md). The script and the held time
are the model's own fields (notes/assumptions/4.md, 5.md). -/
def Obligations.PacketRowsFrame : Prop :=
  ∀ (i : Instr) (s t : State),
    (i = .packetize ∨ i = .pktSingle ∨ i = .pktFuaS ∨ i = .pktFuaM ∨ i = .pktFuaE ∨ ∃ pkt, i = .enq pkt) →
    exec i s = .next t →
    t.params = s.params ∧ t.sessionActive = s.sessionActive ∧ t.ssrc = s.ssrc ∧ SameBytes s t ∧
    t.errBufOvf = s.errBufOvf ∧ t.sent = s.sent ∧ t.timeHeld = s.timeHeld ∧ t.script = s.script ∧
    ∃ new, t.dq = s.dq ++ new ∧ ∀ pkt ∈ new, 13 ≤ pkt.length ∧ pkt.length ≤ 14 + s.params.maxPayload

/-- Who changes what (R38, R7, R70): no instruction changes a parameter; none but RESET, START and STOP changes `session_active`
or `ssrc`; none but POP sends; POP changes nothing the producer or the host owns; none but the session and framing operations
changes a byte of a store. The script and the held time are the host's. That they stay, and that what was sent stays, under
RESET, START and STOP too is the model's choice (notes/assumptions/4.md, 5.md, 9.md), as is what a sub-operation does when run
by itself (notes/assumptions/20.md). -/
def Obligations.OwnershipOfState : Prop :=
  ∀ (i : Instr) (s t : State), exec i s = .next t →
    t.params = s.params ∧ t.script = s.script ∧ t.timeHeld = s.timeHeld ∧
    (¬ Instr.isSession i → t.sessionActive = s.sessionActive ∧ t.ssrc = s.ssrc) ∧
    (i ≠ .pop → t.sent = s.sent) ∧
    (i = .pop → { t with dq := s.dq, sent := s.sent } = s) ∧
    (¬ Instr.isSession i → (∀ payload, i ≠ .frAppend payload ∧ i ≠ .frFlush payload ∧ i ≠ .dgram payload) → SameBytes s t)

/-- The sequence number (R27): outside RESET, START and STOP it advances by exactly one, modulo 65536, for every packet built,
and by nothing else. The packets built are counted by the model's own draw counter, one sample a packet (R150;
notes/assumptions/4.md); sub-operations run by themselves count alike (notes/assumptions/20.md). -/
def Obligations.SequenceNumberCountsPackets : Prop :=
  ∀ (i : Instr) (s t : State) (q : BitVec 16), ¬ Instr.isSession i → s.seq = some q → exec i s = .next t →
    s.draws ≤ t.draws ∧ t.seq = some (q + BitVec.ofNat 16 (t.draws - s.draws))

/-- Strict FIFO (R178): while a session lasts, what has been sent followed by what is queued only ever grows at its end: no
packet is reordered, changed, duplicated or dropped. What was sent is never taken back. That RESET, START and STOP leave what
was sent is the model's choice (notes/assumptions/9.md), as is what ENQ run by itself does outside a session
(notes/assumptions/20.md). -/
def Obligations.QueueIsFirstInFirstOut : Prop :=
  ∀ (i : Instr) (s t : State), exec i s = .next t →
    s.sent <+: t.sent ∧ (¬ Instr.isSession i → s.sent ++ s.dq <+: t.sent ++ t.dq)

/-- Fault flags (R32): a flag becomes 1 only under a finite capacity, once 1 it stays 1 until RESET, and a state with a flag set is
no good end. -/
def Obligations.FaultFlagsAreSticky : Prop :=
  (∀ (i : Instr) (s t : State), exec i s = .next t →
    (s.errBufOvf = false → t.errBufOvf = true → s.params.bufCap.isSome = true ∨ s.params.dgramMax.isSome = true) ∧
    (s.errDqOvf = false → t.errDqOvf = true → s.params.dqCap.isSome = true) ∧
    (i ≠ .reset → (s.errBufOvf = true → t.errBufOvf = true) ∧ (s.errDqOvf = true → t.errDqOvf = true))) ∧
  (∀ s : State, s.Faulted → ¬ s.GoodEnd)

/-- `n_empty_nal` and `dq_peak` influence no emitted byte (R31): changing them changes nothing of what an instruction does but
their own new values. -/
def Obligations.CountersInfluenceNothing : Prop :=
  ∀ (i : Instr) (s t : State) (c : BitVec 32) (n : Nat), exec i s = .next t →
    ∃ c' n', exec i { s with nEmptyNal := c, dqPeak := n } = .next { t with nEmptyNal := c', dqPeak := n' }

/-- `IS_IDR` changes no byte (R169): changing it changes nothing of what an instruction does but its own new value. -/
def Obligations.IsIdrInfluencesNothing : Prop :=
  ∀ (i : Instr) (s t : State) (v : Option Bool), exec i s = .next t →
    ∃ v', exec i { s with dp := { s.dp with isIdr := v } } = .next { t with dp := { t.dp with isIdr := v' } }

/-! ### Invariants and stops -/

/-- The state after reset meets the invariant and holds what R185, R36 and R7 give it. The empty script is the model's own
(notes/assumptions/5.md), and the consumer is computed (notes/assumptions/18.md). -/
def Obligations.ResetStateMeetsTheInvariant : Prop :=
  State.reset.Inv ∧ State.reset.seq = none ∧ State.reset.ssrc = none ∧ State.reset.sessionActive = false ∧
  State.reset.dqLevel = 0 ∧ State.reset.dqPeak = 0 ∧ State.reset.nEmptyNal = 0#32 ∧ State.reset.carryLen = 0 ∧ State.reset.auLen = 0 ∧ State.reset.NoFault ∧
  State.reset.params.fullDgramSize = 1460 ∧ State.reset.params.maxPayload = 1440 ∧ State.reset.params.pt = 96#7 ∧
  State.reset.params.seqInit = 0#16 ∧ State.reset.params.bufCap = none ∧ State.reset.params.dgramMax = none ∧
  State.reset.params.dqCap = none ∧ State.reset.dp = {} ∧ State.reset.consumer = .suspended

/-- Every step of a script keeps the invariant, from every state that meets it (R22, R31, R32, R34, R36, R50, R115, R116). The
script is the model's own (notes/assumptions/5.md), and that no datapath register holds a value between operations is R22 as it
reads it (notes/assumptions/8.md). -/
def Obligations.StepKeepsTheInvariant : Prop :=
  ∀ s t : State, s.Inv → step s = .next t → t.Inv

/-- Every step keeps both stores in canonical form (R50), from every state where they are. The list form of a store is the
model's (notes/assumptions/3.md), its script too (notes/assumptions/5.md). -/
def Obligations.StepKeepsStoresCanonical : Prop :=
  ∀ s t : State, s.StoresWf → step s = .next t → t.StoresWf

/-- No step of a script ever faults, in a state that meets the invariant (R14, R37, R205). The faults are the model's form of
what R37 forbids (notes/assumptions/2.md), its script is its own (notes/assumptions/5.md). -/
def Obligations.StepNeverFaults : Prop :=
  ∀ (s : State) (r : Fault), s.Inv → step s ≠ .fault r

/-- A parameter set outside the legal ranges of R7 is not a configuration of the block: every instruction is refused
(notes/assumptions/11.md). -/
def Obligations.IllegalConfigurationIsRefused : Prop :=
  ∀ (i : Instr) (s : State), s.params.fullDgramSize = 0 ∨ s.params.maxPayload = 0 →
    exec i s = .refused .illegalConfiguration

/-- Reading a register that holds no value, or a byte that is not there, is a fault by name (R37, R55), which no script reaches:
every row that reads `i`, `nal_start`, `nal_end`, `k`, `hdr`, `F`, `NRI`, `TYPE`, `seq` or `ssrc`, and a flush that finds a unit
while `seq` or `ssrc` holds no value; the header read of CLASSIFY, and the chunk read of PACKETIZE and the packet rows (R70, R158)
where the first chunk to be read ends past `L`. An empty range is no unit (R125). The faults are the model's form of it
(notes/assumptions/2.md). They do not depend on the session flag (notes/assumptions/20.md). That PKT.FUA.M and PKT.FUA.E read `k`
and take the chunk after it is the model's reading (notes/assumptions/13.md). -/
def Obligations.UnreadableOperandsFault : Prop :=
  ∀ s : State, s.Configured →
    (s.dp.i = none → ∀ i ∈ [Instr.sc3, .sc4, .bnd0, .bnd1], exec i s = .fault (.noValue .i)) ∧
    (s.dp.nalStart = none →
      ∀ i ∈ [Instr.classify, .packetize, .pktSingle, .pktFuaS, .pktFuaM, .pktFuaE], exec i s = .fault (.noValue .nalStart)) ∧
    (∀ a, s.dp.nalStart = some a →
      (Memory.read s.au a = none → exec .classify s = .fault (.offsetOutsideStore .au a)) ∧
      ∀ i ∈ [Instr.packetize, .pktSingle, .pktFuaS, .pktFuaM, .pktFuaE],
        (s.dp.nalEnd = none → exec i s = .fault (.noValue .nalEnd)) ∧
        (∀ b, s.dp.nalEnd = some b → b ≤ a → exec i s = .fault (.notAUnit a b))) ∧
    (∀ a b, s.dp.nalStart = some a → s.dp.nalEnd = some b → a < b →
      (s.dp.k = none → ∀ i ∈ [Instr.pktFuaM, .pktFuaE], exec i s = .fault (.noValue .k)) ∧
      (∀ i, s.SelectsRow (unitCount s.params a b) i →
        (unitCount s.params a b = 1 → s.dp.hdr = none → exec i s = .fault (.noValue .hdr)) ∧
        (2 ≤ unitCount s.params a b →
          (s.dp.f = none → exec i s = .fault (.noValue .f)) ∧
          (∀ f, s.dp.f = some f → s.dp.nri = none → exec i s = .fault (.noValue .nri)) ∧
          (∀ f nri, s.dp.f = some f → s.dp.nri = some nri → s.dp.type = none → exec i s = .fault (.noValue .type))))) ∧
    (∀ a b h, Memory.wf s.au = true → s.HoldsUnit a b h → ∀ i, s.SelectsRow (unitCount s.params a b) i →
      (s.seq = none → exec i s = .fault (.noValue .seq)) ∧
      (∀ q, s.seq = some q → s.ssrc = none → exec i s = .fault (.noValue .ssrc))) ∧
    (∀ a b h, Memory.wf s.au = true → s.dp.nalStart = some a → s.dp.nalEnd = some b → a < b → HeaderLatched h s.dp →
      let n := unitCount s.params a b
      let lo := chunkLo s.params.maxPayload a
      let hi := chunkHi s.params.maxPayload a b
      (n = 1 → a + 1 < b → s.auLen < b →
        ∀ i ∈ [Instr.packetize, .pktSingle], exec i s = .fault (.offsetOutsideStore .au (a + 1))) ∧
      (2 ≤ n → s.auLen < hi 0 →
        ∀ i ∈ [Instr.packetize, .pktFuaS], exec i s = .fault (.offsetOutsideStore .au (lo 0))) ∧
      (∀ k, s.dp.k = some k → s.auLen < hi (k + 1) →
        (k + 2 < n → exec .pktFuaM s = .fault (.offsetOutsideStore .au (lo (k + 1)))) ∧
        (k + 2 = n → exec .pktFuaE s = .fault (.offsetOutsideStore .au (lo (k + 1))))) ∧
      (∀ q x k, s.Numbered q x → 2 ≤ n → k < n → (∀ j, j < k → hi j ≤ s.auLen) → s.auLen < hi k →
        exec .packetize s = .fault (.offsetOutsideStore .au (lo k)))) ∧
    (∀ payload : List Byte, s.StoresWf → payload.length ≠ s.params.fullDgramSize →
      above payload.length s.params.dgramMax = false → above (s.carryLen + payload.length) s.params.bufCap = false →
      scanAll (Memory.bytes s.carry ++ payload) ≠ [] →
      (s.seq = none → exec (.frFlush payload) s = .fault (.noValue .seq)) ∧
      (∀ q, s.seq = some q → s.ssrc = none → exec (.frFlush payload) s = .fault (.noValue .ssrc)))
end

