-- ==== Sys2Proof/Laws/Decode.lean ====
section
/-! SUPPORT. Fields and bytes: what taking the fields out of an assembled byte gives back. -/

namespace Sys2Proof

@[simp] theorem nalF_nalHeaderByte (f : BitVec 1) (nri : BitVec 2) (type : BitVec 5) :
    nalF (nalHeaderByte f nri type) = f := by
  revert f nri type; decide

@[simp] theorem nalNri_nalHeaderByte (f : BitVec 1) (nri : BitVec 2) (type : BitVec 5) :
    nalNri (nalHeaderByte f nri type) = nri := by
  revert f nri type; decide

@[simp] theorem nalType_nalHeaderByte (f : BitVec 1) (nri : BitVec 2) (type : BitVec 5) :
    nalType (nalHeaderByte f nri type) = type := by
  revert f nri type; decide

/-- The header byte is nothing but its three fields (R79). -/
@[simp] theorem nalHeaderByte_fields (h : Byte) : nalHeaderByte (nalF h) (nalNri h) (nalType h) = h := by
  revert h; decide

@[simp] theorem nalF_fuIndicator (f : BitVec 1) (nri : BitVec 2) : nalF (fuIndicator f nri) = f := by
  revert f nri; decide

@[simp] theorem nalNri_fuIndicator (f : BitVec 1) (nri : BitVec 2) : nalNri (fuIndicator f nri) = nri := by
  revert f nri; decide

@[simp] theorem nalType_fuIndicator (f : BitVec 1) (nri : BitVec 2) : nalType (fuIndicator f nri) = 28#5 := by
  revert f nri; decide

@[simp] theorem nalType_fuHeader (s e : Bool) (type : BitVec 5) : nalType (fuHeader s e type) = type := by
  revert s e type; decide

theorem decodeFuHeader_start (type : BitVec 5) : decodeFuHeader (fuHeader true false type) = .ok (.fuaS, type) := by
  revert type; decide

theorem decodeFuHeader_middle (type : BitVec 5) : decodeFuHeader (fuHeader false false type) = .ok (.fuaM, type) := by
  revert type; decide

theorem decodeFuHeader_end (type : BitVec 5) : decodeFuHeader (fuHeader false true type) = .ok (.fuaE, type) := by
  revert type; decide

/-- RTP byte 1 gives back its two fields (R82). -/
theorem rtpByte1_fields (m : Bool) (pt : BitVec 7) :
    (bit8 m <<< 7 ||| pt.setWidth 8).getLsbD 7 = m ∧ (bit8 m <<< 7 ||| pt.setWidth 8).extractLsb' 0 7 = pt := by
  revert m pt; decide

theorem be16_join (v : BitVec 16) : v.extractLsb' 8 8 ++ v.extractLsb' 0 8 = v := by
  ext i hi
  simp only [BitVec.getElem_append, BitVec.getElem_extractLsb']
  split
  · next h => rw [Nat.zero_add, BitVec.getLsbD_eq_getElem hi]
  · next h => rw [show 8 + (i - 8) = i by omega, BitVec.getLsbD_eq_getElem hi]

theorem be32_join (v : BitVec 32) :
    v.extractLsb' 24 8 ++ v.extractLsb' 16 8 ++ v.extractLsb' 8 8 ++ v.extractLsb' 0 8 = v := by
  ext i hi
  simp only [BitVec.getElem_append, BitVec.getElem_extractLsb']
  split
  · rw [Nat.zero_add, BitVec.getLsbD_eq_getElem hi]
  · split
    · rw [show 8 + (i - 8) = i by omega, BitVec.getLsbD_eq_getElem hi]
    · split
      · rw [show 16 + (i - 8 - 8) = i by omega, BitVec.getLsbD_eq_getElem hi]
      · rw [show 24 + (i - 8 - 8 - 8) = i by omega, BitVec.getLsbD_eq_getElem hi]

/-- Reading an RTP header back gives its fields and what follows it (R82). -/
theorem decodeRtp_rtpHeaderBytes (m : Bool) (pt : BitVec 7) (seq : BitVec 16) (ts ssrc : BitVec 32) (rest : List Byte) :
    decodeRtp (rtpHeaderBytes m pt seq ts ssrc ++ rest) =
      .ok ({ m := m, pt := pt, seq := seq, ts := ts, ssrc := ssrc }, rest) := by
  have h := rtpByte1_fields m pt
  simp only [rtpHeaderBytes, be16, be32, List.cons_append, List.nil_append, decodeRtp, if_true, be16_join, be32_join,
    h.1, h.2]

@[simp] theorem rtpHeaderBytes_length (m : Bool) (pt : BitVec 7) (seq : BitVec 16) (ts ssrc : BitVec 32) :
    (rtpHeaderBytes m pt seq ts ssrc).length = 12 := rfl

/-- Everything a successful FU header decode says about its byte (R84). -/
theorem decodeFuHeader_ok {b : Byte} {k : PacketKind} {t : BitVec 5} (h : decodeFuHeader b = .ok (k,t)) :
    (k = .fuaS ∧ b = fuHeader true false t) ∨ (k = .fuaM ∧ b = fuHeader false false t) ∨
      (k = .fuaE ∧ b = fuHeader false true t) := by
  unfold decodeFuHeader at h
  split at h
  · next hb =>
    simp only [Except.ok.injEq, Prod.mk.injEq] at h
    obtain ⟨rfl, rfl⟩ := h
    refine .inl ⟨rfl, ?_⟩
    revert hb
    revert b
    decide
  split at h
  · next hb =>
    simp only [Except.ok.injEq, Prod.mk.injEq] at h
    obtain ⟨rfl, rfl⟩ := h
    refine .inr <| .inl ⟨rfl, ?_⟩
    revert hb
    clear * -
    revert b
    decide
  split at h
  · next hb =>
    simp only [Except.ok.injEq, Prod.mk.injEq] at h
    obtain ⟨rfl, rfl⟩ := h
    refine .inr <| .inr ⟨rfl, ?_⟩
    revert hb
    clear * -
    revert b
    decide
  · simp at h

theorem extract_append_high {n m : Nat} (x : BitVec n) (y : BitVec m) (k w : Nat) :
    (x ++ y).extractLsb' (m + k) w = x.extractLsb' k w := by
  ext i hi
  simp only [BitVec.getElem_extractLsb', BitVec.getLsbD_append]
  rw [if_neg (by omega), show m + k + i - m = k + i by omega]

theorem extract_append_low {n m : Nat} (x : BitVec n) (y : BitVec m) (w : Nat) (h : w ≤ m) :
    (x ++ y).extractLsb' 0 w = y.extractLsb' 0 w := by
  ext i hi
  simp only [BitVec.getElem_extractLsb', BitVec.getLsbD_append]
  rw [if_pos (by omega)]

theorem extract_byte (x : Byte) : x.extractLsb' 0 8 = x := by ext i hi; simp

/-- `be16` gives back the two bytes of a number (R10). -/
theorem be16_append (a b : Byte) : be16 (a ++ b) = [a, b] := by
  rw [be16, extract_append_low a b 8 (Nat.le_refl _), extract_append_high a b 0 8, extract_byte, extract_byte]

/-- `be32` gives back the four bytes of a number (R10). -/
theorem be32_append (a b c d : Byte) : be32 (a ++ b ++ c ++ d) = [a, b, c, d] := by
  rw [be32, extract_append_low (a ++ b ++ c) d 8 (Nat.le_refl _), extract_append_high (a ++ b ++ c) d 16 8,
    extract_append_high (a ++ b ++ c) d 8 8, extract_append_high (a ++ b ++ c) d 0 8,
    extract_append_low (a ++ b) c 8 (Nat.le_refl _), extract_append_high (a ++ b) c 8 8, extract_append_high (a ++ b) c 0 8,
    extract_append_low a b 8 (Nat.le_refl _), extract_append_high a b 0 8, extract_byte, extract_byte, extract_byte,
    extract_byte]

/-- RTP byte 1 is nothing but its two fields (R82). -/
theorem rtpByte1_join (b : Byte) : bit8 (b.getLsbD 7) <<< 7 ||| (b.extractLsb' 0 7).setWidth 8 = b := by
  revert b; decide

/-- Everything a successful RTP header decode says about the bytes (R82). -/
theorem decodeRtp_ok {bs : List Byte} {h : RtpFields} {rest : List Byte} (e : decodeRtp bs = .ok (h, rest)) :
    rtpHeaderBytes h.m h.pt h.seq h.ts h.ssrc ++ rest = bs := by
  unfold decodeRtp at e
  split at e
  · split at e
    · simp only [Except.ok.injEq, Prod.mk.injEq] at e
      obtain ⟨rfl, rfl⟩ := e
      rename_i hb
      simp only [rtpHeaderBytes, rtpByte1_join, be16_append, be32_append, hb]
      rfl
    · simp at e
  · simp at e

/-- A byte whose bits 4:0 are 28 is the FU indicator of its fields (R83). -/
theorem fuIndicator_fields (b : Byte) (h : nalType b = 28#5) : fuIndicator (nalF b) (nalNri b) = b := by
  revert h; revert b; decide

/-- The length of a packet (R87, R88). -/
theorem encodePacket_length (x : PacketFields) :
    (encodePacket x).length = (if x.kind = .single then 13 else 14) + x.chunk.length := by
  cases hk : x.kind <;> simp [encodePacket, leadBytes, hk] <;> omega

end Sys2Proof
end

