-- ==== Sys2Proof/Laws/Memory.lean ====
section
/-! SUPPORT. Laws of the byte stores: the canonical form is kept by every write, and what a read gives after one. -/

namespace Sys2Proof.Machine

@[simp] theorem cellsFrom_length (off : Nat) (bs : List Byte) : (cellsFrom off bs).length = bs.length := by
  induction bs generalizing off with
  | nil => rfl
  | cons b bs ih => simp [cellsFrom, ih]

@[simp] theorem cellsFrom_snd (off : Nat) (bs : List Byte) : (cellsFrom off bs).map Prod.snd = bs := by
  induction bs generalizing off with
  | nil => rfl
  | cons b bs ih => simp [cellsFrom, ih]

theorem cellsFrom_fst (off : Nat) (bs : List Byte) : (cellsFrom off bs).map Prod.fst = List.range' off bs.length := by
  induction bs generalizing off with
  | nil => rfl
  | cons b bs ih => simp [cellsFrom, ih, List.range'_succ]

theorem cellsFrom_append (off : Nat) (bs cs : List Byte) :
    cellsFrom off (bs ++ cs) = cellsFrom off bs ++ cellsFrom (off + bs.length) cs := by
  induction bs generalizing off with
  | nil => rfl
  | cons b bs ih => simp [cellsFrom, ih, Nat.add_assoc, Nat.add_comm 1]

theorem cellsFrom_of_fst (off : Nat) (m : Memory) (h : m.map Prod.fst = List.range' off m.length) :
    m = cellsFrom off (m.map Prod.snd) := by
  induction m generalizing off with
  | nil => rfl
  | cons c m ih =>
    simp only [List.map_cons, List.length_cons, List.range'_succ, List.cons.injEq] at h
    simp only [List.map_cons, cellsFrom, List.cons.injEq]
    exact ⟨by rw [← h.1], ih _ h.2⟩

/-- The canonical form says that a store is exactly its bytes. -/
theorem Memory.wf_iff (m : Memory) : Memory.wf m = true ↔ m = Memory.ofBytes (Memory.bytes m) := by
  simp only [Memory.wf, beq_iff_eq, Memory.ofBytes, Memory.bytes]
  constructor
  · intro h
    exact cellsFrom_of_fst 0 m (by rw [h, List.range_eq_range'])
  · intro h
    rw [h, cellsFrom_fst, List.range_eq_range']
    simp

@[simp] theorem Memory.bytes_ofBytes (bs : List Byte) : Memory.bytes (Memory.ofBytes bs) = bs := by
  simp [Memory.bytes, Memory.ofBytes]

@[simp] theorem Memory.ofBytes_length (bs : List Byte) : (Memory.ofBytes bs).length = bs.length := by
  simp [Memory.ofBytes]

@[simp] theorem Memory.bytes_length (m : Memory) : (Memory.bytes m).length = m.length := by
  simp [Memory.bytes]

@[simp] theorem Memory.bytes_append (m : Memory) (v : List Byte) :
    Memory.bytes (Memory.append m v) = Memory.bytes m ++ v := by
  simp [Memory.bytes, Memory.append]

@[simp] theorem Memory.append_length (m : Memory) (v : List Byte) :
    (Memory.append m v).length = m.length + v.length := by
  simp [Memory.append]

theorem Memory.wf_nil : Memory.wf [] = true := rfl

/-- A whole-store write leaves the canonical form. -/
theorem Memory.wf_ofBytes (bs : List Byte) : Memory.wf (Memory.ofBytes bs) = true := by
  simp [Memory.wf_iff]

/-- An append keeps the canonical form. -/
theorem Memory.wf_append (m : Memory) (v : List Byte) (h : Memory.wf m = true) :
    Memory.wf (Memory.append m v) = true := by
  rw [Memory.wf_iff, Memory.bytes_append, Memory.append]
  rw [Memory.wf_iff] at h
  rw [Memory.ofBytes, cellsFrom_append, Memory.bytes_length, Nat.zero_add, ← Memory.ofBytes, ← h]

theorem read_cellsFrom (off a : Nat) (bs : List Byte) :
    Memory.read (cellsFrom off bs) a = if a < off then none else bs[a - off]? := by
  induction bs generalizing off with
  | nil => simp [cellsFrom, Memory.read]
  | cons b bs ih =>
    simp only [cellsFrom, Memory.read, ih]
    split
    · next h => simp [h]
    · next h =>
      split
      · next h1 => simp [show a < off by omega]
      · next h1 =>
        simp only [show ¬ a < off by omega, if_false]
        rw [show a - off = (a - (off + 1)) + 1 by omega]
        rfl

/-- The byte at an offset of a canonical store; none outside `0 .. length - 1` (R50). -/
theorem Memory.read_of_wf (m : Memory) (h : Memory.wf m = true) (a : Nat) :
    Memory.read m a = (Memory.bytes m)[a]? := by
  rw [Memory.wf_iff] at h
  conv_lhs => rw [h]
  simp [Memory.ofBytes, read_cellsFrom]

theorem readRange_cellsFrom (off a n : Nat) (bs : List Byte) (h : off ≤ a) :
    Memory.readRange (cellsFrom off bs) a n =
      if n = 0 ∨ a - off + n ≤ bs.length then some ((bs.drop (a - off)).take n) else none := by
  induction bs generalizing off a n with
  | nil =>
    cases n with
    | zero => simp [cellsFrom, Memory.readRange]
    | succ n => simp [cellsFrom, Memory.readRange]
  | cons b bs ih =>
    cases n with
    | zero => simp [cellsFrom, Memory.readRange]
    | succ n =>
      simp only [cellsFrom, Memory.readRange]
      split
      · next hb =>
        subst hb
        rw [ih (off + 1) (off + 1) n (Nat.le_refl _)]
        simp only [Nat.sub_self, Nat.zero_add, List.drop_zero, List.length_cons, Nat.add_le_add_iff_right,
          List.take_succ_cons, Nat.succ_ne_zero, false_or]
        by_cases hn : n = 0
        · subst hn; simp
        · by_cases hl : n ≤ bs.length <;> simp [hn, hl]
      · next hb =>
        rw [ih (off + 1) a (n + 1) (by omega)]
        rw [show a - off = (a - (off + 1)) + 1 by omega]
        simp only [List.length_cons, List.drop_succ_cons]
        congr 1
        simp only [eq_iff_iff]
        omega

/-- A read of `n` bytes gives `n` bytes (R11). -/
theorem Memory.readRange_length {m : Memory} {off n : Nat} {bs : List Byte} (h : Memory.readRange m off n = some bs) :
    bs.length = n := by
  induction m generalizing off n bs with
  | nil => cases n <;> simp_all [Memory.readRange]
  | cons c m ih =>
    cases n with
    | zero => simp_all [Memory.readRange]
    | succ n =>
      simp only [Memory.readRange] at h
      split at h
      · obtain ⟨rest, hr, rfl⟩ := Option.map_eq_some_iff.1 h
        simp [ih hr]
      · exact ih h

/-- Reading a range that lies inside a canonical store (R50, R55). -/
theorem Memory.readRange_of_wf (m : Memory) (h : Memory.wf m = true) (off n : Nat) (hn : off + n ≤ m.length) :
    Memory.readRange m off n = some (((Memory.bytes m).drop off).take n) := by
  rw [Memory.wf_iff] at h
  have h2 := readRange_cellsFrom 0 off n (Memory.bytes m) (Nat.zero_le _)
  rw [← Memory.ofBytes, ← h] at h2
  rw [h2]
  simp [hn]

/-- Reading a range that ends past a canonical store: one of its offsets does not exist (R50, R55). -/
theorem Memory.readRange_past_end (m : Memory) (h : Memory.wf m = true) (off n : Nat) (hn : 0 < n) (ho : m.length < off + n) :
    Memory.readRange m off n = none := by
  rw [Memory.wf_iff] at h
  have h2 := readRange_cellsFrom 0 off n (Memory.bytes m) (Nat.zero_le _)
  rw [← Memory.ofBytes, ← h] at h2
  rw [h2, if_neg (by rw [Memory.bytes_length]; omega)]

/-- Reading a whole canonical store gives its bytes. -/
theorem Memory.readRange_all (m : Memory) (h : Memory.wf m = true) :
    Memory.readRange m 0 m.length = some (Memory.bytes m) := by
  rw [Memory.readRange_of_wf m h 0 m.length (by omega)]
  simp [List.take_of_length_le]

end Sys2Proof.Machine
end

