-- ==== Sys2Proof/Laws/State.lean ====
section
/-! SUPPORT. The fields of State after each named update. -/

namespace Sys2Proof.Machine

/-! ### `raise` -/

@[simp] theorem raise_params (c : Condition) (s : State) : (raise c s).params = s.params := by cases c <;> rfl
@[simp] theorem raise_sessionActive (c : Condition) (s : State) : (raise c s).sessionActive = s.sessionActive := by cases c <;> rfl
@[simp] theorem raise_seq (c : Condition) (s : State) : (raise c s).seq = s.seq := by cases c <;> rfl
@[simp] theorem raise_ssrc (c : Condition) (s : State) : (raise c s).ssrc = s.ssrc := by cases c <;> rfl
@[simp] theorem raise_carry (c : Condition) (s : State) : (raise c s).carry = s.carry := by cases c <;> rfl
@[simp] theorem raise_au (c : Condition) (s : State) : (raise c s).au = s.au := by cases c <;> rfl
@[simp] theorem raise_dq (c : Condition) (s : State) : (raise c s).dq = s.dq := by cases c <;> rfl
@[simp] theorem raise_dqPeak (c : Condition) (s : State) : (raise c s).dqPeak = s.dqPeak := by cases c <;> rfl
@[simp] theorem raise_dp (c : Condition) (s : State) : (raise c s).dp = s.dp := by cases c <;> rfl
@[simp] theorem raise_sent (c : Condition) (s : State) : (raise c s).sent = s.sent := by cases c <;> rfl
@[simp] theorem raise_timeHeld (c : Condition) (s : State) : (raise c s).timeHeld = s.timeHeld := by cases c <;> rfl
@[simp] theorem raise_draws (c : Condition) (s : State) : (raise c s).draws = s.draws := by cases c <;> rfl
@[simp] theorem raise_script (c : Condition) (s : State) : (raise c s).script = s.script := by cases c <;> rfl
@[simp] theorem raise_emptyNal_errBufOvf (s : State) : (raise .emptyNal s).errBufOvf = s.errBufOvf := rfl
@[simp] theorem raise_emptyNal_errDqOvf (s : State) : (raise .emptyNal s).errDqOvf = s.errDqOvf := rfl
@[simp] theorem raise_emptyNal_nEmptyNal (s : State) : (raise .emptyNal s).nEmptyNal = s.nEmptyNal + 1#32 := rfl
@[simp] theorem raise_dqOvf_errBufOvf (s : State) : (raise .dqOvf s).errBufOvf = s.errBufOvf := rfl
@[simp] theorem raise_dqOvf_errDqOvf (s : State) : (raise .dqOvf s).errDqOvf = true := rfl
@[simp] theorem raise_dqOvf_nEmptyNal (s : State) : (raise .dqOvf s).nEmptyNal = s.nEmptyNal := rfl
@[simp] theorem raise_bufOvf_errBufOvf (s : State) : (raise .bufOvf s).errBufOvf = true := rfl
@[simp] theorem raise_bufOvf_errDqOvf (s : State) : (raise .bufOvf s).errDqOvf = s.errDqOvf := rfl
@[simp] theorem raise_bufOvf_nEmptyNal (s : State) : (raise .bufOvf s).nEmptyNal = s.nEmptyNal := rfl

/-! ### `latchHeader` -/

@[simp] theorem latchHeader_params (h : Byte) (s : State) : (latchHeader h s).params = s.params := rfl
@[simp] theorem latchHeader_sessionActive (h : Byte) (s : State) : (latchHeader h s).sessionActive = s.sessionActive := rfl
@[simp] theorem latchHeader_seq (h : Byte) (s : State) : (latchHeader h s).seq = s.seq := rfl
@[simp] theorem latchHeader_ssrc (h : Byte) (s : State) : (latchHeader h s).ssrc = s.ssrc := rfl
@[simp] theorem latchHeader_carry (h : Byte) (s : State) : (latchHeader h s).carry = s.carry := rfl
@[simp] theorem latchHeader_au (h : Byte) (s : State) : (latchHeader h s).au = s.au := rfl
@[simp] theorem latchHeader_dq (h : Byte) (s : State) : (latchHeader h s).dq = s.dq := rfl
@[simp] theorem latchHeader_dqPeak (h : Byte) (s : State) : (latchHeader h s).dqPeak = s.dqPeak := rfl
@[simp] theorem latchHeader_nEmptyNal (h : Byte) (s : State) : (latchHeader h s).nEmptyNal = s.nEmptyNal := rfl
@[simp] theorem latchHeader_errBufOvf (h : Byte) (s : State) : (latchHeader h s).errBufOvf = s.errBufOvf := rfl
@[simp] theorem latchHeader_errDqOvf (h : Byte) (s : State) : (latchHeader h s).errDqOvf = s.errDqOvf := rfl
@[simp] theorem latchHeader_sent (h : Byte) (s : State) : (latchHeader h s).sent = s.sent := rfl
@[simp] theorem latchHeader_timeHeld (h : Byte) (s : State) : (latchHeader h s).timeHeld = s.timeHeld := rfl
@[simp] theorem latchHeader_draws (h : Byte) (s : State) : (latchHeader h s).draws = s.draws := rfl
@[simp] theorem latchHeader_script (h : Byte) (s : State) : (latchHeader h s).script = s.script := rfl
@[simp] theorem latchHeader_dp_hdr (h : Byte) (s : State) : (latchHeader h s).dp.hdr = some h := rfl
@[simp] theorem latchHeader_dp_f (h : Byte) (s : State) : (latchHeader h s).dp.f = some (nalF h) := rfl
@[simp] theorem latchHeader_dp_nri (h : Byte) (s : State) : (latchHeader h s).dp.nri = some (nalNri h) := rfl
@[simp] theorem latchHeader_dp_type (h : Byte) (s : State) : (latchHeader h s).dp.type = some (nalType h) := rfl
@[simp] theorem latchHeader_dp_isIdr (h : Byte) (s : State) : (latchHeader h s).dp.isIdr = some (isIdr (nalType h)) := rfl
@[simp] theorem latchHeader_dp_nalStart (h : Byte) (s : State) : (latchHeader h s).dp.nalStart = s.dp.nalStart := rfl
@[simp] theorem latchHeader_dp_nalEnd (h : Byte) (s : State) : (latchHeader h s).dp.nalEnd = s.dp.nalEnd := rfl
@[simp] theorem latchHeader_dp_p (h : Byte) (s : State) : (latchHeader h s).dp.p = s.dp.p := rfl
@[simp] theorem latchHeader_dp_scanDone (h : Byte) (s : State) : (latchHeader h s).dp.scanDone = s.dp.scanDone := rfl

/-! ### `setChunk` -/

@[simp] theorem setChunk_params (a b k : Nat) (s : State) : (setChunk a b k s).params = s.params := rfl
@[simp] theorem setChunk_sessionActive (a b k : Nat) (s : State) : (setChunk a b k s).sessionActive = s.sessionActive := rfl
@[simp] theorem setChunk_seq (a b k : Nat) (s : State) : (setChunk a b k s).seq = s.seq := rfl
@[simp] theorem setChunk_ssrc (a b k : Nat) (s : State) : (setChunk a b k s).ssrc = s.ssrc := rfl
@[simp] theorem setChunk_carry (a b k : Nat) (s : State) : (setChunk a b k s).carry = s.carry := rfl
@[simp] theorem setChunk_au (a b k : Nat) (s : State) : (setChunk a b k s).au = s.au := rfl
@[simp] theorem setChunk_dq (a b k : Nat) (s : State) : (setChunk a b k s).dq = s.dq := rfl
@[simp] theorem setChunk_dqPeak (a b k : Nat) (s : State) : (setChunk a b k s).dqPeak = s.dqPeak := rfl
@[simp] theorem setChunk_nEmptyNal (a b k : Nat) (s : State) : (setChunk a b k s).nEmptyNal = s.nEmptyNal := rfl
@[simp] theorem setChunk_errBufOvf (a b k : Nat) (s : State) : (setChunk a b k s).errBufOvf = s.errBufOvf := rfl
@[simp] theorem setChunk_errDqOvf (a b k : Nat) (s : State) : (setChunk a b k s).errDqOvf = s.errDqOvf := rfl
@[simp] theorem setChunk_sent (a b k : Nat) (s : State) : (setChunk a b k s).sent = s.sent := rfl
@[simp] theorem setChunk_timeHeld (a b k : Nat) (s : State) : (setChunk a b k s).timeHeld = s.timeHeld := rfl
@[simp] theorem setChunk_draws (a b k : Nat) (s : State) : (setChunk a b k s).draws = s.draws := rfl
@[simp] theorem setChunk_script (a b k : Nat) (s : State) : (setChunk a b k s).script = s.script := rfl
@[simp] theorem setChunk_dp_hdr (a b k : Nat) (s : State) : (setChunk a b k s).dp.hdr = s.dp.hdr := rfl
@[simp] theorem setChunk_dp_f (a b k : Nat) (s : State) : (setChunk a b k s).dp.f = s.dp.f := rfl
@[simp] theorem setChunk_dp_nri (a b k : Nat) (s : State) : (setChunk a b k s).dp.nri = s.dp.nri := rfl
@[simp] theorem setChunk_dp_type (a b k : Nat) (s : State) : (setChunk a b k s).dp.type = s.dp.type := rfl
@[simp] theorem setChunk_dp_isIdr (a b k : Nat) (s : State) : (setChunk a b k s).dp.isIdr = s.dp.isIdr := rfl
@[simp] theorem setChunk_dp_nalStart (a b k : Nat) (s : State) : (setChunk a b k s).dp.nalStart = s.dp.nalStart := rfl
@[simp] theorem setChunk_dp_nalEnd (a b k : Nat) (s : State) : (setChunk a b k s).dp.nalEnd = s.dp.nalEnd := rfl
@[simp] theorem setChunk_dp_p (a b k : Nat) (s : State) : (setChunk a b k s).dp.p = s.dp.p := rfl
@[simp] theorem setChunk_dp_scanDone (a b k : Nat) (s : State) : (setChunk a b k s).dp.scanDone = s.dp.scanDone := rfl

/-! ### `scanNext` -/

@[simp] theorem scanNext_params (s : State) : (scanNext s).params = s.params := by unfold scanNext; dsimp only; split <;> rfl
@[simp] theorem scanNext_sessionActive (s : State) : (scanNext s).sessionActive = s.sessionActive := by unfold scanNext; dsimp only; split <;> rfl
@[simp] theorem scanNext_seq (s : State) : (scanNext s).seq = s.seq := by unfold scanNext; dsimp only; split <;> rfl
@[simp] theorem scanNext_ssrc (s : State) : (scanNext s).ssrc = s.ssrc := by unfold scanNext; dsimp only; split <;> rfl
@[simp] theorem scanNext_carry (s : State) : (scanNext s).carry = s.carry := by unfold scanNext; dsimp only; split <;> rfl
@[simp] theorem scanNext_au (s : State) : (scanNext s).au = s.au := by unfold scanNext; dsimp only; split <;> rfl
@[simp] theorem scanNext_dq (s : State) : (scanNext s).dq = s.dq := by unfold scanNext; dsimp only; split <;> rfl
@[simp] theorem scanNext_dqPeak (s : State) : (scanNext s).dqPeak = s.dqPeak := by unfold scanNext; dsimp only; split <;> rfl
@[simp] theorem scanNext_nEmptyNal (s : State) : (scanNext s).nEmptyNal = s.nEmptyNal := by unfold scanNext; dsimp only; split <;> rfl
@[simp] theorem scanNext_errBufOvf (s : State) : (scanNext s).errBufOvf = s.errBufOvf := by unfold scanNext; dsimp only; split <;> rfl
@[simp] theorem scanNext_errDqOvf (s : State) : (scanNext s).errDqOvf = s.errDqOvf := by unfold scanNext; dsimp only; split <;> rfl
@[simp] theorem scanNext_sent (s : State) : (scanNext s).sent = s.sent := by unfold scanNext; dsimp only; split <;> rfl
@[simp] theorem scanNext_timeHeld (s : State) : (scanNext s).timeHeld = s.timeHeld := by unfold scanNext; dsimp only; split <;> rfl
@[simp] theorem scanNext_draws (s : State) : (scanNext s).draws = s.draws := by unfold scanNext; dsimp only; split <;> rfl
@[simp] theorem scanNext_script (s : State) : (scanNext s).script = s.script := by unfold scanNext; dsimp only; split <;> rfl

/-! ### `enqueue` -/

@[simp] theorem enqueue_params (pkt : Packet) (s : State) : (enqueue pkt s).params = s.params := by unfold enqueue; split <;> rfl
@[simp] theorem enqueue_sessionActive (pkt : Packet) (s : State) : (enqueue pkt s).sessionActive = s.sessionActive := by unfold enqueue; split <;> rfl
@[simp] theorem enqueue_seq (pkt : Packet) (s : State) : (enqueue pkt s).seq = s.seq := by unfold enqueue; split <;> rfl
@[simp] theorem enqueue_ssrc (pkt : Packet) (s : State) : (enqueue pkt s).ssrc = s.ssrc := by unfold enqueue; split <;> rfl
@[simp] theorem enqueue_carry (pkt : Packet) (s : State) : (enqueue pkt s).carry = s.carry := by unfold enqueue; split <;> rfl
@[simp] theorem enqueue_au (pkt : Packet) (s : State) : (enqueue pkt s).au = s.au := by unfold enqueue; split <;> rfl
@[simp] theorem enqueue_nEmptyNal (pkt : Packet) (s : State) : (enqueue pkt s).nEmptyNal = s.nEmptyNal := by unfold enqueue; split <;> rfl
@[simp] theorem enqueue_errBufOvf (pkt : Packet) (s : State) : (enqueue pkt s).errBufOvf = s.errBufOvf := by unfold enqueue; split <;> rfl
@[simp] theorem enqueue_dp (pkt : Packet) (s : State) : (enqueue pkt s).dp = s.dp := by unfold enqueue; split <;> rfl
@[simp] theorem enqueue_sent (pkt : Packet) (s : State) : (enqueue pkt s).sent = s.sent := by unfold enqueue; split <;> rfl
@[simp] theorem enqueue_timeHeld (pkt : Packet) (s : State) : (enqueue pkt s).timeHeld = s.timeHeld := by unfold enqueue; split <;> rfl
@[simp] theorem enqueue_draws (pkt : Packet) (s : State) : (enqueue pkt s).draws = s.draws := by unfold enqueue; split <;> rfl
@[simp] theorem enqueue_script (pkt : Packet) (s : State) : (enqueue pkt s).script = s.script := by unfold enqueue; split <;> rfl

/-! ### `discardOverflow` -/

@[simp] theorem discardOverflow_params (s : State) : (discardOverflow s).params = s.params := rfl
@[simp] theorem discardOverflow_sessionActive (s : State) : (discardOverflow s).sessionActive = s.sessionActive := rfl
@[simp] theorem discardOverflow_seq (s : State) : (discardOverflow s).seq = s.seq := rfl
@[simp] theorem discardOverflow_ssrc (s : State) : (discardOverflow s).ssrc = s.ssrc := rfl
@[simp] theorem discardOverflow_carry (s : State) : (discardOverflow s).carry = [] := rfl
@[simp] theorem discardOverflow_au (s : State) : (discardOverflow s).au = s.au := rfl
@[simp] theorem discardOverflow_dq (s : State) : (discardOverflow s).dq = s.dq := rfl
@[simp] theorem discardOverflow_dqPeak (s : State) : (discardOverflow s).dqPeak = s.dqPeak := rfl
@[simp] theorem discardOverflow_nEmptyNal (s : State) : (discardOverflow s).nEmptyNal = s.nEmptyNal := rfl
@[simp] theorem discardOverflow_errBufOvf (s : State) : (discardOverflow s).errBufOvf = true := rfl
@[simp] theorem discardOverflow_errDqOvf (s : State) : (discardOverflow s).errDqOvf = s.errDqOvf := rfl
@[simp] theorem discardOverflow_dp (s : State) : (discardOverflow s).dp = s.dp := rfl
@[simp] theorem discardOverflow_sent (s : State) : (discardOverflow s).sent = s.sent := rfl
@[simp] theorem discardOverflow_timeHeld (s : State) : (discardOverflow s).timeHeld = s.timeHeld := rfl
@[simp] theorem discardOverflow_draws (s : State) : (discardOverflow s).draws = s.draws := rfl
@[simp] theorem discardOverflow_script (s : State) : (discardOverflow s).script = s.script := rfl

/-! ### `frAppend` -/

@[simp] theorem frAppend_params (payload : List Byte) (s : State) : (frAppend payload s).params = s.params := by unfold frAppend; split <;> rfl
@[simp] theorem frAppend_sessionActive (payload : List Byte) (s : State) : (frAppend payload s).sessionActive = s.sessionActive := by unfold frAppend; split <;> rfl
@[simp] theorem frAppend_seq (payload : List Byte) (s : State) : (frAppend payload s).seq = s.seq := by unfold frAppend; split <;> rfl
@[simp] theorem frAppend_ssrc (payload : List Byte) (s : State) : (frAppend payload s).ssrc = s.ssrc := by unfold frAppend; split <;> rfl
@[simp] theorem frAppend_au (payload : List Byte) (s : State) : (frAppend payload s).au = s.au := by unfold frAppend; split <;> rfl
@[simp] theorem frAppend_dq (payload : List Byte) (s : State) : (frAppend payload s).dq = s.dq := by unfold frAppend; split <;> rfl
@[simp] theorem frAppend_dqPeak (payload : List Byte) (s : State) : (frAppend payload s).dqPeak = s.dqPeak := by unfold frAppend; split <;> rfl
@[simp] theorem frAppend_nEmptyNal (payload : List Byte) (s : State) : (frAppend payload s).nEmptyNal = s.nEmptyNal := by unfold frAppend; split <;> rfl
@[simp] theorem frAppend_errDqOvf (payload : List Byte) (s : State) : (frAppend payload s).errDqOvf = s.errDqOvf := by unfold frAppend; split <;> rfl
@[simp] theorem frAppend_dp (payload : List Byte) (s : State) : (frAppend payload s).dp = s.dp := by unfold frAppend; split <;> rfl
@[simp] theorem frAppend_sent (payload : List Byte) (s : State) : (frAppend payload s).sent = s.sent := by unfold frAppend; split <;> rfl
@[simp] theorem frAppend_timeHeld (payload : List Byte) (s : State) : (frAppend payload s).timeHeld = s.timeHeld := by unfold frAppend; split <;> rfl
@[simp] theorem frAppend_draws (payload : List Byte) (s : State) : (frAppend payload s).draws = s.draws := by unfold frAppend; split <;> rfl
@[simp] theorem frAppend_script (payload : List Byte) (s : State) : (frAppend payload s).script = s.script := by unfold frAppend; split <;> rfl

/-! ### Session operations -/

@[simp] theorem resetBlock_params (s : State) : (resetBlock s).params = s.params := rfl
@[simp] theorem resetBlock_sessionActive (s : State) : (resetBlock s).sessionActive = false := rfl
@[simp] theorem resetBlock_seq (s : State) : (resetBlock s).seq = none := rfl
@[simp] theorem resetBlock_ssrc (s : State) : (resetBlock s).ssrc = none := rfl
@[simp] theorem resetBlock_carry (s : State) : (resetBlock s).carry = [] := rfl
@[simp] theorem resetBlock_au (s : State) : (resetBlock s).au = [] := rfl
@[simp] theorem resetBlock_dq (s : State) : (resetBlock s).dq = [] := rfl
@[simp] theorem resetBlock_dqPeak (s : State) : (resetBlock s).dqPeak = 0 := rfl
@[simp] theorem resetBlock_nEmptyNal (s : State) : (resetBlock s).nEmptyNal = 0#32 := rfl
@[simp] theorem resetBlock_errBufOvf (s : State) : (resetBlock s).errBufOvf = false := rfl
@[simp] theorem resetBlock_errDqOvf (s : State) : (resetBlock s).errDqOvf = false := rfl
@[simp] theorem resetBlock_dp (s : State) : (resetBlock s).dp = {} := rfl
@[simp] theorem resetBlock_sent (s : State) : (resetBlock s).sent = s.sent := rfl
@[simp] theorem resetBlock_timeHeld (s : State) : (resetBlock s).timeHeld = s.timeHeld := rfl
@[simp] theorem resetBlock_draws (s : State) : (resetBlock s).draws = s.draws := rfl
@[simp] theorem resetBlock_script (s : State) : (resetBlock s).script = s.script := rfl
@[simp] theorem beginSession_params (x : BitVec 32) (s : State) : (beginSession x s).params = s.params := rfl
@[simp] theorem beginSession_sessionActive (x : BitVec 32) (s : State) : (beginSession x s).sessionActive = true := rfl
@[simp] theorem beginSession_seq (x : BitVec 32) (s : State) : (beginSession x s).seq = some s.params.seqInit := rfl
@[simp] theorem beginSession_ssrc (x : BitVec 32) (s : State) : (beginSession x s).ssrc = some x := rfl
@[simp] theorem beginSession_carry (x : BitVec 32) (s : State) : (beginSession x s).carry = [] := rfl
@[simp] theorem beginSession_au (x : BitVec 32) (s : State) : (beginSession x s).au = [] := rfl
@[simp] theorem beginSession_dq (x : BitVec 32) (s : State) : (beginSession x s).dq = [] := rfl
@[simp] theorem beginSession_dqPeak (x : BitVec 32) (s : State) : (beginSession x s).dqPeak = 0 := rfl
@[simp] theorem beginSession_nEmptyNal (x : BitVec 32) (s : State) : (beginSession x s).nEmptyNal = 0#32 := rfl
@[simp] theorem beginSession_errBufOvf (x : BitVec 32) (s : State) : (beginSession x s).errBufOvf = s.errBufOvf := rfl
@[simp] theorem beginSession_errDqOvf (x : BitVec 32) (s : State) : (beginSession x s).errDqOvf = s.errDqOvf := rfl
@[simp] theorem beginSession_dp (x : BitVec 32) (s : State) : (beginSession x s).dp = {} := rfl
@[simp] theorem beginSession_sent (x : BitVec 32) (s : State) : (beginSession x s).sent = s.sent := rfl
@[simp] theorem beginSession_timeHeld (x : BitVec 32) (s : State) : (beginSession x s).timeHeld = s.timeHeld := rfl
@[simp] theorem beginSession_draws (x : BitVec 32) (s : State) : (beginSession x s).draws = s.draws := rfl
@[simp] theorem beginSession_script (x : BitVec 32) (s : State) : (beginSession x s).script = s.script := rfl
@[simp] theorem stopSession_params (s : State) : (stopSession s).params = s.params := by unfold stopSession; split <;> rfl
@[simp] theorem stopSession_dqPeak (s : State) : (stopSession s).dqPeak = s.dqPeak := by unfold stopSession; split <;> rfl
@[simp] theorem stopSession_nEmptyNal (s : State) : (stopSession s).nEmptyNal = s.nEmptyNal := by unfold stopSession; split <;> rfl
@[simp] theorem stopSession_errBufOvf (s : State) : (stopSession s).errBufOvf = s.errBufOvf := by unfold stopSession; split <;> rfl
@[simp] theorem stopSession_errDqOvf (s : State) : (stopSession s).errDqOvf = s.errDqOvf := by unfold stopSession; split <;> rfl
@[simp] theorem stopSession_sent (s : State) : (stopSession s).sent = s.sent := by unfold stopSession; split <;> rfl
@[simp] theorem stopSession_timeHeld (s : State) : (stopSession s).timeHeld = s.timeHeld := by unfold stopSession; split <;> rfl
@[simp] theorem stopSession_draws (s : State) : (stopSession s).draws = s.draws := by unfold stopSession; split <;> rfl
@[simp] theorem stopSession_script (s : State) : (stopSession s).script = s.script := by unfold stopSession; split <;> rfl
@[simp] theorem stopSession_sessionActive (s : State) : (stopSession s).sessionActive = false := by
  unfold stopSession; split <;> simp_all

end Sys2Proof.Machine
end

