-- ==== Sys2Proof/Laws/Packetizer.lean ====
section
/-! SUPPORT. What building packets does: one packet, one unit, and how such effects join. -/

namespace Sys2Proof.Machine

/-! ### Sequencing -/

@[simp] theorem andThen_next (s : State) (f : State → Result) : andThen (.next s) f = f s := rfl

@[simp] theorem andThen_fault (r : Fault) (f : State → Result) : andThen (.fault r) f = .fault r := rfl

@[simp] theorem andThen_refused (r : Refusal) (f : State → Result) : andThen (.refused r) f = .refused r := rfl

/-- What `andThen` can answer when it answers a next state. -/
theorem andThen_eq_next {o : Result} {f : State → Result} {t : State} :
    andThen o f = .next t ↔ ∃ s, o = .next s ∧ f s = .next t := by
  cases o <;> simp [andThen]

@[simp] theorem readReg_some {α : Type} (r : Reg) (a : α) (f : α → Result) : readReg r (some a) f = f a := rfl

@[simp] theorem readReg_none {α : Type} (r : Reg) (f : α → Result) : readReg r none f = .fault (.noValue r) := rfl

/-- What reading a register can answer when the answer is a next state. -/
theorem readReg_eq_next {α : Type} {r : Reg} {v : Option α} {f : α → Result} {t : State} :
    readReg r v f = .next t ↔ ∃ a, v = some a ∧ f a = .next t := by
  cases v <;> simp

theorem whenConfigured_of {s : State} (h : s.Configured) (o : Result) : whenConfigured s o = o := by
  simp [whenConfigured, h]

/-- What a configured meaning can answer when it answers a next state. -/
theorem whenConfigured_eq_next {s t : State} {o : Result} :
    whenConfigured s o = .next t ↔ s.Configured ∧ o = .next t := by
  unfold whenConfigured State.Configured
  split <;> simp_all

/-! ### Enqueueing -/

/-- Everything `Enqueue` can do (R170): the packet goes to the tail, or, in a full queue, is lost and the flag is set. -/
theorem enqueue_cases (pkt : Packet) (s : State) :
    (queueFull s = false ∧
      enqueue pkt s = { s with dq := s.dq ++ [pkt], dqPeak := max s.dqPeak (s.dqLevel + 1) }) ∨
    (queueFull s = true ∧ enqueue pkt s = { s with errDqOvf := true }) := by
  unfold enqueue
  cases h : queueFull s <;> simp [raise]

theorem enqueue_update (pkt : Packet) (s : State) (a : Option (BitVec 16)) (b : Nat) (c : BitVec 32) (d : Datapath) :
    enqueue pkt { s with seq := a, draws := b, nEmptyNal := c, dp := d } =
      { enqueue pkt s with seq := a, draws := b, nEmptyNal := c, dp := d } := by
  rcases enqueue_cases pkt s with ⟨hf, he⟩ | ⟨hf, he⟩ <;> rw [he] <;>
    show (if queueFull s = true then _ else _) = _ <;> rw [hf] <;> rfl

theorem enqueueAll_update (pkts : List Packet) (s : State) (a : Option (BitVec 16)) (b : Nat) (c : BitVec 32)
    (d : Datapath) :
    enqueueAll pkts { s with seq := a, draws := b, nEmptyNal := c, dp := d } =
      { enqueueAll pkts s with seq := a, draws := b, nEmptyNal := c, dp := d } := by
  induction pkts generalizing s with
  | nil => rfl
  | cons pkt pkts ih =>
    simp only [enqueueAll, List.foldl_cons] at *
    rw [enqueue_update, ih]

theorem enqueueAll_append (xs ys : List Packet) (s : State) :
    enqueueAll (xs ++ ys) s = enqueueAll ys (enqueueAll xs s) := by
  simp [enqueueAll]

@[simp] theorem enqueueAll_nil (s : State) : enqueueAll [] s = s := rfl

@[simp] theorem enqueueAll_cons (pkt : Packet) (pkts : List Packet) (s : State) :
    enqueueAll (pkt :: pkts) s = enqueueAll pkts (enqueue pkt s) := rfl

/-- A list of enqueues changes only the queue, its peak and its overflow flag. -/
theorem enqueueAll_frame (pkts : List Packet) (s : State) :
    ∃ q k e, enqueueAll pkts s = { s with dq := q, dqPeak := k, errDqOvf := e } := by
  induction pkts generalizing s with
  | nil => exact ⟨s.dq, s.dqPeak, s.errDqOvf, rfl⟩
  | cons pkt pkts ih =>
    obtain ⟨q, k, e, h⟩ := ih (enqueue pkt s)
    rw [enqueueAll_cons, h]
    rcases enqueue_cases pkt s with ⟨-, he⟩ | ⟨-, he⟩
    · exact ⟨q, k, e, by rw [he]⟩
    · exact ⟨q, k, e, by rw [he]⟩

@[simp] theorem enqueueAll_params (pkts : List Packet) (s : State) : (enqueueAll pkts s).params = s.params := by
  obtain ⟨q, k, e, h⟩ := enqueueAll_frame pkts s; rw [h]
@[simp] theorem enqueueAll_sessionActive (pkts : List Packet) (s : State) :
    (enqueueAll pkts s).sessionActive = s.sessionActive := by
  obtain ⟨q, k, e, h⟩ := enqueueAll_frame pkts s; rw [h]
@[simp] theorem enqueueAll_ssrc (pkts : List Packet) (s : State) : (enqueueAll pkts s).ssrc = s.ssrc := by
  obtain ⟨q, k, e, h⟩ := enqueueAll_frame pkts s; rw [h]
@[simp] theorem enqueueAll_carry (pkts : List Packet) (s : State) : (enqueueAll pkts s).carry = s.carry := by
  obtain ⟨q, k, e, h⟩ := enqueueAll_frame pkts s; rw [h]
@[simp] theorem enqueueAll_au (pkts : List Packet) (s : State) : (enqueueAll pkts s).au = s.au := by
  obtain ⟨q, k, e, h⟩ := enqueueAll_frame pkts s; rw [h]
@[simp] theorem enqueueAll_nEmptyNal (pkts : List Packet) (s : State) : (enqueueAll pkts s).nEmptyNal = s.nEmptyNal := by
  obtain ⟨q, k, e, h⟩ := enqueueAll_frame pkts s; rw [h]
@[simp] theorem enqueueAll_errBufOvf (pkts : List Packet) (s : State) : (enqueueAll pkts s).errBufOvf = s.errBufOvf := by
  obtain ⟨q, k, e, h⟩ := enqueueAll_frame pkts s; rw [h]
@[simp] theorem enqueueAll_sent (pkts : List Packet) (s : State) : (enqueueAll pkts s).sent = s.sent := by
  obtain ⟨q, k, e, h⟩ := enqueueAll_frame pkts s; rw [h]
@[simp] theorem enqueueAll_timeHeld (pkts : List Packet) (s : State) : (enqueueAll pkts s).timeHeld = s.timeHeld := by
  obtain ⟨q, k, e, h⟩ := enqueueAll_frame pkts s; rw [h]
@[simp] theorem enqueueAll_script (pkts : List Packet) (s : State) : (enqueueAll pkts s).script = s.script := by
  obtain ⟨q, k, e, h⟩ := enqueueAll_frame pkts s; rw [h]

/-! ### The effect of building packets -/

/-- Building some packets and then more is building all of them. -/
theorem afterPackets_afterPackets (s : State) (q : BitVec 16) (xs ys : List Packet) (e1 e2 : Nat) (d1 d2 : Datapath) :
    afterPackets (afterPackets s q xs e1 d1) (q + BitVec.ofNat 16 xs.length) ys e2 d2 =
      afterPackets s q (xs ++ ys) (e1 + e2) d2 := by
  have h := enqueueAll_update ys (enqueueAll xs s) (some (q + BitVec.ofNat 16 xs.length)) (s.draws + xs.length)
    (s.nEmptyNal + BitVec.ofNat 32 e1) d1
  simp only [afterPackets, enqueueAll_append, List.length_append]
  rw [h]
  simp [BitVec.ofNat_add, BitVec.add_assoc, Nat.add_assoc]

@[simp] theorem afterPackets_params (s : State) (q : BitVec 16) (xs : List Packet) (e : Nat) (d : Datapath) :
    (afterPackets s q xs e d).params = s.params := by simp [afterPackets]
@[simp] theorem afterPackets_sessionActive (s : State) (q : BitVec 16) (xs : List Packet) (e : Nat) (d : Datapath) :
    (afterPackets s q xs e d).sessionActive = s.sessionActive := by simp [afterPackets]
@[simp] theorem afterPackets_ssrc (s : State) (q : BitVec 16) (xs : List Packet) (e : Nat) (d : Datapath) :
    (afterPackets s q xs e d).ssrc = s.ssrc := by simp [afterPackets]
@[simp] theorem afterPackets_seq (s : State) (q : BitVec 16) (xs : List Packet) (e : Nat) (d : Datapath) :
    (afterPackets s q xs e d).seq = some (q + BitVec.ofNat 16 xs.length) := rfl
@[simp] theorem afterPackets_au (s : State) (q : BitVec 16) (xs : List Packet) (e : Nat) (d : Datapath) :
    (afterPackets s q xs e d).au = s.au := by simp [afterPackets]
@[simp] theorem afterPackets_dp (s : State) (q : BitVec 16) (xs : List Packet) (e : Nat) (d : Datapath) :
    (afterPackets s q xs e d).dp = d := rfl
@[simp] theorem afterPackets_timeHeld (s : State) (q : BitVec 16) (xs : List Packet) (e : Nat) (d : Datapath) :
    (afterPackets s q xs e d).timeHeld = s.timeHeld := by simp [afterPackets]
@[simp] theorem afterPackets_draws (s : State) (q : BitVec 16) (xs : List Packet) (e : Nat) (d : Datapath) :
    (afterPackets s q xs e d).draws = s.draws + xs.length := rfl

/-- Changing the datapath registers before building packets does not change what is built. -/
theorem afterPackets_dp_irrel (s : State) (d0 : Datapath) (q : BitVec 16) (xs : List Packet) (e : Nat) (d : Datapath) :
    afterPackets { s with dp := d0 } q xs e d = afterPackets s q xs e d := by
  have h := enqueueAll_update xs s s.seq s.draws s.nEmptyNal d0
  simp only [afterPackets]
  rw [show ({ s with dp := d0 } : State) = { s with seq := s.seq, draws := s.draws, nEmptyNal := s.nEmptyNal, dp := d0 }
    from rfl, h]

/-- One packet (R166, R170): everything `emit` does when `seq` and `ssrc` hold values. -/
theorem emit_eq (m : Bool) (lead chunk : List Byte) (s : State) (q : BitVec 16) (x : BitVec 32)
    (hq : s.seq = some q) (hx : s.ssrc = some x) :
    emit m lead chunk s =
      .next (afterPackets s q [rtpHeaderBytes m s.params.pt q (timeAt s 0) x ++ lead ++ chunk] 0
        { s.dp with m := some m, ts := some (timeAt s 0),
                    pkt := rtpHeaderBytes m s.params.pt q (timeAt s 0) x ++ lead ++ chunk }) := by
  cases s
  dsimp only at hq hx
  subst hq hx
  refine congrArg _ ((enqueue_update _ _ (some (q + 1#16)) _ _ _).trans ?_)
  simp [afterPackets, drawTime, timeAt, buildHeader]

/-- When `emit` answers at all, `seq` and `ssrc` held values. -/
theorem emit_cases (m : Bool) (lead chunk : List Byte) (s : State) :
    (∃ q x, s.seq = some q ∧ s.ssrc = some x) ∨ emit m lead chunk s = .fault (.noValue .seq) ∨
      emit m lead chunk s = .fault (.noValue .ssrc) := by
  cases hq : s.seq with
  | none => exact .inr (.inl (by simp [emit, hq]))
  | some q =>
    cases hx : s.ssrc with
    | none => exact .inr (.inr (by simp [emit, hq, hx]))
    | some x => exact .inl ⟨q, x, rfl, rfl⟩

/-! ### Chunks -/

/-- Every chunk of a unit lies inside the unit (R158). -/
theorem chunk_bounds {maxPayload a b k : Nat} (hm : 1 ≤ maxPayload) (hab : a < b)
    (hk : k < chunkCount maxPayload (bodyLen a b)) :
    chunkLo maxPayload a k ≤ chunkHi maxPayload a b k ∧ chunkHi maxPayload a b k ≤ b := by
  simp only [chunkCount, emptyBody, bodyLen, beq_iff_eq] at hk
  simp only [chunkLo, chunkHi]
  split at hk
  · next h0 =>
    have : k = 0 := by omega
    subst this
    omega
  · next h0 =>
    have h1 : k * maxPayload < b - a - 1 := by
      have h2 : k + 1 ≤ (b - a - 1 + maxPayload - 1) / maxPayload := hk
      rw [Nat.le_div_iff_mul_le (by omega), Nat.succ_mul] at h2
      omega
    omega

/-- Reading a chunk of a unit that lies inside a canonical `AU` (R158). -/
theorem readChunk_eq {s : State} {a b k : Nat} (hm : 1 ≤ s.params.maxPayload) (hwf : Memory.wf s.au = true)
    (hab : a < b) (hb : b ≤ s.auLen) (hk : k < unitCount s.params a b) (f : List Byte → Result) :
    readChunk a b k s f = f (chunkBytes s.params (Memory.bytes s.au) a b k) := by
  obtain ⟨h1, h2⟩ := chunk_bounds hm hab hk
  unfold State.auLen at hb
  simp only [readChunk, readAu, chunkBytes]
  rw [Memory.readRange_of_wf s.au hwf _ _ (by omega)]

/-- The first rule of chunking: at least one packet for every unit (R157). -/
theorem unitCount_pos (c : Params) (a b : Nat) (hm : 1 ≤ c.maxPayload) : 1 ≤ unitCount c a b := by
  simp only [unitCount, chunkCount, emptyBody, beq_iff_eq]
  split
  · omega
  · rw [Nat.le_div_iff_mul_le (by omega)]
    omega

/-- `n` is the least number of chunks that holds the body (R157). -/
theorem unitCount_le {c : Params} {a b q : Nat} (hm : 1 ≤ c.maxPayload) (h0 : 0 < b - a - 1) :
    unitCount c a b ≤ q ↔ b - a - 1 ≤ q * c.maxPayload := by
  simp only [unitCount, chunkCount, bodyLen, emptyBody, beq_iff_eq]
  rw [if_neg (by omega), ← Nat.lt_succ_iff, Nat.div_lt_iff_lt_mul (by omega), Nat.succ_mul]
  omega

/-- A chunk is a piece of the body (R158). -/
theorem chunkBytes_eq (c : Params) (au : List Byte) (a b k : Nat) :
    chunkBytes c au a b k =
      (((au.drop (a + 1)).take (b - a - 1)).drop (k * c.maxPayload)).take c.maxPayload := by
  simp only [chunkBytes, chunkLo, chunkHi, List.drop_take, List.drop_drop, List.take_take]
  rw [Nat.add_assoc]
  congr 1
  omega

/-- The length of a chunk of a unit inside the buffer (R158). -/
theorem chunkBytes_length {c : Params} {au : List Byte} {a b k : Nat} (hb : b ≤ au.length) :
    (chunkBytes c au a b k).length = min c.maxPayload (b - a - 1 - k * c.maxPayload) := by
  rw [chunkBytes_eq]
  simp only [List.length_take, List.length_drop]
  omega

/-- The length of a chunk is at most `MAX_PAYLOAD` (R158). -/
theorem chunkBytes_length_le (c : Params) (au : List Byte) (a b k : Nat) :
    (chunkBytes c au a b k).length ≤ c.maxPayload := by
  simp only [chunkBytes, chunkLo, chunkHi, List.length_take, List.length_drop]
  omega

theorem timeAt_afterPackets (s : State) (q : BitVec 16) (xs : List Packet) (e : Nat) (d : Datapath) (j : Nat) :
    timeAt (afterPackets s q xs e d) j = timeAt s (xs.length + j) := by
  simp [timeAt, Nat.add_assoc]

end Sys2Proof.Machine
end

