-- ==== Sys2Proof/Laws/Scanner.lean ====
section
/-! SUPPORT. What the two searches of the scanner and one `SCAN.NEXT` can answer. -/

namespace Sys2Proof.Machine

/-! ### Pattern tests by offset -/

/-- `Match3(i, c)` in terms of the bytes at `i`, `i+1`, `i+2` (R121). -/
theorem match3_drop (c : Byte) (au : List Byte) (i : Nat) :
    match3 c (au.drop i) = true ↔ au[i]? = some 0#8 ∧ au[i + 1]? = some 0#8 ∧ au[i + 2]? = some c := by
  have h0 : au[i]? = (au.drop i)[0]? := by simp
  have h1 : au[i + 1]? = (au.drop i)[1]? := by simp
  have h2 : au[i + 2]? = (au.drop i)[2]? := by simp
  rw [h0, h1, h2]
  generalize au.drop i = r
  match r with
  | [] => simp [match3]
  | [_] => simp [match3]
  | [_, _] => simp [match3]
  | _ :: _ :: _ :: _ => simp [match3, and_assoc]

/-- `Match4(i)` in terms of the bytes at `i .. i+3` (R121). -/
theorem match4_drop (au : List Byte) (i : Nat) :
    match4 (au.drop i) = true ↔
      au[i]? = some 0#8 ∧ au[i + 1]? = some 0#8 ∧ au[i + 2]? = some 0#8 ∧ au[i + 3]? = some 1#8 := by
  have h0 : au[i]? = (au.drop i)[0]? := by simp
  have h1 : au[i + 1]? = (au.drop i)[1]? := by simp
  have h2 : au[i + 2]? = (au.drop i)[2]? := by simp
  have h3 : au[i + 3]? = (au.drop i)[3]? := by simp
  rw [h0, h1, h2, h3]
  generalize au.drop i = r
  match r with
  | [] => simp [match4]
  | [_] => simp [match4]
  | [_, _] => simp [match4]
  | [_, _, _] => simp [match4]
  | _ :: _ :: _ :: _ :: _ => simp [match4, and_assoc]

theorem match3_length {c : Byte} {rest : List Byte} (h : match3 c rest = true) : 3 ≤ rest.length := by
  match rest with
  | [] => simp [match3] at h
  | [_] => simp [match3] at h
  | [_, _] => simp [match3] at h
  | _ :: _ :: _ :: _ => simp

theorem match4_length {rest : List Byte} (h : match4 rest = true) : 4 ≤ rest.length := by
  match rest with
  | [] => simp [match4] at h
  | [_] => simp [match4] at h
  | [_, _] => simp [match4] at h
  | [_, _, _] => simp [match4] at h
  | _ :: _ :: _ :: _ :: _ => simp

theorem isBoundary_length {rest : List Byte} (h : isBoundary rest = true) : 3 ≤ rest.length := by
  simp only [isBoundary, Bool.or_eq_true] at h
  exact h.elim match3_length match3_length

theorem isStart_iff (rest : List Byte) : isStart rest = true ↔ match3 1#8 rest = true ∨ match4 rest = true := by
  simp [isStart]

theorem isStart_nil : isStart [] = false := rfl

/-- The offset of the unit after a start code at `i` (R123). -/
def startOffset (rest : List Byte) (i : Nat) : Nat := if match3 1#8 rest then i + 3 else i + 4

/-! ### The start search -/

/-- Everything the start search can answer (R123): a start code at the first index that holds one, that index being the first one
tested or more than 4 bytes before the end; or none, when every such index holds none. -/
theorem findStartFrom_cases (L i : Nat) (rest : List Byte) (hL : i + rest.length = L) :
    (∃ j, i ≤ j ∧ isStart (rest.drop (j - i)) = true ∧ (j = i ∨ j + 4 < L) ∧
        (∀ t, i ≤ t → t < j → isStart (rest.drop (t - i)) = false) ∧
        findStartFrom L i rest = (some (startOffset (rest.drop (j - i)) j), j)) ∨
    (∃ j, i < j ∧ j ≤ L + 1 ∧ (∀ t, i ≤ t → (t = i ∨ t + 4 < L) → isStart (rest.drop (t - i)) = false) ∧
        findStartFrom L i rest = (none, j)) := by
  induction rest generalizing i with
  | nil =>
    refine .inr ⟨i + 1, by omega, ?_, ?_, rfl⟩
    · simp at hL; omega
    · intro t _ _; simp [isStart_nil]
  | cons b rest ih =>
    by_cases h3 : match3 1#8 (b :: rest) = true
    · refine .inl ⟨i, Nat.le_refl _, ?_, .inl rfl, fun t h1 h2 => by omega, ?_⟩
      · simp [isStart, h3]
      · simp [findStartFrom, h3, startOffset]
    · by_cases h4 : match4 (b :: rest) = true
      · refine .inl ⟨i, Nat.le_refl _, ?_, .inl rfl, fun t h1 h2 => by omega, ?_⟩
        · simp [isStart, h4]
        · simp [findStartFrom, h3, h4, startOffset]
      · have hno : isStart (b :: rest) = false := by simp [isStart, h3, h4]
        by_cases hend : L ≤ i + 1 + 4
        · refine .inr ⟨i + 1, by omega, by simp at hL; omega, ?_, by simp [findStartFrom, h3, h4, hend]⟩
          intro t ht hc
          have : t = i := by omega
          subst this
          simpa using hno
        · have hstep : findStartFrom L i (b :: rest) = findStartFrom L (i + 1) rest := by
            simp [findStartFrom, h3, h4, hend]
          have hdrop : ∀ t, i + 1 ≤ t → (b :: rest).drop (t - i) = rest.drop (t - (i + 1)) := by
            intro t ht
            rw [show t - i = (t - (i + 1)) + 1 by omega, List.drop_succ_cons]
          rcases ih (i + 1) (by simp at hL; omega) with ⟨j, hj, hs, hc, hb, he⟩ | ⟨j, hj, hle, hb, he⟩
          · refine .inl ⟨j, by omega, by rw [hdrop j hj]; exact hs, by omega, ?_, by rw [hstep, he, hdrop j hj]⟩
            intro t h1 h2
            by_cases hti : t = i
            · subst hti; simpa using hno
            · rw [hdrop t (by omega)]; exact hb t (by omega) h2
          · refine .inr ⟨j, by omega, hle, ?_, by rw [hstep, he]⟩
            intro t h1 h2
            by_cases hti : t = i
            · subst hti; simpa using hno
            · rw [hdrop t (by omega)]; exact hb t (by omega) (by omega)

/-- Everything `FindStart(p)` can answer (R123), by offsets of the buffer. -/
theorem findStart_cases (au : List Byte) (p : Nat) (hp : p ≤ au.length) :
    (∃ j, p ≤ j ∧ isStart (au.drop j) = true ∧ (j = p ∨ j + 4 < au.length) ∧
        (∀ t, p ≤ t → t < j → isStart (au.drop t) = false) ∧
        findStart au p = (some (startOffset (au.drop j) j), j)) ∨
    (∃ j, p < j ∧ j ≤ au.length + 1 ∧ (∀ t, p ≤ t → (t = p ∨ t + 4 < au.length) → isStart (au.drop t) = false) ∧
        findStart au p = (none, j)) := by
  have hd : ∀ t, p ≤ t → (au.drop p).drop (t - p) = au.drop t := by
    intro t ht
    rw [List.drop_drop, show p + (t - p) = t by omega]
  rcases findStartFrom_cases au.length p (au.drop p) (by simp; omega) with
    ⟨j, hj, hs, hc, hb, he⟩ | ⟨j, hj, hle, hb, he⟩
  · rw [hd j hj] at hs he
    exact .inl ⟨j, hj, hs, hc, fun t h1 h2 => by rw [← hd t h1]; exact hb t h1 h2, he⟩
  · exact .inr ⟨j, hj, hle, fun t h1 h2 => by rw [← hd t h1]; exact hb t h1 h2, he⟩

/-- A start search that finds a unit moves at least 3 bytes on and stays inside the buffer (R127). -/
theorem findStart_some_bounds {au : List Byte} {p s i : Nat} (hp : p ≤ au.length)
    (h : findStart au p = (some s, i)) : p + 3 ≤ s ∧ s ≤ au.length ∧ p ≤ i ∧ i ≤ au.length := by
  rcases findStart_cases au p hp with ⟨j, hj, hs, -, -, he⟩ | ⟨j, -, -, -, he⟩
  · rw [he] at h
    simp only [Prod.mk.injEq, Option.some.injEq] at h
    obtain ⟨h1, h2⟩ := h
    subst h2
    have hlen : (au.drop j).length = au.length - j := by simp
    unfold startOffset at h1
    split at h1
    · next h3 => have := match3_length h3; omega
    · next h3 =>
      have h4 : match4 (au.drop j) = true := by
        rw [isStart_iff] at hs
        exact hs.resolve_left h3
      have := match4_length h4
      omega
  · rw [he] at h; simp at h

/-! ### The end search -/

/-- Everything the end search can answer (R124): the first index with a boundary pattern, or the length when there is none. -/
theorem findEndFrom_cases (L i : Nat) (rest : List Byte) (hL : i + rest.length = L) :
    (∃ j, i ≤ j ∧ isBoundary (rest.drop (j - i)) = true ∧
        (∀ t, i ≤ t → t < j → isBoundary (rest.drop (t - i)) = false) ∧ findEndFrom L i rest = (j, j)) ∨
    (∃ j, i < j ∧ j ≤ L + 1 ∧ (∀ t, i ≤ t → isBoundary (rest.drop (t - i)) = false) ∧ findEndFrom L i rest = (L, j)) := by
  induction rest generalizing i with
  | nil => exact .inr ⟨i + 1, by omega, by simp at hL; omega, fun t _ => by simp [isBoundary, match3], rfl⟩
  | cons b rest ih =>
    by_cases hb : isBoundary (b :: rest) = true
    · exact .inl ⟨i, Nat.le_refl _, by simpa using hb, fun t h1 h2 => by omega, by simp [findEndFrom, hb]⟩
    · have hno : isBoundary (b :: rest) = false := by simpa using hb
      have hdrop : ∀ t, i + 1 ≤ t → (b :: rest).drop (t - i) = rest.drop (t - (i + 1)) := by
        intro t ht
        rw [show t - i = (t - (i + 1)) + 1 by omega, List.drop_succ_cons]
      by_cases hend : L ≤ i + 1 + 2
      · refine .inr ⟨i + 1, by omega, by simp at hL; omega, ?_, by simp [findEndFrom, hb, hend]⟩
        intro t ht
        by_cases hti : t = i
        · subst hti; simpa using hno
        · by_contra hc
          have := isBoundary_length (by simpa using hc)
          simp at this hL
          omega
      · have hstep : findEndFrom L i (b :: rest) = findEndFrom L (i + 1) rest := by
          simp [findEndFrom, hb, hend]
        rcases ih (i + 1) (by simp at hL; omega) with ⟨j, hj, hs, hf, he⟩ | ⟨j, hj, hle, hf, he⟩
        · refine .inl ⟨j, by omega, by rw [hdrop j hj]; exact hs, ?_, by rw [hstep, he]⟩
          intro t h1 h2
          by_cases hti : t = i
          · subst hti; simpa using hno
          · rw [hdrop t (by omega)]; exact hf t (by omega) h2
        · refine .inr ⟨j, by omega, hle, ?_, by rw [hstep, he]⟩
          intro t h1
          by_cases hti : t = i
          · subst hti; simpa using hno
          · rw [hdrop t (by omega)]; exact hf t (by omega)

/-- Everything `FindEnd(s)` can answer (R124), by offsets of the buffer. -/
theorem findEnd_cases (au : List Byte) (s : Nat) (hs : s ≤ au.length) :
    (∃ j, s ≤ j ∧ isBoundary (au.drop j) = true ∧ (∀ t, s ≤ t → t < j → isBoundary (au.drop t) = false) ∧
        findEnd au s = (j, j)) ∨
    (∃ j, s < j ∧ j ≤ au.length + 1 ∧ (∀ t, s ≤ t → isBoundary (au.drop t) = false) ∧ findEnd au s = (au.length, j)) := by
  have hd : ∀ t, s ≤ t → (au.drop s).drop (t - s) = au.drop t := by
    intro t ht
    rw [List.drop_drop, show s + (t - s) = t by omega]
  rcases findEndFrom_cases au.length s (au.drop s) (by simp; omega) with ⟨j, hj, hb, hf, he⟩ | ⟨j, hj, hle, hf, he⟩
  · rw [hd j hj] at hb
    exact .inl ⟨j, hj, hb, fun t h1 h2 => by rw [← hd t h1]; exact hf t h1 h2, he⟩
  · exact .inr ⟨j, hj, hle, fun t h1 => by rw [← hd t h1]; exact hf t h1, he⟩

/-- The end of a unit lies between its start and the end of the buffer (R124). -/
theorem findEnd_bounds (au : List Byte) (s : Nat) (hs : s ≤ au.length) :
    s ≤ (findEnd au s).1 ∧ (findEnd au s).1 ≤ au.length ∧ (findEnd au s).2 ≤ au.length + 1 := by
  rcases findEnd_cases au s hs with ⟨j, hj, hb, -, he⟩ | ⟨j, -, hle, -, he⟩
  · rw [he]
    have := isBoundary_length hb
    simp at this
    dsimp only
    omega
  · rw [he]
    exact ⟨hs, Nat.le_refl _, hle⟩

/-! ### `SCAN.NEXT` -/

/-- What a round of `SCAN.NEXT` leaves, for any scan pointer inside the buffer: a unit lies inside the buffer, is not empty, starts
at least 3 bytes on, and the scan pointer is its end; the registers stay in their ranges (R22, R120, R127). -/
theorem scanFrom_bounds (au : List Byte) (fuel p : Nat) (hp : p ≤ au.length) :
    (scanFrom au fuel p).p ≤ au.length ∧ (scanFrom au fuel p).i ≤ au.length + 1 ∧ p ≤ (scanFrom au fuel p).p ∧
    ∀ a b, (scanFrom au fuel p).unit = some (a, b) → p + 3 ≤ a ∧ a < b ∧ b ≤ au.length ∧ (scanFrom au fuel p).p = b := by
  induction fuel generalizing p with
  | zero => exact ⟨hp, by simp [scanFrom]; omega, by simp [scanFrom], fun a b h => by simp [scanFrom] at h⟩
  | succ fuel ih =>
    unfold scanFrom
    rcases hfs : findStart au p with ⟨_ | s, i⟩
    · dsimp only
      refine ⟨hp, ?_, Nat.le_refl _, fun a b h => by simp at h⟩
      rcases findStart_cases au p hp with ⟨j, -, -, -, -, he⟩ | ⟨j, -, hle, -, he⟩
      · rw [he] at hfs; simp at hfs
      · rw [he] at hfs; simp at hfs; omega
    · dsimp only
      obtain ⟨h1, h2, h3, h4⟩ := findStart_some_bounds hp hfs
      split
      · exact ⟨hp, by dsimp only; omega, Nat.le_refl _, fun a b h => by simp at h⟩
      · obtain ⟨e1, e2, e3⟩ := findEnd_bounds au s h2
        split
        · next hlt =>
          refine ⟨e2, e3, by dsimp only; omega, fun a b h => ?_⟩
          simp only [Option.some.injEq, Prod.mk.injEq] at h
          obtain ⟨rfl, rfl⟩ := h
          exact ⟨h1, hlt, e2, rfl⟩
        · obtain ⟨i1, i2, i3, i4⟩ := ih (findEnd au s).1 e2
          refine ⟨i1, i2, by omega, fun a b h => ?_⟩
          obtain ⟨j1, j2, j3, j4⟩ := i4 a b h
          exact ⟨by omega, j2, j3, j4⟩

/-- More fuel than the bytes left changes nothing: the loop of `SCAN.NEXT` always ends by itself (R127). -/
theorem scanFrom_fuel (au : List Byte) (f g p : Nat) (hp : p ≤ au.length) (hf : au.length < f + p) (hg : au.length < g + p) :
    scanFrom au f p = scanFrom au g p := by
  induction f generalizing g p with
  | zero => omega
  | succ f ih =>
    cases g with
    | zero => omega
    | succ g =>
      unfold scanFrom
      rcases hfs : findStart au p with ⟨_ | s, i⟩
      · rfl
      · dsimp only
        obtain ⟨h1, h2, -, -⟩ := findStart_some_bounds hp hfs
        obtain ⟨e1, e2, -⟩ := findEnd_bounds au s h2
        rw [ih g (findEnd au s).1 e2 (by omega) (by omega)]

/-- A unit of `SCAN.NEXT` (R120, R125). -/
theorem scanStep_unit {au : List Byte} {p a b : Nat} (hp : p ≤ au.length) (h : (scanStep au p).unit = some (a, b)) :
    p + 3 ≤ a ∧ a < b ∧ b ≤ au.length ∧ (scanStep au p).p = b :=
  (scanFrom_bounds au (au.length + 1) p hp).2.2.2 a b h

/-- The loop of `SCAN.NEXT` unrolled once, with no fuel in sight (R125). -/
theorem scanStep_eq (au : List Byte) (p : Nat) (hp : p ≤ au.length) :
    scanStep au p =
      match findStart au p with
      | (none, i) => { unit := none, p := p, i := i }
      | (some s, i) =>
        if au.length ≤ s then { unit := none, p := p, i := i }
        else if s < (findEnd au s).1 then
          { unit := some (s, (findEnd au s).1), p := (findEnd au s).1, i := (findEnd au s).2 }
        else scanStep au (findEnd au s).1 := by
  unfold scanStep
  conv_lhs => unfold scanFrom
  rcases hfs : findStart au p with ⟨_ | s, i⟩
  · rfl
  · dsimp only
    obtain ⟨h1, h2, -, -⟩ := findStart_some_bounds hp hfs
    obtain ⟨e1, e2, -⟩ := findEnd_bounds au s h2
    rw [scanFrom_fuel au au.length (au.length + 1) (findEnd au s).1 e2 (by omega) (by omega)]

/-! ### `ScanAll` -/

/-- Fuel beyond the bytes left changes nothing. -/
theorem scanAllFrom_fuel (au : List Byte) (f g p : Nat) (hp : p ≤ au.length) (hf : au.length < f + p)
    (hg : au.length < g + p) : scanAllFrom au f p = scanAllFrom au g p := by
  induction f generalizing g p with
  | zero => omega
  | succ f ih =>
    cases g with
    | zero => omega
    | succ g =>
      unfold scanAllFrom
      rcases hu : (scanStep au p).unit with _ | ⟨a, b⟩
      · rfl
      · dsimp only
        obtain ⟨h1, h2, h3, h4⟩ := scanStep_unit hp hu
        rw [h4, ih g b h3 (by omega) (by omega)]

/-- Every unit of `ScanAll` is a non-empty range inside the buffer (R120). -/
theorem scanAllFrom_bounds (au : List Byte) (fuel p : Nat) (hp : p ≤ au.length) :
    ∀ u ∈ scanAllFrom au fuel p, p + 3 ≤ u.1 ∧ u.1 < u.2 ∧ u.2 ≤ au.length := by
  induction fuel generalizing p with
  | zero => simp [scanAllFrom]
  | succ fuel ih =>
    unfold scanAllFrom
    rcases hu : (scanStep au p).unit with _ | ⟨a, b⟩
    · simp
    · obtain ⟨h1, h2, h3, h4⟩ := scanStep_unit hp hu
      intro u hmem
      simp only [List.mem_cons] at hmem
      rcases hmem with rfl | hmem
      · exact ⟨h1, h2, h3⟩
      · obtain ⟨k1, k2, k3⟩ := ih (scanStep au p).p (by omega) u hmem
        exact ⟨by omega, k2, k3⟩

end Sys2Proof.Machine
end

