-- ==== Sys2Proof/Laws/Pipeline.lean ====
section
/-! SUPPORT. What packetizing one unit and processing a whole access unit do, in terms of the bytes of `AU`. -/

namespace Sys2Proof.Machine

/-! ### One unit -/

/-- `PKT.SINGLE` on a unit inside a canonical `AU`: exactly the packet its bytes give (R160, R168). -/
theorem emitSingle_eq {s : State} {q : BitVec 16} {x : BitVec 32} {h : Byte} {a b : Nat} (hc : s.Configured)
    (hwf : Memory.wf s.au = true) (hab : a < b) (hb : b ≤ s.auLen) (hq : s.seq = some q) (hx : s.ssrc = some x)
    (hh : s.dp.hdr = some h) (hn : unitCount s.params a b = 1) :
    emitSingle a b s = .next (afterPackets s q
      [encodePacket (unitPacket s q x (Memory.bytes s.au) h a b 0 0)] (if b = a + 1 then 1 else 0)
      { (setChunk a b 0 s).dp with
        m := some true, ts := some (timeAt s 0),
        pkt := encodePacket (unitPacket s q x (Memory.bytes s.au) h a b 0 0) }) := by
  have hm : 1 ≤ s.params.maxPayload := by
    simp only [State.Configured, Params.legal, Bool.and_eq_true, decide_eq_true_eq] at hc; exact hc.2
  have hpkt : rtpHeaderBytes true s.params.pt q (timeAt s 0) x ++ [h] ++ chunkBytes s.params (Memory.bytes s.au) a b 0 =
      encodePacket (unitPacket s q x (Memory.bytes s.au) h a b 0 0) := by
    simp [encodePacket, unitPacket, layoutOf, hn, leadBytes, PacketKind.marker]
  rw [emitSingle, hh, readReg_some, readChunk_eq hm hwf hab hb (by omega),
    emit_eq _ _ _ _ q x (by simpa using hq) (by simpa using hx), andThen_next]
  simp only [setChunk_params, show timeAt (setChunk a b 0 s) 0 = timeAt s 0 from rfl, hpkt]
  rw [show setChunk a b 0 s = { s with dp := (setChunk a b 0 s).dp } from rfl, afterPackets_dp_irrel]
  refine congrArg _ ?_
  by_cases hbe : b = a + 1
  · subst hbe
    simp [emptyBody, bodyLen, raise, afterPackets]
  · have : emptyBody (bodyLen a b) = false := by simp [emptyBody, bodyLen]; omega
    simp [this, hbe]

/-- One fragment of a unit inside a canonical `AU`: exactly the packet its bytes give (R161 to R164). -/
theorem emitFragment_eq {s : State} {q : BitVec 16} {x : BitVec 32} {h : Byte} {a b k : Nat} (hc : s.Configured)
    (hwf : Memory.wf s.au = true) (hab : a < b) (hb : b ≤ s.auLen) (hq : s.seq = some q) (hx : s.ssrc = some x)
    (hf : s.dp.f = some (nalF h)) (hnri : s.dp.nri = some (nalNri h)) (ht : s.dp.type = some (nalType h))
    (hn : unitCount s.params a b ≠ 1) (hk : k < unitCount s.params a b) :
    emitFragment a b k s = .next (afterPackets s q
      [encodePacket { unitPacket s q x (Memory.bytes s.au) h a b 0 k with seq := q, ts := timeAt s 0 }] 0
      { (setChunk a b k s).dp with
        s := some (fragStart k), e := some (fragEnd (unitCount s.params a b) k),
        m := some (fragMarker (unitCount s.params a b) k), ts := some (timeAt s 0),
        pkt := encodePacket { unitPacket s q x (Memory.bytes s.au) h a b 0 k with seq := q, ts := timeAt s 0 } }) := by
  have hm : 1 ≤ s.params.maxPayload := by
    simp only [State.Configured, Params.legal, Bool.and_eq_true, decide_eq_true_eq] at hc; exact hc.2
  have hpkt : rtpHeaderBytes (fragMarker (unitCount s.params a b) k) s.params.pt q (timeAt s 0) x ++
        [fuIndicator (nalF h) (nalNri h), fuHeader (fragStart k) (fragEnd (unitCount s.params a b) k) (nalType h)] ++
        chunkBytes s.params (Memory.bytes s.au) a b k =
      encodePacket { unitPacket s q x (Memory.bytes s.au) h a b 0 k with seq := q, ts := timeAt s 0 } := by
    by_cases h0 : k = 0
    · subst h0
      have h1 : (1 == unitCount s.params a b) = false := beq_eq_false_iff_ne.2 (Ne.symm hn)
      simp [encodePacket, unitPacket, layoutOf, hn, leadBytes, PacketKind.marker, fragStart, fragEnd, fragMarker, h1]
    · have hk0 : (k == 0) = false := beq_eq_false_iff_ne.2 h0
      by_cases hl : k + 1 = unitCount s.params a b
      · have hn' : ¬ k + 1 = 1 := by omega
        simp [encodePacket, unitPacket, layoutOf, ← hl, h0, hk0, leadBytes, PacketKind.marker, fragStart, fragEnd, fragMarker]
      · have hl' : (k + 1 == unitCount s.params a b) = false := beq_eq_false_iff_ne.2 hl
        simp [encodePacket, unitPacket, layoutOf, hn, h0, hk0, hl, hl', leadBytes, PacketKind.marker, fragStart, fragEnd,
          fragMarker]
  rw [emitFragment, hf, readReg_some, hnri, readReg_some, ht, readReg_some, readChunk_eq hm hwf hab hb hk]
  dsimp only
  rw [emit_eq _ _ _ _ q x (by simpa using hq) (by simpa using hx)]
  refine congrArg _ ?_
  rw [show (({ setChunk a b k s with
      dp := { (setChunk a b k s).dp with
        s := some (fragStart k),
        e := some (fragEnd (chunkCount s.params.maxPayload (bodyLen a b)) k) } } : State)) =
      { s with dp := { (setChunk a b k s).dp with
        s := some (fragStart k), e := some (fragEnd (chunkCount s.params.maxPayload (bodyLen a b)) k) } } from rfl,
    afterPackets_dp_irrel]
  simp only [timeAt, ← unitCount.eq_1] at hpkt ⊢
  rw [hpkt]

/-- The packets of the fragments `k, k+1, …, k+r-1` of a unit, the first of them the next packet built (R161, R167). -/
def fragmentPackets (s : State) (q : BitVec 16) (x : BitVec 32) (h : Byte) (a b k r : Nat) : List Packet :=
  (List.range r).map fun j =>
    encodePacket { unitPacket s q x (Memory.bytes s.au) h a b 0 (k + j) with
      seq := q + BitVec.ofNat 16 j, ts := timeAt s j }

theorem fragmentPackets_succ (s : State) (q : BitVec 16) (x : BitVec 32) (h : Byte) (a b k r : Nat) (xs : Packet) (e : Nat)
    (d : Datapath) :
    fragmentPackets s q x h a b k (r + 1) =
      encodePacket { unitPacket s q x (Memory.bytes s.au) h a b 0 k with seq := q, ts := timeAt s 0 } ::
        fragmentPackets (afterPackets s q [xs] e d) (q + 1#16) x h a b (k + 1) r := by
  simp only [fragmentPackets, List.range_succ_eq_map, List.map_cons, List.map_map]
  congr 1
  · simp
  · apply List.map_congr_left
    intro j _
    simp only [Function.comp, timeAt_afterPackets, List.length_singleton, unitPacket, afterPackets_params, afterPackets_au]
    rw [show k + j.succ = k + 1 + j by omega, show j.succ = 1 + j by omega, BitVec.ofNat_add, BitVec.add_assoc]

/-- The fragment loop on a unit inside a canonical `AU` (R161, R166, R167). -/
theorem emitFragments_eq {x : BitVec 32} {h : Byte} {a b : Nat} (hab : a < b) (r : Nat) :
    ∀ (k : Nat) (s : State) (q : BitVec 16), s.Configured → Memory.wf s.au = true → b ≤ s.auLen →
      s.seq = some q → s.ssrc = some x → HeaderLatched h s.dp → unitCount s.params a b ≠ 1 →
      k + r ≤ unitCount s.params a b →
      ∃ d, emitFragments a b k r s = .next (afterPackets s q (fragmentPackets s q x h a b k r) 0 d) ∧
        d.p = s.dp.p ∧ HeaderLatched h d := by
  induction r with
  | zero =>
    intro k s q hc hwf hb hq hx hh hn hk
    refine ⟨s.dp, ?_, rfl, hh⟩
    simp only [emitFragments, fragmentPackets, afterPackets]
    refine congrArg _ ?_
    cases s
    dsimp only at hq
    simp [hq]
  | succ r ih =>
    intro k s q hc hwf hb hq hx hh hn hk
    rw [emitFragments, emitFragment_eq hc hwf hab hb hq hx hh.2.1 hh.2.2.1 hh.2.2.2 hn (by omega), andThen_next]
    have hfr := fragmentPackets_succ s q x h a b k r
      (encodePacket { unitPacket s q x (Memory.bytes s.au) h a b 0 k with seq := q, ts := timeAt s 0 }) 0
      { (setChunk a b k s).dp with
        s := some (fragStart k), e := some (fragEnd (unitCount s.params a b) k),
        m := some (fragMarker (unitCount s.params a b) k), ts := some (timeAt s 0),
        pkt := encodePacket { unitPacket s q x (Memory.bytes s.au) h a b 0 k with seq := q, ts := timeAt s 0 } }
    generalize hs' : afterPackets s q _ 0 _ = s' at hfr ⊢
    have hpar : s'.params = s.params := by rw [← hs']; simp
    have hau : s'.au = s.au := by rw [← hs']; simp
    obtain ⟨d, hd, hp, hl⟩ := ih (k + 1) s' (q + 1#16) (by rw [State.Configured, hpar]; exact hc) (by rw [hau]; exact hwf)
      (by rw [State.auLen, hau]; exact hb) (by rw [← hs']; simp) (by rw [← hs']; simpa using hx)
      (by rw [← hs']; simpa using hh) (by rw [hpar]; exact hn) (by rw [hpar]; omega)
    refine ⟨d, ?_, ?_, hl⟩
    · rw [hd, hfr, ← hs']
      have := afterPackets_afterPackets s q
        [encodePacket { unitPacket s q x (Memory.bytes s.au) h a b 0 k with seq := q, ts := timeAt s 0 }]
        (fragmentPackets s' (q + 1#16) x h a b (k + 1) r) 0 0
        { (setChunk a b k s).dp with
          s := some (fragStart k), e := some (fragEnd (unitCount s.params a b) k),
          m := some (fragMarker (unitCount s.params a b) k), ts := some (timeAt s 0),
          pkt := encodePacket { unitPacket s q x (Memory.bytes s.au) h a b 0 k with seq := q, ts := timeAt s 0 } } d
      rw [← hs'] at this
      exact congrArg _ this
    · rw [hp, ← hs']; rfl

/-- `PACKETIZE` on a unit inside a canonical `AU`: exactly the packets its bytes give (R156 to R168). -/
theorem packetizeUnit_eq {s : State} {q : BitVec 16} {x : BitVec 32} {h : Byte} {a b : Nat} (hc : s.Configured)
    (hwf : Memory.wf s.au = true) (hab : a < b) (hb : b ≤ s.auLen) (hq : s.seq = some q) (hx : s.ssrc = some x)
    (hh : HeaderLatched h s.dp) :
    ∃ d, packetizeUnit a b s = .next (afterPackets s q (unitPackets s q x (Memory.bytes s.au) h a b 0)
      (if b = a + 1 then 1 else 0) d) ∧ d.p = s.dp.p ∧ HeaderLatched h d := by
  have hm : 1 ≤ s.params.maxPayload := by
    simp only [State.Configured, Params.legal, Bool.and_eq_true, decide_eq_true_eq] at hc; exact hc.2
  by_cases hn : unitCount s.params a b = 1
  · refine ⟨{ (setChunk a b 0 s).dp with
        m := some true, ts := some (timeAt s 0),
        pkt := encodePacket (unitPacket s q x (Memory.bytes s.au) h a b 0 0) }, ?_, rfl, hh⟩
    rw [packetizeUnit]
    simp only [← unitCount.eq_1, hn, if_true]
    rw [emitSingle_eq hc hwf hab hb hq hx hh.1 hn]
    simp only [unitPackets, hn, List.range_one, List.map_cons, List.map_nil]
  · have hne : ¬ b = a + 1 := by
      intro hbe
      apply hn
      simp [unitCount, chunkCount, bodyLen, emptyBody, hbe]
    obtain ⟨d, hd, hp, hl⟩ := emitFragments_eq hab (unitCount s.params a b) 0 s q hc hwf hb hq hx hh hn (by omega)
    refine ⟨d, ?_, hp, hl⟩
    rw [packetizeUnit]
    simp only [← unitCount.eq_1, hn, if_false, hne]
    rw [hd]
    simp only [unitPackets, fragmentPackets, unitPacket, Nat.zero_add]

/-- Everything the meaning of `PACKETIZE` does on a unit inside a canonical `AU`, given the registers it reads. -/
theorem packetize_eq {s : State} {q : BitVec 16} {x : BitVec 32} {h : Byte} {a b : Nat} (hc : s.Configured)
    (hwf : Memory.wf s.au = true) (ha : s.dp.nalStart = some a) (hbe : s.dp.nalEnd = some b) (hab : a < b)
    (hb : b ≤ s.auLen) (hq : s.seq = some q) (hx : s.ssrc = some x) (hh : HeaderLatched h s.dp) :
    ∃ d, packetize s = .next (afterPackets s q (unitPackets s q x (Memory.bytes s.au) h a b 0)
      (if b = a + 1 then 1 else 0) d) ∧ d.p = s.dp.p := by
  obtain ⟨d, hd, hp, -⟩ := packetizeUnit_eq hc hwf hab hb hq hx hh
  refine ⟨d, ?_, hp⟩
  rw [packetize, withUnit, ha, readReg_some, hbe, readReg_some, if_pos hab, hd]

/-! ### A whole access unit -/

/-- `CLASSIFY` reads the byte at `nal_start` (R141). -/
theorem classify_eq {s : State} {a : Nat} (hwf : Memory.wf s.au = true) (ha : s.dp.nalStart = some a) (hl : a < s.auLen) :
    classify s = .next (latchHeader ((Memory.bytes s.au).getD a 0#8) s) := by
  have hlen : a < (Memory.bytes s.au).length := by rw [Memory.bytes_length]; exact hl
  rw [classify, ha, readReg_some, Memory.read_of_wf s.au hwf, List.getElem?_eq_getElem hlen, List.getD_eq_getElem?_getD,
    List.getElem?_eq_getElem hlen]
  rfl

theorem bufferPackets_shift (s s' : State) (q : BitVec 16) (x : BitVec 32) (au : List Byte) (c : Nat)
    (hp : s'.params = s.params) (ht : ∀ j, timeAt s' j = timeAt s (c + j)) (units : List (Nat × Nat)) :
    ∀ j, bufferPackets s' (q + BitVec.ofNat 16 c) x au j units = bufferPackets s q x au (c + j) units := by
  induction units with
  | nil => intro j; rfl
  | cons u units ih =>
    intro j
    obtain ⟨a, b⟩ := u
    simp only [bufferPackets, ih, hp]
    congr 1
    · simp only [unitPackets, hp]
      apply List.map_congr_left
      intro k _
      simp only [unitPacket, hp, ht]
      rw [Nat.add_assoc c j k, BitVec.ofNat_add c (j + k), BitVec.add_assoc]
    · rw [Nat.add_assoc]

/-- The loop of `ProcessAccessUnit` on a canonical `AU`: exactly the packets of the units of the scan from `p` on (R190). -/
theorem processUnits_eq {x : BitVec 32} (fuel : Nat) :
    ∀ (s : State) (q : BitVec 16) (p : Nat), s.Configured → Memory.wf s.au = true → s.seq = some q → s.ssrc = some x →
      s.dp.p = some p → p ≤ s.auLen →
      ∃ d, processUnits fuel s = .next (afterPackets s q
        (bufferPackets s q x (Memory.bytes s.au) 0 (scanAllFrom (Memory.bytes s.au) fuel p))
        (emptyUnits (scanAllFrom (Memory.bytes s.au) fuel p)) d) := by
  induction fuel with
  | zero =>
    intro s q p hc hwf hq hx hp hle
    refine ⟨s.dp, ?_⟩
    simp only [processUnits, scanAllFrom, bufferPackets, emptyUnits, afterPackets]
    refine congrArg _ ?_
    cases s
    dsimp only at hq
    simp [hq]
  | succ fuel ih =>
    intro s q p hc hwf hq hx hp hle
    have hlen : p ≤ (Memory.bytes s.au).length := by rw [Memory.bytes_length]; exact hle
    rcases hu : (scanStep (Memory.bytes s.au) p).unit with _ | ⟨a, b⟩
    · refine ⟨(scanNext s).dp, ?_⟩
      have hdone : (scanNext s).dp.scanDone = some true := by simp [scanNext, hp, hu]
      have hall : scanAllFrom (Memory.bytes s.au) (fuel + 1) p = [] := by simp [scanAllFrom, hu]
      have hs : scanNext s = { s with dp := (scanNext s).dp } := by simp only [scanNext]; split <;> rfl
      rw [processUnits, hall]
      simp only [hdone, if_true, bufferPackets, emptyUnits, afterPackets]
      refine congrArg _ ?_
      rw [hs]
      cases s
      dsimp only at hq
      simp [hq]
    · obtain ⟨h1, h2, h3, h4⟩ := scanStep_unit hlen hu
      have hblen : b ≤ s.auLen := by rw [Memory.bytes_length] at h3; exact h3
      have hdone : (scanNext s).dp.scanDone = some false := by simp [scanNext, hp, hu]
      have hst : (scanNext s).dp.nalStart = some a := by simp [scanNext, hp, hu]
      have hen : (scanNext s).dp.nalEnd = some b := by simp [scanNext, hp, hu]
      have hpp : (scanNext s).dp.p = some b := by simp [scanNext, hp, hu, h4]
      have hall : scanAllFrom (Memory.bytes s.au) (fuel + 1) p =
          (a, b) :: scanAllFrom (Memory.bytes s.au) fuel b := by simp [scanAllFrom, hu, h4]
      have hs : scanNext s = { s with dp := (scanNext s).dp } := by simp only [scanNext]; split <;> rfl
      rw [processUnits]
      simp only [hdone, Option.some.injEq, Bool.false_eq_true, if_false]
      rw [classify_eq (by simpa using hwf) hst (by simp [State.auLen] at hblen ⊢; omega), andThen_next]
      generalize hh : (Memory.bytes (scanNext s).au).getD a 0#8 = h
      have hh' : (Memory.bytes s.au).getD a 0#8 = h := by rw [← hh, scanNext_au]
      have hconf : (latchHeader h (scanNext s)).Configured := by rw [hs]; exact hc
      obtain ⟨d, hd, hdp⟩ := packetize_eq (s := latchHeader h (scanNext s)) (q := q) (x := x) (h := h) (a := a) (b := b)
        hconf (by simpa using hwf) (by simpa using hst) (by simpa using hen) h2
        (by simpa [State.auLen] using hblen) (by simpa using hq) (by simpa using hx) ⟨rfl, rfl, rfl, rfl⟩
      rw [hd, andThen_next]
      have hbase : ∀ xs e d, afterPackets (latchHeader h (scanNext s)) q xs e d = afterPackets s q xs e d := by
        intro xs e d
        rw [show latchHeader h (scanNext s) = { s with dp := (latchHeader h (scanNext s)).dp } by
          conv_lhs => rw [hs]
          rfl]
        exact afterPackets_dp_irrel s _ q xs e d
      have hpk : unitPackets (latchHeader h (scanNext s)) q x (Memory.bytes (latchHeader h (scanNext s)).au) h a b 0 =
          unitPackets s q x (Memory.bytes s.au) h a b 0 := by
        simp [unitPackets, unitPacket, timeAt]
      rw [hbase, hpk]
      generalize hs' : afterPackets s q (unitPackets s q x (Memory.bytes s.au) h a b 0) (if b = a + 1 then 1 else 0) d = s'
      have hpar : s'.params = s.params := by rw [← hs']; simp
      have hau : s'.au = s.au := by rw [← hs']; simp
      have hcnt : (unitPackets s q x (Memory.bytes s.au) h a b 0).length = unitCount s.params a b := by
        simp [unitPackets]
      obtain ⟨d', hd'⟩ := ih s' (q + BitVec.ofNat 16 (unitCount s.params a b)) b (by rw [State.Configured, hpar]; exact hc)
        (by rw [hau]; exact hwf) (by rw [← hs', afterPackets_seq, hcnt]) (by rw [← hs']; simpa using hx)
        (by rw [← hs', afterPackets_dp, hdp, latchHeader_dp_p, hpp]) (by rw [State.auLen, hau]; exact hblen)
      refine ⟨d', ?_⟩
      rw [hd', hau, hall, bufferPackets]
      simp only [emptyUnits, List.countP_cons]
      have hshift := bufferPackets_shift s s' q x (Memory.bytes s.au) (unitCount s.params a b) hpar
        (by intro j; rw [← hs', timeAt_afterPackets, hcnt]) (scanAllFrom (Memory.bytes s.au) fuel b) 0
      rw [hshift, Nat.add_zero, Nat.zero_add, ← hs', ← hcnt, afterPackets_afterPackets, hh']
      congr 2
      simp only [beq_iff_eq]
      omega

/-- `ProcessAccessUnit` on a canonical `AU` (R190): exactly the packets of `ScanAll` of its bytes. -/
theorem processAccessUnit_eq {s : State} {q : BitVec 16} {x : BitVec 32} (hc : s.Configured)
    (hwf : Memory.wf s.au = true) (hq : s.seq = some q) (hx : s.ssrc = some x) :
    ∃ d, processAccessUnit s = .next (afterPackets s q
      (bufferPackets s q x (Memory.bytes s.au) 0 (scanAll (Memory.bytes s.au)))
      (emptyUnits (scanAll (Memory.bytes s.au))) d) := by
  obtain ⟨d, hd⟩ := processUnits_eq (x := x) (s.auLen + 1) { s with dp := { s.dp with p := some 0 } } q 0 hc hwf hq hx rfl
    (Nat.zero_le _)
  refine ⟨d, ?_⟩
  rw [processAccessUnit, hd, afterPackets_dp_irrel]
  have hb : ∀ units j, bufferPackets { s with dp := { s.dp with p := some 0 } } q x (Memory.bytes s.au) j units =
      bufferPackets s q x (Memory.bytes s.au) j units := by
    intro units
    induction units with
    | nil => intro j; rfl
    | cons u units ih => intro j; simp only [bufferPackets, ih]; rfl
  rw [hb, scanAll, Memory.bytes_length]
  rfl

/-- A flush that exceeds no capacity, on canonical stores (R112): exactly the packets of the carry-over then the datagram. -/
theorem frFlush_eq {payload : List Byte} {s : State} {q : BitVec 16} {x : BitVec 32} (hc : s.Configured)
    (hwf : Memory.wf s.carry = true) (hq : s.seq = some q) (hx : s.ssrc = some x)
    (ho : bufOverflow s payload.length = false) :
    ∃ d, frFlush payload s = .next (afterPackets
      { s with au := Memory.ofBytes (flushBuffer s payload), carry := [] } q
      (bufferPackets { s with au := Memory.ofBytes (flushBuffer s payload), carry := [] } q x (flushBuffer s payload) 0
        (scanAll (flushBuffer s payload)))
      (emptyUnits (scanAll (flushBuffer s payload))) d) := by
  obtain ⟨d, hd⟩ := processAccessUnit_eq
    (s := { s with au := Memory.ofBytes (flushBuffer s payload), carry := [] }) (q := q) (x := x) hc (Memory.wf_ofBytes _) hq hx
  refine ⟨d, ?_⟩
  simp only [frFlush, ho, State.carryLen, Memory.readRange_all _ hwf]
  rw [if_neg (by simp), ← flushBuffer, hd, Memory.bytes_ofBytes]

end Sys2Proof.Machine
end

