-- ==== Sys2Proof/Laws/Built.lean ====
section
/-! SUPPORT. Everything that building packets can do to a state, from any state whatever, said once: the operations of the
packetizer, and the whole of `ProcessAccessUnit`, each answer a state built from the one they were given. -/

namespace Sys2Proof.Machine

/-- `t` is `s` after some packets of legal length have been built: they were enqueued in order, each took one number and one time
sample, some counted as degenerate units, and the datapath registers are whatever they are. -/
def Built (s t : State) : Prop :=
  ∃ (pkts : List Packet) (empties : Nat) (d : Datapath), (∀ p ∈ pkts, packetSized s.params p) ∧
    t = { enqueueAll pkts s with
      seq := s.seq.map (· + BitVec.ofNat 16 pkts.length)
      draws := s.draws + pkts.length
      nEmptyNal := s.nEmptyNal + BitVec.ofNat 32 empties
      dp := d }

theorem Built.of_dp (s : State) (d : Datapath) : Built s { s with dp := d } := by
  refine ⟨[], 0, d, by simp, ?_⟩
  cases s
  next seq _ _ _ _ _ _ _ _ _ _ _ _ _ => cases seq <;> simp

theorem Built.refl (s : State) : Built s s := Built.of_dp s s.dp

theorem Built.trans {s t u : State} (h1 : Built s t) (h2 : Built t u) : Built s u := by
  obtain ⟨xs, e1, d1, hxs, rfl⟩ := h1
  obtain ⟨ys, e2, d2, hys, rfl⟩ := h2
  refine ⟨xs ++ ys, e1 + e2, d2, fun p hp => ?_, ?_⟩
  · rcases List.mem_append.1 hp with hp | hp
    · exact hxs p hp
    · simpa using hys p hp
  have h := enqueueAll_update ys (enqueueAll xs s) (s.seq.map (· + BitVec.ofNat 16 xs.length)) (s.draws + xs.length)
    (s.nEmptyNal + BitVec.ofNat 32 e1) d1
  rw [h, enqueueAll_append]
  cases s.seq <;> simp [BitVec.ofNat_add, BitVec.add_assoc, Nat.add_assoc]

/-! ### What stays when packets are built -/

theorem Built.params {s t : State} (h : Built s t) : t.params = s.params := by
  obtain ⟨_, _, _, _, rfl⟩ := h; simp
theorem Built.sessionActive {s t : State} (h : Built s t) : t.sessionActive = s.sessionActive := by
  obtain ⟨_, _, _, _, rfl⟩ := h; simp
theorem Built.ssrc {s t : State} (h : Built s t) : t.ssrc = s.ssrc := by
  obtain ⟨_, _, _, _, rfl⟩ := h; simp
theorem Built.carry {s t : State} (h : Built s t) : t.carry = s.carry := by
  obtain ⟨_, _, _, _, rfl⟩ := h; simp
theorem Built.au {s t : State} (h : Built s t) : t.au = s.au := by
  obtain ⟨_, _, _, _, rfl⟩ := h; simp
theorem Built.errBufOvf {s t : State} (h : Built s t) : t.errBufOvf = s.errBufOvf := by
  obtain ⟨_, _, _, _, rfl⟩ := h; simp
theorem Built.sent {s t : State} (h : Built s t) : t.sent = s.sent := by
  obtain ⟨_, _, _, _, rfl⟩ := h; simp
theorem Built.timeHeld {s t : State} (h : Built s t) : t.timeHeld = s.timeHeld := by
  obtain ⟨_, _, _, _, rfl⟩ := h; simp
theorem Built.script {s t : State} (h : Built s t) : t.script = s.script := by
  obtain ⟨_, _, _, _, rfl⟩ := h; simp

/-- The number register advances by the number of time samples taken. -/
theorem Built.seq {s t : State} (h : Built s t) {q : BitVec 16} (hq : s.seq = some q) :
    s.draws ≤ t.draws ∧ t.seq = some (q + BitVec.ofNat 16 (t.draws - s.draws)) := by
  obtain ⟨xs, e, d, _, rfl⟩ := h
  simp [hq]

/-- What a list of enqueues does to the queue, its peak and its flag. -/
theorem enqueueAll_queue (pkts : List Packet) (s : State) :
    s.dq <+: (enqueueAll pkts s).dq ∧ s.dqPeak ≤ (enqueueAll pkts s).dqPeak ∧
    (s.dqLevel ≤ s.dqPeak → (enqueueAll pkts s).dqLevel ≤ (enqueueAll pkts s).dqPeak) ∧
    (s.errDqOvf = true → (enqueueAll pkts s).errDqOvf = true) ∧
    ((enqueueAll pkts s).errDqOvf = true → s.errDqOvf = true ∨ s.params.dqCap.isSome = true) := by
  induction pkts generalizing s with
  | nil => exact ⟨List.prefix_rfl, Nat.le_refl _, id, id, .inl⟩
  | cons pkt pkts ih =>
    obtain ⟨h1, h2, h3, h4, h5⟩ := ih (enqueue pkt s)
    rw [enqueueAll_cons]
    rcases enqueue_cases pkt s with ⟨hf, he⟩ | ⟨hf, he⟩ <;> rw [he] at h1 h2 h3 h4 h5 ⊢
    · refine ⟨(List.prefix_append _ _).trans h1, Nat.le_trans (Nat.le_max_left _ _) h2, fun _ => h3 ?_, h4, h5⟩
      simp only [State.dqLevel, List.length_append, List.length_singleton]
      omega
    · refine ⟨h1, h2, h3, fun _ => h4 rfl, fun _ => .inr ?_⟩
      simp only [queueFull, beq_iff_eq] at hf
      simp [← hf]

theorem Built.queue {s t : State} (h : Built s t) :
    s.dq <+: t.dq ∧ s.dqPeak ≤ t.dqPeak ∧ (s.dqLevel ≤ s.dqPeak → t.dqLevel ≤ t.dqPeak) ∧
    (s.errDqOvf = true → t.errDqOvf = true) ∧
    (t.errDqOvf = true → s.errDqOvf = true ∨ s.params.dqCap.isSome = true) := by
  obtain ⟨xs, e, d, _, rfl⟩ := h
  exact enqueueAll_queue xs s

/-- A list of enqueues puts some of its packets at the tail of the queue, and nothing else (R170, R180). -/
theorem enqueueAll_tail (pkts : List Packet) (s : State) :
    ∃ new, (enqueueAll pkts s).dq = s.dq ++ new ∧ ∀ p ∈ new, p ∈ pkts := by
  induction pkts generalizing s with
  | nil => exact ⟨[], by simp⟩
  | cons pkt pkts ih =>
    obtain ⟨new, h1, h2⟩ := ih (enqueue pkt s)
    rw [enqueueAll_cons, h1]
    rcases enqueue_cases pkt s with ⟨-, he⟩ | ⟨-, he⟩ <;> rw [he]
    · exact ⟨pkt :: new, by simp, fun p hp => by
        rcases List.mem_cons.1 hp with rfl | hp <;> simp [*]⟩
    · exact ⟨new, rfl, fun p hp => by simp [h2 p hp]⟩

/-- What is put at the tail of the queue are packets of legal length (R34). -/
theorem Built.tail {s t : State} (h : Built s t) : ∃ new, t.dq = s.dq ++ new ∧ ∀ p ∈ new, packetSized s.params p := by
  obtain ⟨xs, e, d, hxs, rfl⟩ := h
  obtain ⟨new, h1, h2⟩ := enqueueAll_tail xs s
  exact ⟨new, h1, fun p hp => hxs p (h2 p hp)⟩

/-! ### Capacities and lengths -/

theorem above_eq_false {n : Nat} {c : Option Nat} : above n c = false ↔ ∀ k, c = some k → n ≤ k := by
  cases c <;> simp [above]

/-- A list of enqueues of legal packets keeps the queue within its capacity and its packets legal (R34, R170). -/
theorem enqueueAll_capacity (c : Params) (pkts : List Packet) (hp : ∀ p ∈ pkts, packetSized c p) :
    ∀ s : State, s.params = c → above s.dqLevel s.params.dqCap = false → s.dqLevel ≤ s.dqPeak →
      above s.dqPeak s.params.dqCap = false → (∀ p ∈ s.dq, packetSized c p) →
      above (enqueueAll pkts s).dqLevel s.params.dqCap = false ∧ (enqueueAll pkts s).dqLevel ≤ (enqueueAll pkts s).dqPeak ∧
      above (enqueueAll pkts s).dqPeak s.params.dqCap = false ∧ ∀ p ∈ (enqueueAll pkts s).dq, packetSized c p := by
  induction pkts with
  | nil =>
    intro s _ h1 h2 h3 h4
    exact ⟨h1, h2, h3, h4⟩
  | cons x xs ih =>
    intro s hs h1 h2 h3 h4
    rw [enqueueAll_cons]
    have hx := hp x (by simp)
    have hxs : ∀ p ∈ xs, packetSized c p := fun p h => hp p (by simp [h])
    rcases enqueue_cases x s with ⟨hf, he⟩ | ⟨hf, he⟩ <;> rw [he]
    · have hlt : above (s.dqLevel + 1) s.params.dqCap = false := by
        rw [above_eq_false] at h1 ⊢
        intro k hk
        have := h1 k hk
        simp only [queueFull, hk, beq_eq_false_iff_ne, ne_eq, Option.some.injEq] at hf
        omega
      refine ih hxs { s with dq := s.dq ++ [x], dqPeak := max s.dqPeak (s.dqLevel + 1) } hs ?_ ?_ ?_ ?_
      · simpa [State.dqLevel] using hlt
      · simp [State.dqLevel]
      · rw [above_eq_false] at h3 hlt ⊢
        intro k hk
        exact max_le (h3 k hk) (hlt k hk)
      · intro p hp
        simp only [List.mem_append, List.mem_singleton] at hp
        rcases hp with hp | rfl
        · exact h4 p hp
        · exact hx
    · exact ih hxs { s with errDqOvf := true } hs h1 h2 h3 h4

/-- Every packet of a buffer's units has a legal length (R89). -/
theorem bufferPackets_sized (s : State) (q : BitVec 16) (x : BitVec 32) (au : List Byte) (us : List (Nat × Nat)) :
    ∀ j, ∀ p ∈ bufferPackets s q x au j us, packetSized s.params p := by
  induction us with
  | nil =>
    intro j p hp
    simp [bufferPackets] at hp
  | cons u us ih =>
    obtain ⟨a, b⟩ := u
    intro j p hp
    simp only [bufferPackets, List.mem_append] at hp
    rcases hp with hp | hp
    · simp only [unitPackets, List.mem_map] at hp
      obtain ⟨k, _, rfl⟩ := hp
      have := chunkBytes_length_le s.params au a b k
      rw [packetSized, encodePacket_length]
      simp only [unitPacket]
      by_cases hk : layoutOf (unitCount s.params a b) k = PacketKind.single <;>
        simp only [hk, if_true, if_false] <;> omega
    · exact ih _ p hp

/-! ### Who builds -/

theorem Built.of_afterPackets {s : State} {q : BitVec 16} (hq : s.seq = some q) (xs : List Packet) (e : Nat) (d : Datapath)
    (hs : ∀ p ∈ xs, packetSized s.params p) : Built s (afterPackets s q xs e d) :=
  ⟨xs, e, d, hs, by simp only [afterPackets, hq, Option.map_some]⟩

theorem Built.of_emit {m : Bool} {lead chunk : List Byte} {s t : State} (h : emit m lead chunk s = .next t)
    (h1 : 1 ≤ lead.length) (h2 : lead.length ≤ 2) (h3 : chunk.length ≤ s.params.maxPayload) : Built s t := by
  rcases emit_cases m lead chunk s with ⟨q, x, hq, hx⟩ | he | he
  · rw [emit_eq m lead chunk s q x hq hx] at h
    simp only [Host.Outcome.next.injEq] at h
    subst h
    refine Built.of_afterPackets hq _ 0 _ fun p hp => ?_
    rw [List.mem_singleton.1 hp, packetSized]
    simp only [List.length_append, rtpHeaderBytes_length]
    omega
  · simp [he] at h
  · simp [he] at h

theorem Built.of_readChunk {a b k : Nat} {s t u : State} {f : List Byte → Result}
    (h : readChunk a b k s f = .next t)
    (hf : ∀ bs, bs.length ≤ s.params.maxPayload → f bs = .next t → Built u t) : Built u t := by
  simp only [readChunk, readAu] at h
  split at h
  · next bs hr =>
    refine hf _ ?_ h
    rw [Memory.readRange_length hr]
    simp only [chunkLo, chunkHi]
    omega
  · simp at h

theorem Built.of_emitSingle {a b : Nat} {s t : State} (h : emitSingle a b s = .next t) : Built s t := by
  simp only [emitSingle, readReg_eq_next] at h
  obtain ⟨_, _, h⟩ := h
  refine Built.of_readChunk h fun bs hbs h => ?_
  obtain ⟨u, hu, h⟩ := andThen_eq_next.1 h
  have h1 := (Built.of_dp s (setChunk a b 0 s).dp).trans (Built.of_emit hu (by simp) (by simp) hbs)
  simp only [Host.Outcome.next.injEq] at h
  subst h
  split
  · refine h1.trans ⟨[], 1, u.dp, by simp, ?_⟩
    cases u
    next seq _ _ _ _ _ _ _ _ _ _ _ _ _ => cases seq <;> simp [raise]
  · exact h1

theorem Built.of_emitFragment {a b k : Nat} {s t : State} (h : emitFragment a b k s = .next t) : Built s t := by
  simp only [emitFragment, readReg_eq_next] at h
  obtain ⟨_, _, _, _, _, _, h⟩ := h
  exact Built.of_readChunk h fun bs hbs h => (Built.of_dp s _).trans (Built.of_emit h (by simp) (by simp) hbs)

theorem Built.of_emitFragments {a b : Nat} (r : Nat) :
    ∀ {k : Nat} {s t : State}, emitFragments a b k r s = .next t → Built s t := by
  induction r with
  | zero =>
    intro k s t h
    simp only [emitFragments, Host.Outcome.next.injEq] at h
    exact h ▸ Built.refl s
  | succ r ih =>
    intro k s t h
    obtain ⟨u, hu, h⟩ := andThen_eq_next.1 h
    exact (Built.of_emitFragment hu).trans (ih h)

theorem Built.of_packetizeUnit {a b : Nat} {s t : State} (h : packetizeUnit a b s = .next t) : Built s t := by
  simp only [packetizeUnit] at h
  split at h
  · exact Built.of_emitSingle h
  · exact Built.of_emitFragments _ h

/-- What running on the unit in the registers can answer when the answer is a next state. -/
theorem withUnit_eq_next {s t : State} {f : Nat → Nat → Result} :
    withUnit s f = .next t ↔ ∃ a b, s.dp.nalStart = some a ∧ s.dp.nalEnd = some b ∧ a < b ∧ f a b = .next t := by
  simp only [withUnit, readReg_eq_next]
  constructor
  · rintro ⟨a, ha, b, hb, h⟩
    split at h
    · next hab => exact ⟨a, b, ha, hb, hab, h⟩
    · simp at h
  · rintro ⟨a, b, ha, hb, hab, h⟩
    exact ⟨a, ha, b, hb, by rw [if_pos hab, h]⟩

theorem Built.of_packetize {s t : State} (h : packetize s = .next t) : Built s t := by
  obtain ⟨a, b, _, _, _, h⟩ := withUnit_eq_next.1 h
  exact Built.of_packetizeUnit h

theorem Built.of_classify {s t : State} (h : classify s = .next t) : Built s t := by
  simp only [classify, readReg_eq_next] at h
  obtain ⟨a, _, h⟩ := h
  split at h
  · simp only [Host.Outcome.next.injEq] at h
    exact h ▸ Built.of_dp s _
  · simp at h

theorem Built.of_scanNext (s : State) : Built s (scanNext s) := by
  have : scanNext s = { s with dp := (scanNext s).dp } := by simp only [scanNext]; split <;> rfl
  rw [this]
  exact Built.of_dp s _

theorem Built.of_processUnits (fuel : Nat) : ∀ {s t : State}, processUnits fuel s = .next t → Built s t := by
  induction fuel with
  | zero =>
    intro s t h
    simp only [processUnits, Host.Outcome.next.injEq] at h
    exact h ▸ Built.refl s
  | succ fuel ih =>
    intro s t h
    simp only [processUnits] at h
    split at h
    · simp only [Host.Outcome.next.injEq] at h
      exact h ▸ Built.of_scanNext s
    · obtain ⟨u, hu, h⟩ := andThen_eq_next.1 h
      obtain ⟨v, hv, hu⟩ := andThen_eq_next.1 hu
      exact (Built.of_scanNext s).trans ((Built.of_classify hv).trans ((Built.of_packetize hu).trans (ih h)))

theorem Built.of_processAccessUnit {s t : State} (h : processAccessUnit s = .next t) : Built s t :=
  (Built.of_dp s _).trans (Built.of_processUnits _ h)

end Sys2Proof.Machine
end

