-- ==== Sys2Proof/Laws/Instr.lean ====
section
/-! SUPPORT. Everything an instruction can do when it answers a next state, said once for all of them. -/

namespace Sys2Proof.Machine

/-- Everything a flush can answer when it answers a next state (R112, R115). -/
theorem frFlush_cases {p : List Byte} {s t : State} (h : frFlush p s = .next t) :
    (bufOverflow s p.length = true ∧ t = { s with carry := [], errBufOvf := true }) ∨
    (bufOverflow s p.length = false ∧ ∃ held, Memory.readRange s.carry 0 s.carryLen = some held ∧
      Built { s with au := Memory.ofBytes (held ++ p), carry := [] } t) := by
  unfold frFlush at h
  split at h
  · next ho =>
    simp only [Host.Outcome.next.injEq] at h
    exact .inl ⟨ho, by rw [← h]; rfl⟩
  · next ho =>
    split at h
    · next held hr => exact .inr ⟨by simpa using ho, held, hr, Built.of_processAccessUnit h⟩
    · simp at h

/-- Everything an append can do (R111, R115). -/
theorem frAppend_cases (p : List Byte) (s : State) :
    (bufOverflow s p.length = true ∧ frAppend p s = { s with carry := [], errBufOvf := true }) ∨
    (bufOverflow s p.length = false ∧ frAppend p s = { s with carry := Memory.append s.carry p }) := by
  unfold frAppend
  split
  · next ho => exact .inl ⟨ho, rfl⟩
  · next ho => exact .inr ⟨by simpa using ho, rfl⟩

theorem startTest_next {pat : List Byte → Bool} {w : Nat} {s t : State} (h : startTest pat w s = .next t) :
    ∃ d, t = { s with dp := d } := by
  simp only [startTest, whenConfigured_eq_next, readReg_eq_next] at h
  obtain ⟨_, i, _, h⟩ := h
  split at h <;> simp only [Host.Outcome.next.injEq] at h <;> subst h <;> exact ⟨_, rfl⟩

theorem endTest_next {pat : List Byte → Bool} {s t : State} (h : endTest pat s = .next t) :
    ∃ d, t = { s with dp := d } := by
  simp only [endTest, whenConfigured_eq_next, readReg_eq_next] at h
  obtain ⟨_, i, _, h⟩ := h
  split at h <;> simp only [Host.Outcome.next.injEq] at h <;> subst h <;> exact ⟨_, rfl⟩

/-- Everything an instruction can do when it answers a next state. -/
theorem exec_cases {i : Instr} {s t : State} (h : exec i s = .next t) :
    (i = .reset ∧ t = resetBlock s) ∨ (∃ x, i = .start x ∧ t = beginSession x (stopSession s)) ∨
    (i = .stop ∧ t = stopSession s) ∨
    (i = .pop ∧ (t = s ∨ ∃ pkt rest, s.dq = pkt :: rest ∧ t = { s with dq := rest, sent := s.sent ++ [pkt] })) ∨
    (∃ pkt, i = .enq pkt ∧ packetSized s.params pkt ∧ t = enqueue pkt s) ∨
    (∃ p, (i = .frAppend p ∧ p.length = s.params.fullDgramSize ∧ t = frAppend p s) ∨ (i = .frFlush p ∧ frFlush p s = .next t) ∨
      (i = .dgram p ∧ (t = s ∨ ∃ u, t = { u with dp := {} } ∧ s.sessionActive = true ∧
        ((p.length = s.params.fullDgramSize ∧ u = frAppend p s) ∨ frFlush p s = .next u)))) ∨
    ((i = .packetize ∨ i = .pktSingle ∨ i = .pktFuaS ∨ i = .pktFuaM ∨ i = .pktFuaE) ∧ Built s t) ∨
    ((i = .sc3 ∨ i = .sc4 ∨ i = .bnd0 ∨ i = .bnd1 ∨ (∃ f nri type, i = .nalhdr f nri type) ∨ (∃ len, i = .dgramLen len) ∨
      (∃ m pt seq ts ssrc, i = .rtphdr m pt seq ts ssrc) ∨ (∃ f nri, i = .fuind f nri) ∨
      (∃ type, i = .fuhdrS type ∨ i = .fuhdrM type ∨ i = .fuhdrE type) ∨ i = .scanNext ∨ i = .classify ∨
      ∃ seq ts ssrc m pt, i = .buildHdr seq ts ssrc m pt) ∧ ∃ d, t = { s with dp := d }) := by
  cases i <;> simp only [exec] at h
  case sc3 => simp [startTest_next h]
  case sc4 => simp [startTest_next h]
  case bnd0 => simp [endTest_next h]
  case bnd1 => simp [endTest_next h]
  case nalhdr =>
    simp only [execNalhdr, whenConfigured_eq_next, Host.Outcome.next.injEq] at h
    have : ∃ d, t = { s with dp := d } := ⟨_, h.2.symm⟩
    simp [this]
  case dgramLen =>
    simp only [execDgramLen, whenConfigured_eq_next, Host.Outcome.next.injEq] at h
    have : ∃ d, t = { s with dp := d } := ⟨_, h.2.symm⟩
    simp [this]
  case rtphdr =>
    simp only [execRtphdr, whenConfigured_eq_next, Host.Outcome.next.injEq] at h
    have : ∃ d, t = { s with dp := d } := ⟨_, h.2.symm⟩
    simp [this]
  case fuind =>
    simp only [execFuind, appendToPacket, whenConfigured_eq_next, Host.Outcome.next.injEq] at h
    have : ∃ d, t = { s with dp := d } := ⟨_, h.2.symm⟩
    simp [this]
  case fuhdrS =>
    simp only [execFuhdrS, appendToPacket, whenConfigured_eq_next, Host.Outcome.next.injEq] at h
    have : ∃ d, t = { s with dp := d } := ⟨_, h.2.symm⟩
    simp [this]
  case fuhdrM =>
    simp only [execFuhdrM, appendToPacket, whenConfigured_eq_next, Host.Outcome.next.injEq] at h
    have : ∃ d, t = { s with dp := d } := ⟨_, h.2.symm⟩
    simp [this]
  case fuhdrE =>
    simp only [execFuhdrE, appendToPacket, whenConfigured_eq_next, Host.Outcome.next.injEq] at h
    have : ∃ d, t = { s with dp := d } := ⟨_, h.2.symm⟩
    simp [this]
  case buildHdr =>
    simp only [execBuildHdr, whenConfigured_eq_next, Host.Outcome.next.injEq] at h
    have : ∃ d, t = { s with dp := d } := ⟨_, h.2.symm⟩
    simp [this]
  case scanNext =>
    simp only [execScanNext, whenConfigured_eq_next, Host.Outcome.next.injEq] at h
    have : ∃ d, t = { s with dp := d } := ⟨(scanNext s).dp, by rw [← h.2]; simp only [scanNext]; split <;> rfl⟩
    simp [this]
  case classify =>
    simp only [execClassify, whenConfigured_eq_next, classify, readReg_eq_next] at h
    obtain ⟨_, a, _, h⟩ := h
    have : ∃ d, t = { s with dp := d } := by
      split at h
      · simp only [Host.Outcome.next.injEq] at h; exact ⟨_, h.symm⟩
      · simp at h
    simp [this]
  case packetize =>
    simp only [execPacketize, whenConfigured_eq_next] at h
    simp [Built.of_packetize h.2]
  case pktSingle =>
    simp only [execPktSingle, whenConfigured_eq_next, withUnit_eq_next] at h
    obtain ⟨_, a, b, _, _, _, h⟩ := h
    split at h
    · simp [Built.of_emitSingle h]
    · simp at h
  case pktFuaS =>
    simp only [execPktFuaS, whenConfigured_eq_next, withUnit_eq_next] at h
    obtain ⟨_, a, b, _, _, _, h⟩ := h
    split at h
    · simp [Built.of_emitFragment h]
    · simp at h
  case pktFuaM =>
    simp only [execPktFuaM, whenConfigured_eq_next, withUnit_eq_next, readReg_eq_next] at h
    obtain ⟨_, a, b, _, _, _, k, _, h⟩ := h
    split at h
    · simp [Built.of_emitFragment h]
    · simp at h
  case pktFuaE =>
    simp only [execPktFuaE, whenConfigured_eq_next, withUnit_eq_next, readReg_eq_next] at h
    obtain ⟨_, a, b, _, _, _, k, _, h⟩ := h
    split at h
    · simp [Built.of_emitFragment h]
    · simp at h
  case reset => simp only [execReset, whenConfigured_eq_next, Host.Outcome.next.injEq] at h; simp [h.2.symm]
  case start => simp only [execStart, whenConfigured_eq_next, Host.Outcome.next.injEq] at h; simp [h.2.symm]
  case stop => simp only [execStop, whenConfigured_eq_next, Host.Outcome.next.injEq] at h; simp [h.2.symm]
  case enq =>
    simp only [execEnq, whenConfigured_eq_next] at h
    replace h := h.2
    split at h
    · next hp =>
      simp only [Host.Outcome.next.injEq] at h
      exact .inr <| .inr <| .inr <| .inr <| .inl ⟨_, rfl, hp, h.symm⟩
    · simp at h
  case pop =>
    simp only [execPop, whenConfigured_eq_next] at h
    replace h := h.2
    refine .inr <| .inr <| .inr <| .inl ⟨rfl, ?_⟩
    split at h
    · split at h <;> simp only [Host.Outcome.next.injEq] at h
      · next pkt rest hd => exact .inr ⟨pkt, rest, hd, h.symm⟩
      · exact .inl h.symm
    · simp only [Host.Outcome.next.injEq] at h
      exact .inl h.symm
  case frAppend p =>
    simp only [execFrAppend, whenConfigured_eq_next] at h
    replace h := h.2
    split at h
    · next hl =>
      simp only [Host.Outcome.next.injEq] at h
      have hl' : p.length = s.params.fullDgramSize := by simpa [isFullSize] using hl
      simp [h.symm, hl']
    · simp at h
  case frFlush p =>
    simp only [execFrFlush, whenConfigured_eq_next] at h
    replace h := h.2
    split at h
    · simp at h
    · simp [h]
  case dgram p =>
    simp only [execDgram, whenConfigured_eq_next] at h
    replace h := h.2
    refine .inr <| .inr <| .inr <| .inr <| .inr <| .inl ⟨p, .inr <| .inr ⟨rfl, ?_⟩⟩
    split at h
    · next ha =>
      obtain ⟨u, hu, h⟩ := andThen_eq_next.1 h
      simp only [endOperation, Host.Outcome.next.injEq] at h
      refine .inr ⟨u, h.symm, ha, ?_⟩
      split at hu
      · next hl =>
        simp only [Host.Outcome.next.injEq] at hu
        exact .inl ⟨by simpa [isFullSize] using hl, hu.symm⟩
      · exact .inr hu
    · simp only [Host.Outcome.next.injEq] at h
      exact .inl h.symm

end Sys2Proof.Machine
end

