-- ==== Sys2Proof/Laws/PerInstr.lean ====
section
/-! SUPPORT. Laws about each instruction as syntax: one family, one lemma per constructor. -/

namespace Sys2Proof.Laws.EncodingWidth

/-- How many bytes the opcode table gives the row by itself: its bits divided by 8; none for a row without bits, and for the packet
rows, whose bits are a packet's. -/
def rowBytes : Instr → Option Nat
  | .sc3 => some 3
  | .sc4 => some 4
  | .bnd0 => some 3
  | .bnd1 => some 3
  | .nalhdr _ _ _ => some 1
  | .dgramLen _ => none
  | .rtphdr _ _ _ _ _ => some 12
  | .fuind _ _ => some 1
  | .fuhdrS _ => some 1
  | .fuhdrM _ => some 1
  | .fuhdrE _ => some 1
  | .pktSingle => none
  | .pktFuaS => none
  | .pktFuaM => none
  | .pktFuaE => none
  | .reset => none
  | .start _ => none
  | .stop => none
  | .dgram _ => none
  | .pop => none
  | .frAppend _ => none
  | .frFlush _ => none
  | .scanNext => none
  | .classify => none
  | .buildHdr _ _ _ _ _ => none
  | .packetize => none
  | .enq _ => none

/-- The encoder writes exactly as many bytes as the table gives the row. -/
def Statement (i : Instr) : Prop := (encode i).map List.length = rowBytes i

theorem sc3 : Statement (.sc3) := rfl
theorem sc4 : Statement (.sc4) := rfl
theorem bnd0 : Statement (.bnd0) := rfl
theorem bnd1 : Statement (.bnd1) := rfl
theorem nalhdr (f : BitVec 1) (nri : BitVec 2) (type : BitVec 5) : Statement (.nalhdr f nri type) := rfl
theorem dgramLen (len : Nat) : Statement (.dgramLen len) := rfl
theorem rtphdr (m : Bool) (pt : BitVec 7) (seq : BitVec 16) (ts ssrc : BitVec 32) : Statement (.rtphdr m pt seq ts ssrc) := rfl
theorem fuind (f : BitVec 1) (nri : BitVec 2) : Statement (.fuind f nri) := rfl
theorem fuhdrS (type : BitVec 5) : Statement (.fuhdrS type) := rfl
theorem fuhdrM (type : BitVec 5) : Statement (.fuhdrM type) := rfl
theorem fuhdrE (type : BitVec 5) : Statement (.fuhdrE type) := rfl
theorem pktSingle : Statement (.pktSingle) := rfl
theorem pktFuaS : Statement (.pktFuaS) := rfl
theorem pktFuaM : Statement (.pktFuaM) := rfl
theorem pktFuaE : Statement (.pktFuaE) := rfl
theorem reset : Statement (.reset) := rfl
theorem start (ssrcIn : BitVec 32) : Statement (.start ssrcIn) := rfl
theorem stop : Statement (.stop) := rfl
theorem dgram (payload : List Byte) : Statement (.dgram payload) := rfl
theorem pop : Statement (.pop) := rfl
theorem frAppend (payload : List Byte) : Statement (.frAppend payload) := rfl
theorem frFlush (payload : List Byte) : Statement (.frFlush payload) := rfl
theorem scanNext : Statement (.scanNext) := rfl
theorem classify : Statement (.classify) := rfl
theorem buildHdr (seqV : BitVec 16) (tsV ssrcV : BitVec 32) (m : Bool) (ptV : BitVec 7) : Statement (.buildHdr seqV tsV ssrcV m ptV) := rfl
theorem packetize : Statement (.packetize) := rfl
theorem enq (pkt : Packet) : Statement (.enq pkt) := rfl

end Sys2Proof.Laws.EncodingWidth
end

