-- ==== Sys2Proof/Laws/Time.lean ====
section
/-! SUPPORT. The host's own part of the state, its script and its held time, and the samples a step takes. -/

namespace Sys2Proof.Machine

theorem frFlush_host {p : List Byte} {s t : State} (h : frFlush p s = .next t) :
    t.script = s.script ∧ t.timeHeld = s.timeHeld := by
  rcases frFlush_cases h with ⟨-, rfl⟩ | ⟨-, held, -, hb⟩
  · exact ⟨rfl, rfl⟩
  · exact ⟨hb.script, hb.timeHeld⟩

/-- No instruction touches the script or the held time. -/
theorem exec_host {i : Instr} {s t : State} (h : exec i s = .next t) : t.script = s.script ∧ t.timeHeld = s.timeHeld := by
  rcases exec_cases h with ⟨-, rfl⟩ | ⟨x, -, rfl⟩ | ⟨-, rfl⟩ | ⟨-, rfl | ⟨pkt, rest, -, rfl⟩⟩ | ⟨pkt, -, -, rfl⟩ |
    ⟨p, ⟨-, -, rfl⟩ | ⟨-, hf⟩ | ⟨-, rfl | ⟨u, rfl, -, ⟨-, rfl⟩ | hf⟩⟩⟩ | ⟨-, hb⟩ | ⟨-, d, rfl⟩
  case inr.inr.inr.inr.inr.inl.inr.inl => exact frFlush_host hf
  case inr.inr.inr.inr.inr.inl.inr.inr.inr.inr => exact (frFlush_host hf :)
  case inr.inr.inr.inr.inr.inr.inl => exact ⟨hb.script, hb.timeHeld⟩
  all_goals simp

/-- Under a TIME line every sample is its value (R102). -/
theorem timeAt_of_held {s : State} {v : BitVec 32} (h : s.timeHeld = some v) (j : Nat) : timeAt s j = v := by
  simp [timeAt, h]

/-- Under a TIME line all samples of a step are equal to its value. -/
theorem samplesBetween_of_held {s : State} {v : BitVec 32} (h : s.timeHeld = some v) (t : State) :
    ∀ a ∈ samplesBetween s t, a = v := by
  simp [samplesBetween, timeAt_of_held h]

@[simp] theorem State.after_zero (s : State) : s.after 0 = some s := rfl

/-- The state some steps on, through the first of them. -/
theorem State.after_succ {s t : State} (n : Nat) (h : step s = .next t) : s.after (n + 1) = t.after n := by
  simp only [State.after, h]

end Sys2Proof.Machine
end

