-- ==== Sys2Proof/Tests/Slice0.lean ====
section
/-! SUPPORT. Small tests of the model, and for every statement with hypotheses a concrete state and operands that meet them.
Expected values are the spec's: the encodings of 30_encoding.md, the vectors and programs of 95_test_vectors.md. -/

namespace Sys2Proof.Tests

open Sys2Proof Sys2Proof.Machine

/-! ### Builders -/

/-- The next state of an outcome, if it is one. -/
def got (o : Host.Outcome State Fault Refusal) : Option State :=
  match o with
  | .next s => some s
  | .fault _ => none
  | .refused _ => none

/-- A session with chunks of at most 3 bytes and full datagrams of 4, as in 95_test_vectors.md 2.5: `seq` 10, `ssrc` 0, time 0. -/
def session : State :=
  { State.reset with
    params := { fullDgramSize := 4, maxPayload := 3 }
    sessionActive := true, seq := some 10#16, ssrc := some 0#32, timeHeld := some 0#32 }

/-- The session with `bs` in `AU`. -/
def withAu (bs : List Byte) : State := { session with au := Memory.ofBytes bs }

/-- The session with the unit of header byte `h` and body `body` in `AU` from offset 1 on, classified. -/
def withUnitIn (h : Byte) (body : List Byte) : State :=
  { withAu (0xEE#8 :: h :: body) with
    dp := { nalStart := some 1, nalEnd := some (2 + body.length), hdr := some h, f := some (nalF h), nri := some (nalNri h),
            type := some (nalType h) } }

/-- The RTP header of the vectors of 95_test_vectors.md 2.5. -/
def header (byte1 seqLow : Byte) : List Byte :=
  [0x80#8, byte1, 0x00#8, seqLow, 0x00#8, 0x00#8, 0x00#8, 0x00#8, 0x00#8, 0x00#8, 0x00#8, 0x00#8]

/-! ### Well-formedness: the ill-formed terms are refused -/

theorem test_wellFormed_enq :
    Instr.wellFormed (.enq (List.replicate 12 0#8)) = false ∧ Instr.wellFormed (.enq (List.replicate 13 0#8)) = true := by
  decide

theorem test_wellFormed_append :
    Instr.wellFormed (.frAppend []) = false ∧ Instr.wellFormed (.frAppend [0#8]) = true := by decide

theorem test_illFormed_line_is_refused :
    (match step { State.reset with script := [.op (.enq [])] } with
      | .refused .illFormed => true
      | _ => false) = true := by decide

/-! ### Decoding: words written out bit by bit from the spec's encodings -/

/-- `SC3` 00000000 00000000 00000001 and `SC4` (R76, R77). -/
theorem test_decode_start_codes :
    decodeAs .startSearch [0b00000000#8, 0b00000000#8, 0b00000001#8] = .ok .sc3 ∧
    decodeAs .startSearch [0b00000000#8, 0b00000000#8, 0b00000000#8, 0b00000001#8] = .ok .sc4 := by decide

/-- `BND0` and `BND1` (R78); 00 00 02 is no pattern (R94). -/
theorem test_decode_boundaries :
    decodeAs .endSearch [0b00000000#8, 0b00000000#8, 0b00000000#8] = .ok .bnd0 ∧
    decodeAs .endSearch [0b00000000#8, 0b00000000#8, 0b00000001#8] = .ok .bnd1 ∧
    decodeAs .endSearch [0b00000000#8, 0b00000000#8, 0b00000010#8] = .error .notAPattern := by decide

/-- `NALHDR` `fnnttttt` with f = 1, nn = 01, ttttt = 00111 (R79). -/
theorem test_decode_nalhdr : decodeAs .nalHeader [0b10100111#8] = .ok (.nalhdr 1#1 1#2 7#5) := by decide

/-- `FUIND` `fnn11100` (R83). -/
theorem test_decode_fuind :
    decodeAs .fuInd [0b11011100#8] = .ok (.fuind 1#1 2#2) ∧ decodeAs .fuInd [0b11011101#8] = .error .badFuIndicator := by decide

/-- `FUHDR`: `100ttttt`, `000ttttt`, `010ttttt` (R84). -/
theorem test_decode_fuhdr :
    decodeAs .fuHdr [0b10000101#8] = .ok (.fuhdrS 5#5) ∧ decodeAs .fuHdr [0b00010110#8] = .ok (.fuhdrM 22#5) ∧
    decodeAs .fuHdr [0b01011111#8] = .ok (.fuhdrE 31#5) ∧ decodeAs .fuHdr [0b11000001#8] = .error .badFuHeader := by decide

/-- `RTPHDR`: HV1 of 95_test_vectors.md 2.3. -/
theorem test_decode_rtphdr :
    decodeAs .rtpHeader
      [0x80#8, 0xE0#8, 0x12#8, 0x34#8, 0x00#8, 0x00#8, 0x03#8, 0xE8#8, 0x00#8, 0xAB#8, 0xCD#8, 0xEF#8] =
        .ok (.rtphdr true 96#7 0x1234#16 0x000003E8#32 0x00ABCDEF#32) := by decide

/-- The packet rows: PB3, and the three fragments of PB6 (95_test_vectors.md 2.5). -/
theorem test_decode_packets :
    decodeAs .packet (header 0xE0#8 0x0A#8 ++ [0x65#8, 0xA1#8, 0xA2#8, 0xA3#8]) = .ok .pktSingle ∧
    decodeAs .packet (header 0x60#8 0x0A#8 ++ [0x7C#8, 0x85#8, 0xA1#8, 0xA2#8, 0xA3#8]) = .ok .pktFuaS ∧
    decodeAs .packet (header 0x60#8 0x0B#8 ++ [0x7C#8, 0x05#8, 0xA4#8, 0xA5#8, 0xA6#8]) = .ok .pktFuaM ∧
    decodeAs .packet (header 0xE0#8 0x0C#8 ++ [0x7C#8, 0x45#8, 0xA7#8]) = .ok .pktFuaE ∧
    decodeAs .packet (header 0xE0#8 0x0B#8 ++ [0x7C#8, 0x05#8, 0xA4#8]) = .error .badMarker := by decide

/-- A table word runs as the first instruction after reset (30_encoding.md R104: most significant bit of the first byte first). -/
theorem test_table_word_runs :
    decodeTableWord 32 1 = some .sc4 ∧
    (got (step (State.reset.withFetchWord 32 1))).map (fun t => t.dp.nalStart) = some (some 4) := by decide

/-! ### The scanner (95_test_vectors.md 2.1) -/

/-- SV1 to SV6, SV10, SV13. -/
theorem test_scanAll_short_buffers :
    scanAll [] = [] ∧
    scanAll [0#8, 0#8, 1#8] = [] ∧
    scanAll [0#8, 0#8, 1#8, 0x65#8] = [(3, 4)] ∧
    scanAll [0#8, 0#8, 0#8, 1#8, 0x65#8] = [(4, 5)] ∧
    scanAll [0xAA#8, 0#8, 0#8, 1#8, 0x65#8] = [] ∧
    scanAll [0xAA#8, 0#8, 0#8, 1#8, 0x65#8, 0x11#8] = [(4, 6)] ∧
    scanAll [0#8, 0#8, 1#8, 0#8, 0#8, 1#8, 0x65#8, 0x11#8] = [(6, 8)] ∧
    scanAll [0#8, 0#8, 1#8, 0x65#8, 0x11#8, 0#8, 0#8, 0#8] = [(3, 5)] := by decide

/-- SV9 and SV22. -/
theorem test_scanAll_several_units :
    scanAll [0#8, 0#8, 0#8, 1#8, 0x67#8, 0x42#8, 0#8, 0#8, 0#8, 1#8, 0x68#8, 0xCE#8, 0#8, 0#8, 0#8, 1#8, 0x65#8, 0x88#8, 0x84#8] =
      [(4, 6), (10, 12), (16, 19)] ∧
    scanAll [0#8, 0#8, 1#8, 0x41#8, 0#8, 0#8, 0#8, 1#8, 0x42#8, 0xBB#8] = [(3, 4), (8, 10)] := by decide

/-- SV13 on the registers: the unit, then Done with `p` at the end of the last unit. -/
theorem test_scanNext :
    (got (exec .scanNext { withAu [0#8, 0#8, 1#8, 0x65#8, 0x11#8, 0#8, 0#8, 0#8] with dp := { p := some 0 } })).map
      (fun t => [t.dp.nalStart, t.dp.nalEnd, t.dp.p, t.dp.i]) = some [some 3, some 5, some 5, some 5] ∧
    (got (exec .scanNext { withAu [0#8, 0#8, 1#8, 0x65#8, 0x11#8, 0#8, 0#8, 0#8] with dp := { p := some 5 } })).map
      (fun t => (t.dp.p, t.dp.scanDone)) = some (some 5, some true) := by decide

/-! ### The classifier and the header builder (95_test_vectors.md 2.2, 2.3) -/

/-- CV4 and CV7. -/
theorem test_classify :
    (got (exec .classify { withAu [0#8, 0x85#8] with dp := { nalStart := some 1 } })).map
      (fun t => (t.dp.nri, t.dp.type, t.dp.isIdr)) = some (some 0#2, some 5#5, some true) ∧
    (got (exec .classify { withAu [0xFF#8] with dp := { nalStart := some 0 } })).map
      (fun t => (t.dp.nri, t.dp.type, t.dp.isIdr)) = some (some 3#2, some 31#5, some false) := by decide

/-- HV3 and HV5. -/
theorem test_buildHdr :
    (got (exec (.buildHdr 0xFFFF#16 0xFFFFFFFF#32 0xFFFFFFFF#32 true 96#7) session)).map (fun t => t.dp.pkt) =
      some [0x80#8, 0xE0#8, 0xFF#8, 0xFF#8, 0xFF#8, 0xFF#8, 0xFF#8, 0xFF#8, 0xFF#8, 0xFF#8, 0xFF#8, 0xFF#8] ∧
    (got (exec (.buildHdr 1#16 2#32 3#32 true 127#7) session)).map (fun t => t.dp.pkt) =
      some [0x80#8, 0xFF#8, 0#8, 1#8, 0#8, 0#8, 0#8, 2#8, 0#8, 0#8, 0#8, 3#8] := by decide

/-! ### The packetizer (95_test_vectors.md 2.5) -/

/-- PB1: a header byte alone. -/
theorem test_packetize_empty_body :
    (got (exec .packetize (withUnitIn 0x65#8 []))).map (fun t => (t.dq, t.seq, t.nEmptyNal)) =
      some ([header 0xE0#8 0x0A#8 ++ [0x65#8]], some 11#16, 1#32) := by decide

/-- PB6: a start, a middle and an end fragment. -/
theorem test_packetize_three_fragments :
    (got (exec .packetize (withUnitIn 0x65#8 [0xA1#8, 0xA2#8, 0xA3#8, 0xA4#8, 0xA5#8, 0xA6#8, 0xA7#8]))).map
        (fun t => (t.dq, t.seq, t.nEmptyNal)) =
      some ([header 0x60#8 0x0A#8 ++ [0x7C#8, 0x85#8, 0xA1#8, 0xA2#8, 0xA3#8],
             header 0x60#8 0x0B#8 ++ [0x7C#8, 0x05#8, 0xA4#8, 0xA5#8, 0xA6#8],
             header 0xE0#8 0x0C#8 ++ [0x7C#8, 0x45#8, 0xA7#8]], some 13#16, 0#32) := by decide

/-- The number wraps between two packets (R166). -/
theorem test_packetize_wraps :
    (got (exec .packetize { withUnitIn 0x65#8 [0xA1#8, 0xA2#8, 0xA3#8, 0xA4#8] with seq := some 0xFFFF#16 })).map
      (fun t => (t.dq.map (fun pkt => (pkt.drop 2).take 2), t.seq)) = some ([[0xFF#8, 0xFF#8], [0#8, 0#8]], some 1#16) := by decide

/-! ### Framing, session and queue (95_test_vectors.md 2.6, 2.7) -/

/-- FV3 and FV6 in the small: an empty datagram and a longer one flush, a full one appends. -/
theorem test_dgram_framing :
    (got (exec (.dgram []) session)).map (fun t => (t.carryLen, t.auLen, t.dqLevel)) = some (0, 0, 0) ∧
    (got (exec (.dgram [1#8, 2#8, 3#8, 4#8, 5#8]) session)).map (fun t => (t.carryLen, t.auLen)) = some (0, 5) ∧
    (got (exec (.dgram [1#8, 2#8, 3#8, 4#8]) session)).map (fun t => (t.carryLen, t.auLen)) = some (4, 0) := by decide

/-- Carry-over first, then the datagram; the unit of the joined buffer is sent. -/
theorem test_dgram_joins :
    (got (exec (.dgram [0x65#8, 0xA1#8]) { session with carry := Memory.ofBytes [0#8, 0#8, 0#8, 1#8] })).map
      (fun t => (t.carryLen, Memory.bytes t.au, t.dq)) =
        some (0, [0#8, 0#8, 0#8, 1#8, 0x65#8, 0xA1#8], [header 0xE0#8 0x0A#8 ++ [0x65#8, 0xA1#8]]) := by decide

/-- POP sends the head; on an empty queue it holds (QV1). -/
theorem test_pop :
    (got (exec .pop { session with dq := [[1#8], [2#8]] })).map (fun t => (t.dq, t.sent)) = some ([[2#8]], [[1#8]]) ∧
    got (exec .pop session) = some session := by decide

/-- STOP then POP: queued packets are never sent, the counters stay. -/
theorem test_stop :
    (got (exec .stop { session with dq := [[1#8]], dqPeak := 1, nEmptyNal := 3#32, errDqOvf := true })).map
      (fun t => (t.sessionActive, t.dq, t.sent, t.seq)) = some (false, [], [], none) ∧
    (got (exec .stop { session with dq := [[1#8]], dqPeak := 1, nEmptyNal := 3#32, errDqOvf := true })).map
      (fun t => (t.dqPeak, t.nEmptyNal, t.errDqOvf)) = some (1, 3#32, true) := by decide

/-- START keeps the fault flags, RESET clears them. -/
theorem test_flags_across_start_and_reset :
    (got (exec (.start 7#32) { session with errBufOvf := true })).map (fun t => (t.errBufOvf, t.ssrc, t.seq)) =
      some (true, some 7#32, some 0#16) ∧
    (got (exec .reset { session with errBufOvf := true })).map (fun t => (t.errBufOvf, t.ssrc, t.seq)) =
      some (false, none, none) := by decide

/-- A full queue loses the packet but not its number (R180). -/
theorem test_queue_overflow :
    (got (exec .pktSingle { withUnitIn 0x65#8 [0xA1#8] with
        params := { fullDgramSize := 4, maxPayload := 3, dqCap := some 0 } })).map
      (fun t => (t.dq, t.seq, t.errDqOvf)) = some ([], some 11#16, true) := by decide

/-- A store capacity that is exceeded (R115). -/
theorem test_buffer_overflow :
    (got (exec (.dgram [1#8]) { session with
        params := { fullDgramSize := 4, maxPayload := 3, bufCap := some 4 }, carry := Memory.ofBytes [1#8, 2#8, 3#8, 4#8] })).map
      (fun t => (t.carryLen, t.errBufOvf)) = some (0, true) := by decide

/-- One line of a script: CONFIG with unset names, then the limits of `PT`. -/
theorem test_config_line :
    (got (step { State.reset with script := [.config { maxPayload := some 3, pt := some 127 }] })).map (fun t => t.params) =
      some { maxPayload := 3, pt := 127#7 } ∧
    got (step { State.reset with script := [.config { pt := some 128 }] }) = none := by decide

/-! ### Invariant and canonical form -/

theorem test_reset_memory_is_canonical : Memory.wf State.reset.carry = true ∧ Memory.wf State.reset.au = true := by decide

/-- A store that misses an offset, or lists one twice, is not in canonical form. -/
theorem test_wf_refuses :
    Memory.wf [(1, 0#8)] = false ∧ Memory.wf [(0, 0#8), (0, 0#8)] = false ∧ Memory.wf [(0, 0#8), (1, 0#8)] = true := by decide

/-- A running state: a session, a carry-over, a queued packet, finite capacities, and lines to come. -/
def running : State :=
  { session with
    params := { fullDgramSize := 4, maxPayload := 3, bufCap := some 8, dgramMax := some 8, dqCap := some 2 }
    carry := Memory.ofBytes [0#8, 0#8, 1#8, 0x65#8]
    dq := [header 0xE0#8 0x09#8 ++ [0x41#8]], dqPeak := 2, errDqOvf := true
    script := [.op (.dgram [0xA1#8, 0xA2#8, 0xA3#8, 0xA4#8, 0xA5#8]), .drain] }

theorem test_inv_of_running : running.Inv := by constructor <;> decide

/-- The overflowing flush of `running` is a step to a next state. -/
theorem test_step_of_running : (got (step running)).map (fun t => (t.carryLen, t.errBufOvf)) = some (0, true) := by decide

/-! ### The premises of the statements are met

One theorem for each statement with premises: a concrete state and operands that meet all of them together, and, where the
statement has several clauses, one for each at the edge of its range. -/

theorem test_premises_DecodeOfEncode :
    encode (.rtphdr true 127#7 0xFFFF#16 0#32 1#32) =
      some [0x80#8, 0xFF#8, 0xFF#8, 0xFF#8, 0#8, 0#8, 0#8, 0#8, 0#8, 0#8, 0#8, 1#8] ∧
    formatOf (.rtphdr true 127#7 0xFFFF#16 0#32 1#32) = some .rtpHeader := by decide

theorem test_premises_EncodeOfDecode : Format.fuHdr ≠ .packet ∧ decodeAs .fuHdr [0x5F#8] = .ok (.fuhdrE 31#5) := by decide

/-- A single packet of type 28 with no body (the edge of the first clause), one of type 5 with a body, and a decoded fragment. -/
theorem test_premises_PacketDecodeOfEncode :
    (let x : PacketFields :=
      { kind := .single, pt := 96#7, seq := 0#16, ts := 0#32, ssrc := 0#32, f := 0#1, nri := 3#2, type := 28#5, chunk := [] }
     (x.kind = .single → x.type ≠ 28#5 ∨ x.chunk = []) ∧ decodePacket (encodePacket x) = .ok x) ∧
    (let x : PacketFields :=
      { kind := .single, pt := 96#7, seq := 0#16, ts := 0#32, ssrc := 0#32, f := 0#1, nri := 3#2, type := 5#5, chunk := [1#8] }
     (x.kind = .single → x.type ≠ 28#5 ∨ x.chunk = []) ∧ decodePacket (encodePacket x) = .ok x) ∧
    decodePacket (header 0xE0#8 0x0C#8 ++ [0x7C#8, 0x45#8, 0xA7#8]) =
      .ok { kind := .fuaE, pt := 96#7, seq := 12#16, ts := 0#32, ssrc := 0#32, f := 0#1, nri := 3#2, type := 5#5,
            chunk := [0xA7#8] } := by decide

theorem test_premises_PatternPredicates :
    match4 (([0xAA#8, 0#8, 0#8, 0#8, 1#8] : List Byte).drop 1) = true ∧
    match3 1#8 (([0xAA#8, 0#8, 0#8, 0#8, 1#8] : List Byte).drop 2) = true := by decide

/-- The search from the first offset, and from the offset `L`. -/
theorem test_premises_FindStartIsFirst :
    (0 ≤ ([0xAA#8, 0#8, 0#8, 1#8, 0x65#8, 0x11#8] : List Byte).length ∧
      (findStart [0xAA#8, 0#8, 0#8, 1#8, 0x65#8, 0x11#8] 0).1 = some 4) ∧
    (6 ≤ ([0xAA#8, 0#8, 0#8, 1#8, 0x65#8, 0x11#8] : List Byte).length ∧
      (findStart [0xAA#8, 0#8, 0#8, 1#8, 0x65#8, 0x11#8] 6).1 = none) := by decide

/-- A unit that ends at a boundary pattern, and one whose first byte is the last of the buffer. -/
theorem test_premises_FindEndIsFirst :
    (3 < ([0#8, 0#8, 1#8, 0x67#8, 0x42#8, 0#8, 0#8, 1#8, 0x68#8] : List Byte).length ∧
      (findEnd [0#8, 0#8, 1#8, 0x67#8, 0x42#8, 0#8, 0#8, 1#8, 0x68#8] 3).1 = 5) ∧
    (8 < ([0#8, 0#8, 1#8, 0x67#8, 0x42#8, 0#8, 0#8, 1#8, 0x68#8] : List Byte).length ∧
      (findEnd [0#8, 0#8, 1#8, 0x67#8, 0x42#8, 0#8, 0#8, 1#8, 0x68#8] 8).1 = 9) := by decide

/-- A unit, Done with a start code at the very end, Done with none, and an empty range searched on from its end. -/
theorem test_premises_ScanStepFollowsLoop :
    0 ≤ ([0#8, 0#8, 1#8, 0#8, 0#8, 1#8, 0x65#8] : List Byte).length ∧
    (scanStep [0#8, 0#8, 1#8, 0#8, 0#8, 1#8, 0x65#8] 0).unit = some (6, 7) ∧
    (scanStep [0#8, 0#8, 1#8, 0#8, 0#8, 1#8, 0x65#8] 3).unit = some (6, 7) ∧
    (scanStep [0#8, 0#8, 1#8, 0#8, 0#8, 1#8, 0x65#8] 7).unit = none ∧
    findStart [0#8, 0#8, 1#8] 0 = (some 3, 0) ∧ (scanStep [0#8, 0#8, 1#8] 0).unit = none := by decide

theorem test_premises_ScanTerminates :
    0 ≤ ([0#8, 0#8, 1#8, 0x65#8] : List Byte).length ∧ (scanStep [0#8, 0#8, 1#8, 0x65#8] 0).unit.isSome = true := by decide

theorem test_premises_ScanAllInOrder :
    0 ≤ ([0#8, 0#8, 1#8, 0x65#8] : List Byte).length ∧ (3, 4) ∈ scanAll [0#8, 0#8, 1#8, 0x65#8] := by decide

/-- Two payloads, the last of which ends in two zero bytes. -/
theorem test_premises_ScannerFindsEveryUnit :
    (∀ u ∈ ([[0x67#8, 0x42#8], [0x68#8, 0#8, 0#8]] : List (List Byte)), u ≠ [] ∧ ∀ j < 3, isBoundary (u.drop j) = false) ∧
    (∀ u ∈ ([[0x67#8, 0x42#8], [0x68#8, 0#8, 0#8]] : List (List Byte)), ∀ j, isBoundary (u.drop j) = false) ∧
    (∀ u ∈ ([[0x67#8, 0x42#8], [0x68#8, 0#8, 0#8]] : List (List Byte)).dropLast, u.getLast? ≠ some 0#8) := by
  refine ⟨by decide, ?_, by decide⟩
  intro u hu j
  simp only [List.mem_cons, List.not_mem_nil, or_false] at hu
  rcases hu with rfl | rfl <;> match j with
    | 0 | 1 | 2 => decide
    | j + 3 => simp [isBoundary, match3]

/-- A code at the index, and none. -/
theorem test_premises_StartCodeRows :
    (let s := { withAu [0xAA#8, 0#8, 0#8, 0#8, 1#8] with dp := { i := some 2 } }
     s.Configured ∧ Memory.wf s.au = true ∧ s.dp.i = some 2 ∧ (got (exec .sc3 s)).map (fun t => t.dp.nalStart) = some (some 5)) ∧
    (let s := { withAu [0xAA#8, 0#8, 0#8, 0#8, 1#8] with dp := { i := some 3 } }
     s.Configured ∧ Memory.wf s.au = true ∧ s.dp.i = some 3 ∧ got (exec .sc4 s) = some s) := by decide

theorem test_premises_BoundaryRows :
    (let s := { withAu [0xAA#8, 0#8, 0#8, 0#8, 1#8] with dp := { i := some 1 } }
     s.Configured ∧ Memory.wf s.au = true ∧ s.dp.i = some 1 ∧ (got (exec .bnd0 s)).map (fun t => t.dp.nalEnd) = some (some 1)) ∧
    (let s := { withAu [0xAA#8, 0#8, 0#8, 0#8, 1#8] with dp := { i := some 2 } }
     s.Configured ∧ Memory.wf s.au = true ∧ s.dp.i = some 2 ∧ (got (exec .bnd1 s)).map (fun t => t.dp.nalEnd) = some (some 2)) := by
  decide

/-- A scan pointer at `L`, and no scan pointer. -/
theorem test_premises_ScanNextWritesRegisters :
    (let s := { withAu [0#8, 0#8, 1#8, 0x65#8] with dp := { p := some 4 } }
     s.Configured ∧ (s.dp.p = some 4 ∨ (s.dp.p = none ∧ 4 = 0)) ∧ 4 ≤ s.auLen) ∧
    (let s := withAu [0#8, 0#8, 1#8, 0x65#8]
     s.Configured ∧ (s.dp.p = some 0 ∨ (s.dp.p = none ∧ 0 = 0)) ∧ 0 ≤ s.auLen) := by decide

theorem test_premises_ClassifyExtractsFields :
    let s := { withAu [0xAA#8, 0x65#8] with dp := { nalStart := some 1 } }
    s.Configured ∧ s.dp.nalStart = some 1 ∧ Memory.read s.au 1 = some 0x65#8 := by decide

/-- `Configured` alone: HeaderAndLengthRows, FormatRowsBuildThePacket, BuildHeaderChangesNothingElse, ResetLeavesNothing,
StartOpensASession; and the session clause of StartOpensASession. -/
theorem test_premises_configured : session.Configured ∧ session.sessionActive = true ∧ State.reset.Configured := by decide

/-- Bodies of 0, `MAX_PAYLOAD` and `MAX_PAYLOAD + 1` bytes. -/
theorem test_premises_ChunkCountIsCeiling :
    1 ≤ session.params.maxPayload ∧ 5 < 6 ∧ unitCount session.params 5 6 = 1 ∧
    5 < 9 ∧ unitCount session.params 5 9 = 1 ∧ 5 < 10 ∧ unitCount session.params 5 10 = 2 := by decide

/-- ChunksPartitionTheBody, PacketLengths, UnitPacketsProperties and ReceiverRebuildsTheUnit on the unit of PB6, and on the
degenerate unit of PB1. -/
theorem test_premises_of_a_unit :
    (let au : List Byte := [0xEE#8, 0x65#8, 0xA1#8, 0xA2#8, 0xA3#8, 0xA4#8, 0xA5#8, 0xA6#8, 0xA7#8]
     1 ≤ session.params.maxPayload ∧ 1 < 9 ∧ 9 ≤ au.length ∧ au[1]? = some 0x65#8 ∧
     2 ≤ (unitPackets session 10#16 0#32 au 0x65#8 1 9 0).length ∧
     (unitPackets session 10#16 0#32 au 0x65#8 1 9 0)[2]? = some (header 0xE0#8 0x0C#8 ++ [0x7C#8, 0x45#8, 0xA7#8])) ∧
    (let au : List Byte := [0xEE#8, 0x65#8]
     1 ≤ session.params.maxPayload ∧ 1 < 2 ∧ 2 ≤ au.length ∧ au[1]? = some 0x65#8 ∧
     (unitPackets session 10#16 0#32 au 0x65#8 1 2 0).length = 1) := by decide

theorem test_premises_PacketsAreNumberedInOrder :
    (unitPackets session 0xFFFF#16 0#32 [0x65#8, 1#8, 2#8, 3#8, 4#8] 0x65#8 0 5 0)[1]? =
      some (header 0xE0#8 0x00#8 ++ [0x7C#8, 0x45#8, 4#8]) := by decide

/-- PacketizeEmitsTheUnit, and PktSingleEmits with a body of exactly `MAX_PAYLOAD` bytes. -/
theorem test_premises_PktSingleEmits :
    let s := withUnitIn 0x65#8 [1#8, 2#8, 3#8]
    s.Configured ∧ Memory.wf s.au = true ∧ s.HoldsUnit 1 5 0x65#8 ∧ s.Numbered 10#16 0#32 ∧ 5 - 1 - 1 ≤ s.params.maxPayload ∧
    (got (exec .pktSingle s)).map (fun t => t.dq) = some [header 0xE0#8 0x0A#8 ++ [0x65#8, 1#8, 2#8, 3#8]] := by decide

/-- Two chunks: the start and, after it, the end. -/
theorem test_premises_FragmentRowsEmit_two :
    let s := { withUnitIn 0x65#8 [1#8, 2#8, 3#8, 4#8] with dp := { (withUnitIn 0x65#8 [1#8, 2#8, 3#8, 4#8]).dp with k := some 0 } }
    s.Configured ∧ Memory.wf s.au = true ∧ s.HoldsUnit 1 6 0x65#8 ∧ s.Numbered 10#16 0#32 ∧
    2 ≤ unitCount s.params 1 6 ∧ s.dp.k = some 0 ∧ 0 + 2 = unitCount s.params 1 6 ∧
    (got (exec .pktFuaE s)).map (fun t => t.dq) = some [header 0xE0#8 0x0A#8 ++ [0x7C#8, 0x45#8, 4#8]] := by decide

/-- Three chunks: the middle one. -/
theorem test_premises_FragmentRowsEmit_three :
    let s := { withUnitIn 0x65#8 [1#8, 2#8, 3#8, 4#8, 5#8, 6#8, 7#8] with
      dp := { (withUnitIn 0x65#8 [1#8, 2#8, 3#8, 4#8, 5#8, 6#8, 7#8]).dp with k := some 0 } }
    s.Configured ∧ Memory.wf s.au = true ∧ s.HoldsUnit 1 9 0x65#8 ∧ s.Numbered 10#16 0#32 ∧
    s.dp.k = some 0 ∧ 0 + 2 < unitCount s.params 1 9 ∧
    (got (exec .pktFuaM s)).map (fun t => t.dq) = some [header 0x60#8 0x0A#8 ++ [0x7C#8, 0x05#8, 4#8, 5#8, 6#8]] := by decide

/-- A queue one below its capacity, and at it; the shortest and the longest packet. -/
theorem test_premises_EnqueueAppendsOrOverflows :
    (packetSized session.params (List.replicate 13 0#8) ∧ packetSized session.params (List.replicate 17 0#8)) ∧
    (let s := { session with params := { dqCap := some 1 } }
     s.Configured ∧ s.params.dqCap ≠ some s.dqLevel) ∧
    (let s := { session with params := { dqCap := some 1 }, dq := [[0#8]] }
     s.Configured ∧ s.params.dqCap = some s.dqLevel) := by decide

theorem test_premises_PopSendsTheHead :
    let s := { session with dq := [[1#8]] }
    s.Configured ∧ s.sessionActive = true ∧ s.dq = [1#8] :: [] := by decide

/-- No session, and a session with an empty queue. -/
theorem test_premises_PopHoldsWhenDisabled :
    (State.reset.Configured ∧ (State.reset.sessionActive = false ∨ State.reset.dqLevel = 0)) ∧
    (session.Configured ∧ (session.sessionActive = false ∨ session.dqLevel = 0)) ∧
    (let s := { State.reset with dq := [[1#8]] }
     s.Configured ∧ (s.sessionActive = false ∨ s.dqLevel = 0)) := by decide

theorem test_premises_ResetLeavesNothing_flags :
    Instr.stop ≠ .reset ∧ (∃ t, exec .stop { session with errBufOvf := true, errDqOvf := true } = .next t) :=
  ⟨by decide, _, rfl⟩

theorem test_premises_StopDiscardsTheSession :
    (session.Configured ∧ session.sessionActive = true) ∧ (State.reset.Configured ∧ State.reset.sessionActive = false) := by decide

/-- Outside a session, and in one with a datagram of `FULL_DGRAM_SIZE` bytes and one byte more. -/
theorem test_premises_DatagramLengthSelects :
    (State.reset.Configured ∧ State.reset.sessionActive = false) ∧
    (session.Configured ∧ session.sessionActive = true ∧ [1#8, 2#8, 3#8, 4#8].length = session.params.fullDgramSize) ∧
    [1#8, 2#8, 3#8, 4#8, 5#8].length ≠ session.params.fullDgramSize := by decide

/-- An append that fills `BUF_CAP` to the last byte. -/
theorem test_premises_AppendWritesAfterTheCarry :
    let s := { running with params := { running.params with dgramMax := some 4 } }
    s.Configured ∧ s.StoresWf ∧ [1#8, 2#8, 3#8, 4#8].length = s.params.fullDgramSize ∧
    above [1#8, 2#8, 3#8, 4#8].length s.params.dgramMax = false ∧
    above (s.carryLen + [1#8, 2#8, 3#8, 4#8].length) s.params.bufCap = false := by decide

/-- One byte above `DGRAM_MAX` in an append, and one byte above `BUF_CAP` in a flush. -/
theorem test_premises_BufferOverflowDiscards :
    (let s := { session with params := { fullDgramSize := 4, dgramMax := some 3 } }
     s.Configured ∧ (above 4 s.params.dgramMax = true ∨ above (s.carryLen + 4) s.params.bufCap = true) ∧
     [1#8, 2#8, 3#8, 4#8].length = s.params.fullDgramSize) ∧
    (let s := { session with params := { fullDgramSize := 4, bufCap := some 4 } }
     s.Configured ∧ (above 5 s.params.dgramMax = true ∨ above (s.carryLen + 5) s.params.bufCap = true) ∧
     [1#8, 2#8, 3#8, 4#8, 5#8].length ≠ s.params.fullDgramSize) := by decide

/-- FlushEmitsTheAccessUnit and DatagramFlushIsOneStep: the empty datagram, with a carry-over that fills `BUF_CAP`. -/
theorem test_premises_FlushEmitsTheAccessUnit :
    let s := { running with params := { running.params with bufCap := some 4 } }
    s.Configured ∧ s.StoresWf ∧ s.sessionActive = true ∧ s.Numbered 10#16 0#32 ∧
    ([] : List Byte).length ≠ s.params.fullDgramSize ∧ above ([] : List Byte).length s.params.dgramMax = false ∧
    above (s.carryLen + ([] : List Byte).length) s.params.bufCap = false ∧
    (got (exec (.dgram []) s)).map (fun t => (t.carryLen, t.dqLevel)) = some (0, 2) := by decide

/-- ENQ of 12 bytes and of 18, where `MAX_PAYLOAD` is 3: neither is a packet (10_state.md R34). -/
theorem test_premises_SubOperationsNotSelected_enq :
    session.Configured ∧ (List.replicate 12 0#8).length < 13 ∧
    14 + session.params.maxPayload < (List.replicate 18 (0#8 : Byte)).length ∧
    (match exec (.enq (List.replicate 18 0#8)) session with
      | .refused (.notAPacket n) => n
      | _ => 0) = 18 := by decide

/-- Bodies just above and just at `MAX_PAYLOAD`, and the last fragment already emitted. -/
theorem test_premises_SubOperationsNotSelected :
    (session.Configured ∧ [1#8].length ≠ session.params.fullDgramSize ∧
      [1#8, 2#8, 3#8, 4#8].length = session.params.fullDgramSize) ∧
    (let s := withUnitIn 0x65#8 [1#8, 2#8, 3#8, 4#8]
     s.Configured ∧ s.dp.nalStart = some 1 ∧ s.dp.nalEnd = some 6 ∧ 1 < 6 ∧ s.params.maxPayload < 6 - 1 - 1) ∧
    (let s := withUnitIn 0x65#8 [1#8, 2#8, 3#8]
     s.Configured ∧ s.dp.nalStart = some 1 ∧ s.dp.nalEnd = some 5 ∧ 1 < 5 ∧ 5 - 1 - 1 ≤ s.params.maxPayload) ∧
    (let s := { withUnitIn 0x65#8 [1#8, 2#8, 3#8, 4#8] with dp := { (withUnitIn 0x65#8 [1#8, 2#8, 3#8, 4#8]).dp with k := some 1 } }
     s.dp.nalStart = some 1 ∧ s.dp.nalEnd = some 6 ∧ s.dp.k = some 1 ∧ unitCount s.params 1 6 ≤ 1 + 2 ∧
       unitCount s.params 1 6 ≠ 1 + 2) := by decide

/-- Bytes that decode to a well-formed instruction, and bytes that are none. No bytes decode to an ill-formed one. -/
theorem test_premises_StepRunsTheDecodedLine :
    (let s := { State.reset with script := [.bytes [0x65#8, 0#8]] }
     s.script = .bytes [0x65#8, 0#8] :: [] ∧ decode [0x65#8, 0#8] = .error .badLength) ∧
    (let s := { State.reset with script := [.bytes [0x85#8]] }
     s.script = .bytes [0x85#8] :: [] ∧ decode [0x85#8] = .ok (.fuhdrS 5#5) ∧ Instr.wellFormed (.fuhdrS 5#5) = true) := by decide

theorem test_premises_StepRunsTheNextOperation :
    { State.reset with script := [.op .reset] }.script = .op .reset :: [] ∧ State.reset.script = [] := by decide

/-- A TIME line with none after it. -/
theorem test_premises_TimeLineFixesTheDraws :
    let s := { session with script := [.time 5#32, .op .pop] }
    s.script = .time 5#32 :: [.op .pop] ∧ ∀ w, Line.time w ∉ [Line.op .pop] := by simp

/-- A datagram whose unit gives two packets takes two samples, both those of the TIME line (30_encoding.md R102). -/
theorem test_samples_of_a_datagram :
    samplesTaken 2 { session with script := [.time 5#32, .op (.dgram [0#8, 0#8, 1#8, 0x65#8, 1#8, 2#8, 3#8, 4#8])] } =
      [5#32, 5#32] := by decide

/-- From 0xFFFFFFFF to 1 is forward across the wrap, and back is a decrease (43_rtp_header_builder.md R150). -/
theorem test_notEarlier_wraps : notEarlier 0xFFFFFFFF#32 1#32 ∧ ¬ notEarlier 1#32 0xFFFFFFFF#32 := by decide

/-- In a session; the largest legal values; the smallest illegal ones. -/
theorem test_premises_ConfigLineSetsParameters :
    (let s := { session with script := [.config {}] }
     s.script = .config {} :: [] ∧ s.sessionActive = true) ∧
    (let c : ConfigLine := { fullDgramSize := some 1, maxPayload := some 1, pt := some 127, seqInit := some 65535 }
     let s := { State.reset with script := [.config c] }
     s.script = .config c :: [] ∧ s.sessionActive = false ∧ 1 ≤ c.fullDgramSize.getD 1460 ∧ 1 ≤ c.maxPayload.getD 1440 ∧
       c.pt.getD 96 ≤ 127 ∧ c.seqInit.getD 0 ≤ 65535) ∧
    (let c : ConfigLine := { pt := some 128 }
     let s := { State.reset with script := [.config c] }
     s.script = .config c :: [] ∧ s.sessionActive = false ∧
       (c.fullDgramSize.getD 1460 = 0 ∨ c.maxPayload.getD 1440 = 0 ∨ 127 < c.pt.getD 96 ∨ 65535 < c.seqInit.getD 0)) := by decide

/-- A frame one byte above, and exactly at, `FULL_DGRAM_SIZE`; a DRAIN. -/
theorem test_premises_FrameAndDrainExpand :
    (let s := { session with script := [.frame [1#8, 2#8, 3#8, 4#8, 5#8]] }
     s.Configured ∧ s.script = .frame [1#8, 2#8, 3#8, 4#8, 5#8] :: [] ∧ [1#8, 2#8, 3#8, 4#8, 5#8].length % s.params.fullDgramSize ≠ 0 ∧
     (got (step s)).map (fun t => t.script) = some [.op (.dgram [1#8, 2#8, 3#8, 4#8]), .op (.dgram [5#8])]) ∧
    (let s := { session with script := [.frame [1#8, 2#8, 3#8, 4#8]] }
     s.Configured ∧ s.script = .frame [1#8, 2#8, 3#8, 4#8] :: [] ∧ [1#8, 2#8, 3#8, 4#8].length % s.params.fullDgramSize = 0) ∧
    (let s := { session with script := [.drain] }
     s.Configured ∧ s.script = .drain :: []) := by decide

/-- DatapathRowsFrame. -/
theorem test_premises_DatapathRowsFrame :
    ∃ t, exec .scanNext (withAu [0#8, 0#8, 1#8, 0x65#8]) = .next t ∧ t.dp.nalStart = some 3 := ⟨_, rfl, rfl⟩

/-- PacketRowsFrame, SequenceNumberCountsPackets, QueueIsFirstInFirstOut, OwnershipOfState, FaultFlagsAreSticky,
CountersInfluenceNothing and IsIdrInfluencesNothing: PACKETIZE is no session operation and answers a next state. -/
theorem test_premises_of_packetize :
    ¬ Instr.isSession .packetize ∧ (withUnitIn 0x65#8 [1#8]).seq = some 10#16 ∧
    ∃ t, exec .packetize (withUnitIn 0x65#8 [1#8]) = .next t :=
  ⟨by simp [Instr.isSession], rfl, _, rfl⟩

/-- QueueIsFirstInFirstOut and OwnershipOfState on POP, and on START, the session operation that discards the queue. -/
theorem test_premises_of_pop_and_start :
    (¬ Instr.isSession .pop ∧ ∃ t, exec .pop { session with dq := [[1#8]] } = .next t) ∧
    (Instr.isSession (.start 1#32) ∧ ∃ t, exec (.start 1#32) { session with dq := [[1#8]] } = .next t) :=
  ⟨⟨by simp [Instr.isSession], _, rfl⟩, ⟨.inr (.inr ⟨_, rfl⟩), _, rfl⟩⟩

/-- FaultFlagsAreSticky: each flag becomes 1 under its finite capacity, and a faulted state. -/
theorem test_premises_FaultFlagsAreSticky :
    (let s := { session with params := { fullDgramSize := 4, bufCap := some 0 } }
     s.errBufOvf = false ∧ (got (exec (.dgram [1#8]) s)).map (fun t => t.errBufOvf) = some true) ∧
    (let s := { session with params := { dqCap := some 0 } }
     s.errDqOvf = false ∧ (got (exec (.enq (header 0xE0#8 0#8 ++ [0x65#8])) s)).map (fun t => t.errDqOvf) = some true) ∧
    { session with errDqOvf := true }.Faulted := by decide

/-- StepKeepsTheInvariant, StepKeepsStoresCanonical and StepNeverFaults: a state that meets the invariant, and its next. -/
theorem test_premises_StepKeepsTheInvariant : running.Inv ∧ running.StoresWf ∧ ∃ t, step running = .next t :=
  ⟨test_inv_of_running, by decide, _, rfl⟩

theorem test_premises_IllegalConfigurationIsRefused :
    (let s := { State.reset with params := { fullDgramSize := 0 } }
     s.params.fullDgramSize = 0 ∨ s.params.maxPayload = 0) ∧
    (let s := { State.reset with params := { maxPayload := 0 } }
     s.params.fullDgramSize = 0 ∨ s.params.maxPayload = 0) := by decide

/-- No index, no unit; a unit start at the end of `AU`, with no end and with an empty range. -/
theorem test_premises_UnreadableOperandsFault :
    (State.reset.Configured ∧ State.reset.dp.i = none ∧ State.reset.dp.nalStart = none) ∧
    (let s := { withAu [0x65#8] with dp := { nalStart := some 1 } }
     s.Configured ∧ s.dp.nalStart = some 1 ∧ Memory.read s.au 1 = none ∧ s.dp.nalEnd = none) ∧
    (let s := { withAu [0x65#8] with dp := { nalStart := some 1, nalEnd := some 1 } }
     s.Configured ∧ s.dp.nalStart = some 1 ∧ s.dp.nalEnd = some 1 ∧ 1 ≤ 1) := by decide

/-- An unclassified unit of one chunk, and one of two: no `k`, no `hdr`, no `F`; then no `NRI`; then no `TYPE`. -/
theorem test_premises_UnreadableOperandsFault_unit :
    (let s := { withAu [0x65#8, 1#8] with dp := { nalStart := some 0, nalEnd := some 2 } }
     s.Configured ∧ 0 < 2 ∧ s.dp.k = none ∧ unitCount s.params 0 2 = 1 ∧ s.dp.hdr = none ∧
     s.SelectsRow (unitCount s.params 0 2) .pktSingle) ∧
    (let s := { withAu [0x65#8, 1#8, 2#8, 3#8, 4#8] with dp := { nalStart := some 0, nalEnd := some 5 } }
     s.Configured ∧ 2 ≤ unitCount s.params 0 5 ∧ s.dp.f = none ∧ s.SelectsRow (unitCount s.params 0 5) .pktFuaS) ∧
    (let d : Datapath := { nalStart := some 0, nalEnd := some 5, f := some 0#1 }
     d.f = some 0#1 ∧ d.nri = none) ∧
    (let d : Datapath := { nalStart := some 0, nalEnd := some 5, f := some 0#1, nri := some 3#2 }
     d.f = some 0#1 ∧ d.nri = some 3#2 ∧ d.type = none) := by
  refine ⟨⟨by decide, by decide, rfl, by decide, rfl, .inr (.inl ⟨by decide, rfl⟩)⟩,
    ⟨by decide, by decide, rfl, .inr (.inr (.inl ⟨by decide, rfl⟩))⟩, by decide, by decide⟩

/-- Classified units that end past `L`: one chunk; three chunks of which the first ends past `L`, with the middle and the end
fragment next; and two of which the second does. -/
theorem test_premises_UnreadableOperandsFault_chunk :
    (let s := { withAu [0x65#8] with
      dp := { nalStart := some 0, nalEnd := some 2, hdr := some 0x65#8, f := some 0#1, nri := some 3#2, type := some 5#5 } }
     s.Configured ∧ Memory.wf s.au = true ∧ HeaderLatched 0x65#8 s.dp ∧ unitCount s.params 0 2 = 1 ∧ 0 + 1 < 2 ∧ s.auLen < 2 ∧
     (match exec .pktSingle s with
      | .fault (.offsetOutsideStore .au off) => off
      | _ => 0) = 1) ∧
    (let s := { withAu [0x65#8, 1#8] with
      dp := { nalStart := some 0, nalEnd := some 8, hdr := some 0x65#8, f := some 0#1, nri := some 3#2, type := some 5#5, k := some 0 } }
     s.Configured ∧ Memory.wf s.au = true ∧ HeaderLatched 0x65#8 s.dp ∧ 2 ≤ unitCount s.params 0 8 ∧
     s.auLen < chunkHi s.params.maxPayload 0 8 0 ∧ s.auLen < chunkHi s.params.maxPayload 0 8 1 ∧ 0 + 2 < unitCount s.params 0 8 ∧
     1 + 2 = unitCount s.params 0 8 ∧ s.auLen < chunkHi s.params.maxPayload 0 8 2) ∧
    (let s := { withAu [0x65#8, 1#8, 2#8, 3#8] with
      dp := { nalStart := some 0, nalEnd := some 5, hdr := some 0x65#8, f := some 0#1, nri := some 3#2, type := some 5#5 } }
     s.Configured ∧ Memory.wf s.au = true ∧ HeaderLatched 0x65#8 s.dp ∧ s.Numbered 10#16 0#32 ∧ 1 < unitCount s.params 0 5 ∧
     chunkHi s.params.maxPayload 0 5 0 ≤ s.auLen ∧ s.auLen < chunkHi s.params.maxPayload 0 5 1 ∧
     (match exec .packetize s with
      | .fault (.offsetOutsideStore .au off) => off
      | _ => 0) = 4) := by decide

/-- A classified unit, and a carry-over that holds one, without `seq`, and with `seq` but without `ssrc`. -/
theorem test_premises_UnreadableOperandsFault_numbers :
    (let s := { withUnitIn 0x65#8 [1#8] with seq := none }
     s.Configured ∧ Memory.wf s.au = true ∧ s.HoldsUnit 1 3 0x65#8 ∧ s.seq = none) ∧
    (let s := { withUnitIn 0x65#8 [1#8] with ssrc := none }
     s.seq = some 10#16 ∧ s.ssrc = none) ∧
    (let s := { session with carry := Memory.ofBytes [0#8, 0#8, 1#8, 0x65#8], seq := none }
     s.Configured ∧ s.StoresWf ∧ ([] : List Byte).length ≠ s.params.fullDgramSize ∧
     above ([] : List Byte).length s.params.dgramMax = false ∧
     above (s.carryLen + ([] : List Byte).length) s.params.bufCap = false ∧ scanAll (Memory.bytes s.carry ++ []) ≠ [] ∧
     s.seq = none) := by decide

end Sys2Proof.Tests
end

section
/-! SUPPORT. Proofs for the family 00_scope: the configuration test every instruction begins with, and the absence of faults in a
script of operations. -/

namespace Sys2Proof.Machine

/-! ### Every instruction begins with the configuration test (R7, U17) -/

theorem not_configured_of_zero {s : State} (h : s.params.fullDgramSize = 0 ∨ s.params.maxPayload = 0) : ¬ s.Configured := by
  simp only [State.Configured, Params.legal, Bool.and_eq_true, decide_eq_true_eq]
  omega

theorem whenConfigured_of_not {s : State} (h : ¬ s.Configured) (o : Result) :
    whenConfigured s o = .refused .illegalConfiguration := if_neg h

/-- No instruction has a meaning outside the configuration test. -/
theorem exec_eq_whenConfigured (i : Instr) (s : State) : ∃ o, exec i s = whenConfigured s o := by
  cases i <;> exact ⟨_, rfl⟩

/-- Settles O59: the test that every instruction begins with fails. -/
theorem illegalConfigurationIsRefused : Obligations.IllegalConfigurationIsRefused := by
  intro i s h
  obtain ⟨o, ho⟩ := exec_eq_whenConfigured i s
  rw [ho, whenConfigured_of_not (not_configured_of_zero h)]

/-! ### No operation faults

What can fault in an operation is a flush alone: it reads the carry-over, `AU`, `seq` and `ssrc`. -/

/-- What a configured meaning can answer when it answers a fault. -/
theorem whenConfigured_eq_fault {s : State} {o : Result} {r : Fault} :
    whenConfigured s o = .fault r ↔ s.Configured ∧ o = .fault r := by
  by_cases hc : s.Configured
  · rw [whenConfigured_of hc, and_iff_right hc]
  · simp [whenConfigured_of_not hc, hc]

/-- Ending an operation adds no fault (R22). -/
theorem andThen_endOperation_eq_fault {o : Result} {r : Fault} : andThen o endOperation = .fault r ↔ o = .fault r := by
  cases o <;> simp [endOperation]

/-- A flush of a canonical carry-over, with `seq` and `ssrc` holding values, reads nothing that is not there (R112, R115). -/
theorem frFlush_ne_fault {s : State} (hc : s.Configured) (hwf : Memory.wf s.carry = true) (hq : s.seq.isSome = true)
    (hx : s.ssrc.isSome = true) (payload : List Byte) (r : Fault) : frFlush payload s ≠ .fault r := by
  obtain ⟨q, hq⟩ := Option.isSome_iff_exists.1 hq
  obtain ⟨x, hx⟩ := Option.isSome_iff_exists.1 hx
  cases ho : bufOverflow s payload.length with
  | true => simp [frFlush, ho]
  | false =>
    obtain ⟨d, hd⟩ := frFlush_eq hc hwf hq hx ho
    simp [hd]

/-- In a session a datagram is appended or flushed, and neither faults; outside a session it is discarded (R110, R189). -/
theorem exec_dgram_ne_fault {s : State} (hwf : Memory.wf s.carry = true)
    (hs : s.sessionActive = true → s.seq.isSome = true ∧ s.ssrc.isSome = true) (payload : List Byte) (r : Fault) :
    exec (.dgram payload) s ≠ .fault r := by
  intro h
  simp only [exec, execDgram, whenConfigured_eq_fault] at h
  obtain ⟨hc, h⟩ := h
  split at h
  · next ha =>
    obtain ⟨hq, hx⟩ := hs ha
    rw [andThen_endOperation_eq_fault] at h
    split at h
    · cases h
    · exact frFlush_ne_fault hc hwf hq hx payload r h
  · cases h

theorem exec_pop_ne_fault (s : State) (r : Fault) : exec .pop s ≠ .fault r := by
  intro h
  simp only [exec, execPop, whenConfigured_eq_fault] at h
  obtain ⟨-, h⟩ := h
  split at h
  · split at h <;> cases h
  · cases h

/-- The five operations of R100 never fault on a canonical carry-over, when `seq` and `ssrc` hold values in a session. -/
theorem exec_operation_ne_fault {i : Instr} (hi : Instr.isOperation i = true) {s : State} (hwf : Memory.wf s.carry = true)
    (hs : s.sessionActive = true → s.seq.isSome = true ∧ s.ssrc.isSome = true) (r : Fault) : exec i s ≠ .fault r := by
  cases i
  case reset => simp [exec, execReset, whenConfigured_eq_fault]
  case start => simp [exec, execStart, whenConfigured_eq_fault]
  case stop => simp [exec, execStop, whenConfigured_eq_fault]
  case dgram payload => exact exec_dgram_ne_fault hwf hs payload r
  case pop => exact exec_pop_ne_fault s r
  all_goals cases hi

/-! ### No line of a script faults -/

theorem runInstr_ne_fault {i : Instr} (hi : Instr.isOperation i = true) {s : State} (hwf : Memory.wf s.carry = true)
    (hs : s.sessionActive = true → s.seq.isSome = true ∧ s.ssrc.isSome = true) (r : Fault) : runInstr i s ≠ .fault r := by
  unfold runInstr
  split
  · exact exec_operation_ne_fault hi hwf hs r
  · nofun

theorem runConfig_ne_fault (c : ConfigLine) (s : State) (r : Fault) : runConfig c s ≠ .fault r := by
  unfold runConfig
  split
  · nofun
  · split <;> nofun

theorem runFrame_ne_fault (bs : List Byte) (s : State) (r : Fault) : runFrame bs s ≠ .fault r := by
  intro h
  obtain ⟨-, h⟩ := whenConfigured_eq_fault.1 h
  split at h <;> cases h

/-- A line of the script language of R102 and R103 never faults: the operations do not, and the other lines read no register. -/
theorem runLine_ne_fault {l : Line} (hl : l.isScript = true) {s : State} (hwf : Memory.wf s.carry = true)
    (hs : s.sessionActive = true → s.seq.isSome = true ∧ s.ssrc.isSome = true) (r : Fault) : runLine l s ≠ .fault r := by
  cases l with
  | config c => exact runConfig_ne_fault c s r
  | time t => nofun
  | op i => exact runInstr_ne_fault hl hwf hs r
  | bytes bs => cases hl
  | frame bs => exact runFrame_ne_fault bs s r
  | drain => nofun

/-- Settles O58: the next step is the consumer's POP, or a line of a script of operations. -/
theorem stepNeverFaults : Obligations.StepNeverFaults := by
  intro s r hInv
  unfold step
  split
  · exact exec_pop_ne_fault s r
  · next l rest hscript =>
    have hl : l.isScript = true := hInv.scriptOnly l (by simp [hscript])
    exact runLine_ne_fault (s := { s with script := rest }) hl hInv.storesWf.1 hInv.inSession r

end Sys2Proof.Machine
end

section
/-! SUPPORT. Proofs for the family 10_state: the invariant holds after reset, and every step of a script keeps it. -/

namespace Sys2Proof.Machine

/-- Settles O55: the reset state is concrete. -/
theorem resetStateMeetsTheInvariant : Obligations.ResetStateMeetsTheInvariant := by
  refine ⟨?_, rfl, rfl, rfl, rfl, rfl, rfl, rfl, rfl, ⟨rfl, rfl⟩, rfl, rfl, rfl, rfl, rfl, rfl, rfl, rfl, rfl⟩
  constructor <;> decide

/-! ### What the host does to its own part of the state -/

theorem State.Inv.withScript {s : State} (h : s.Inv) {script : List Line} (hs : ∀ l ∈ script, l.isScript = true) :
    { s with script := script }.Inv :=
  { h with scriptOnly := hs }

theorem State.Inv.withTime {s : State} (h : s.Inv) (v : Option (BitVec 32)) : { s with timeHeld := v }.Inv :=
  { h with }

/-- A CONFIG line leaves the capacities, and sets a legal configuration (R7). -/
theorem configParams_legal {c : ConfigLine} {old p : Params} (h : configParams c old = some p) :
    p.legal = true ∧ p.bufCap = old.bufCap ∧ p.dgramMax = old.dgramMax ∧ p.dqCap = old.dqCap := by
  simp only [configParams, Option.ite_none_right_eq_some, Option.some.injEq] at h
  obtain ⟨⟨hfull, hmax, -, -⟩, rfl⟩ := h
  simp [Params.legal, hfull, hmax]

/-- Outside a session nothing is stored or queued, so a CONFIG line there fits every new configuration (R36, R7). -/
theorem State.Inv.config {s t : State} (h : s.Inv) {c : ConfigLine} (hc : runConfig c s = .next t) : t.Inv := by
  unfold runConfig at hc
  split at hc
  · cases hc
  next hoff =>
    split at hc
    case h_2 => cases hc
    next p hp =>
      cases hc
      obtain ⟨hlegal, hbuf, hdgram, hdq⟩ := configParams_legal hp
      obtain ⟨-, -, hcarry, hqueue⟩ := h.outsideSession (by simpa using hoff)
      exact { h with
        configured := hlegal
        carryFull := by simp [State.carryLen, hcarry]
        carryCap := by simpa [State.carryLen, hbuf] using h.carryCap
        auCap := by simpa [State.auLen, hbuf] using h.auCap
        levelCap := by simpa [State.dqLevel, hdq] using h.levelCap
        peakCap := by simpa [hdq] using h.peakCap
        packets := by simp [hqueue]
        bufFlag := by simpa [hbuf, hdgram] using h.bufFlag
        dqFlag := by simpa [hdq] using h.dqFlag }

/-! ### The operations -/

theorem above_zero (c : Option Nat) : above 0 c = false := above_eq_false.2 fun _ _ => Nat.zero_le _

/-- Emptying the stores, the queue and the datapath registers keeps the invariant (R36). -/
theorem State.Inv.clear {s : State} (h : s.Inv) : { s with carry := [], au := [], dq := [], dp := {} }.Inv :=
  { h with
    storesWf := ⟨Memory.wf_nil, Memory.wf_nil⟩
    outsideSession := fun hoff =>
      have ⟨hseq, hssrc, _, _⟩ := h.outsideSession hoff
      ⟨hseq, hssrc, rfl, rfl⟩
    datapathEmpty := rfl
    carryFull := Nat.zero_mod _
    carryCap := above_zero _
    auCap := above_zero _
    levelCap := above_zero _
    peak := Nat.zero_le _
    packets := nofun }

theorem State.Inv.resetBlock {s : State} (h : s.Inv) : (resetBlock s).Inv :=
  { h.clear with
    inSession := nofun
    outsideSession := fun _ => ⟨rfl, rfl, rfl, rfl⟩
    peak := Nat.le_refl _
    peakCap := above_zero _
    bufFlag := nofun
    dqFlag := nofun }

theorem State.Inv.stopSession {s : State} (h : s.Inv) : (stopSession s).Inv := by
  unfold Machine.stopSession
  split
  · exact { h.clear with
      inSession := nofun
      outsideSession := fun _ => ⟨rfl, rfl, rfl, rfl⟩ }
  · exact h

theorem State.Inv.beginSession {s : State} (h : s.Inv) (x : BitVec 32) : (beginSession x s).Inv :=
  { h.clear with
    inSession := fun _ => ⟨rfl, rfl⟩
    outsideSession := nofun
    peak := Nat.le_refl _
    peakCap := above_zero _ }

/-- Sending the head shortens the queue; a queue that has a head is in a session (R36, R176). -/
theorem State.Inv.sendHead {s : State} (h : s.Inv) {pkt : Packet} {rest : List Packet} (hq : s.dq = pkt :: rest) :
    { s with dq := rest, sent := s.sent ++ [pkt] }.Inv :=
  have hle : rest.length ≤ s.dqLevel := by simp [State.dqLevel, hq]
  { h with
    outsideSession := fun hoff =>
      have ⟨_, _, _, hnil⟩ := h.outsideSession hoff
      absurd (hq.symm.trans hnil) (List.cons_ne_nil pkt rest)
    levelCap := above_eq_false.2 fun k hk => hle.trans (above_eq_false.1 h.levelCap k hk)
    peak := hle.trans h.peak
    packets := fun p hp => h.packets p (by simp [hq, hp]) }

/-- An overflow sets the flag, and only a finite capacity can overflow (R32, R115). -/
theorem bufCapacity_finite_of_overflow {s : State} {n : Nat} (h : bufOverflow s n = true) :
    s.params.bufCap.isSome = true ∨ s.params.dgramMax.isSome = true := by
  cases hb : s.params.bufCap <;> cases hd : s.params.dgramMax <;> simp_all [bufOverflow, above]

theorem State.Inv.discardCarry {s : State} (h : s.Inv) {n : Nat} (ho : bufOverflow s n = true) :
    { s with carry := [], errBufOvf := true }.Inv :=
  { h with
    storesWf := ⟨Memory.wf_nil, h.storesWf.2⟩
    outsideSession := fun hoff =>
      have ⟨hseq, hssrc, _, hqueue⟩ := h.outsideSession hoff
      ⟨hseq, hssrc, rfl, hqueue⟩
    carryFull := Nat.zero_mod _
    carryCap := above_zero _
    bufFlag := fun _ => bufCapacity_finite_of_overflow (s := s) ho }

/-- What does not overflow fits the store (R115). -/
theorem bufCap_of_no_overflow {s : State} {n : Nat} (h : bufOverflow s n = false) :
    above (s.carryLen + n) s.params.bufCap = false := by
  simp only [bufOverflow, Bool.or_eq_false_iff] at h
  exact h.2

/-- A full-size datagram after a whole number of them is a whole number of them (R111, R116). -/
theorem State.Inv.appendCarry {s : State} (h : s.Inv) (ha : s.sessionActive = true) {p : List Byte}
    (hp : p.length = s.params.fullDgramSize) (ho : bufOverflow s p.length = false) :
    { s with carry := Memory.append s.carry p }.Inv :=
  { h with
    storesWf := ⟨Memory.wf_append _ _ h.storesWf.1, h.storesWf.2⟩
    outsideSession := fun hoff => by simp [ha] at hoff
    carryFull := by simpa [State.carryLen, hp] using h.carryFull
    carryCap := by simpa [State.carryLen] using bufCap_of_no_overflow ho }

theorem State.Inv.frAppend {s : State} (h : s.Inv) (ha : s.sessionActive = true) {p : List Byte}
    (hp : p.length = s.params.fullDgramSize) : (frAppend p s).Inv := by
  rcases frAppend_cases p s with ⟨ho, he⟩ | ⟨ho, he⟩ <;> rw [he]
  · exact h.discardCarry ho
  · exact h.appendCarry ha hp ho

/-- The carry-over and the datagram become the access unit (R112). -/
theorem State.Inv.loadAu {s : State} (h : s.Inv) {bs : List Byte} (hb : above bs.length s.params.bufCap = false) :
    { s with au := Memory.ofBytes bs, carry := [] }.Inv :=
  { h with
    storesWf := ⟨Memory.wf_nil, Memory.wf_ofBytes bs⟩
    outsideSession := fun hoff =>
      have ⟨hseq, hssrc, _, hqueue⟩ := h.outsideSession hoff
      ⟨hseq, hssrc, rfl, hqueue⟩
    carryFull := Nat.zero_mod _
    carryCap := above_zero _
    auCap := by simpa [State.auLen] using hb }

/-- Building packets in a session keeps the invariant, but for the datapath registers, which end with the operation (R22). -/
theorem State.Inv.built {s t : State} (h : s.Inv) (ha : s.sessionActive = true) (hb : Built s t) : { t with dp := {} }.Inv := by
  obtain ⟨hseq, hssrc⟩ := h.inSession ha
  obtain ⟨pkts, empties, d, hpkts, rfl⟩ := hb
  obtain ⟨hlevel, hpeak, hpeakCap, hpackets⟩ :=
    enqueueAll_capacity s.params pkts hpkts s rfl h.levelCap h.peak h.peakCap h.packets
  obtain ⟨-, -, -, -, hflag⟩ := enqueueAll_queue pkts s
  exact
    { configured := by simpa using h.configured
      storesWf := by simpa using h.storesWf
      inSession := fun _ => by simp [hseq, hssrc]
      outsideSession := fun hoff => by simp [ha] at hoff
      datapathEmpty := rfl
      carryFull := by simpa [State.carryLen] using h.carryFull
      carryCap := by simpa [State.carryLen] using h.carryCap
      auCap := by simpa [State.auLen] using h.auCap
      levelCap := by simpa [State.dqLevel] using hlevel
      peak := hpeak
      peakCap := by simpa using hpeakCap
      packets := by simpa using hpackets
      bufFlag := by simpa using h.bufFlag
      dqFlag := fun hf => by simpa using (hflag hf).elim h.dqFlag id
      scriptOnly := by simpa using h.scriptOnly }

theorem State.Inv.endOperation {s : State} (h : s.Inv) : { s with dp := {} }.Inv :=
  { h with datapathEmpty := rfl }

theorem State.Inv.frFlush {s t : State} (h : s.Inv) (ha : s.sessionActive = true) {p : List Byte}
    (hf : frFlush p s = .next t) : { t with dp := {} }.Inv := by
  rcases frFlush_cases hf with ⟨ho, rfl⟩ | ⟨ho, held, hheld, hb⟩
  · exact (h.discardCarry ho).endOperation
  · have hfits : above (held ++ p).length s.params.bufCap = false := by
      rw [List.length_append, Memory.readRange_length hheld]
      exact bufCap_of_no_overflow ho
    exact (h.loadAu hfits).built ha hb

theorem State.Inv.dgram {s t : State} (h : s.Inv) {p : List Byte} (he : exec (.dgram p) s = .next t) : t.Inv := by
  have hcases : t = s ∨ ∃ u, t = { u with dp := {} } ∧ s.sessionActive = true ∧
      ((p.length = s.params.fullDgramSize ∧ u = Machine.frAppend p s) ∨ Machine.frFlush p s = .next u) := by
    simpa using exec_cases he
  obtain rfl | ⟨u, rfl, ha, ⟨hp, rfl⟩ | hf⟩ := hcases
  · exact h
  · exact (h.frAppend ha hp).endOperation
  · exact h.frFlush ha hf

theorem State.Inv.pop {s t : State} (h : s.Inv) (he : exec .pop s = .next t) : t.Inv := by
  have hcases : t = s ∨ ∃ pkt rest, s.dq = pkt :: rest ∧ t = { s with dq := rest, sent := s.sent ++ [pkt] } := by
    simpa using exec_cases he
  obtain rfl | ⟨pkt, rest, hq, rfl⟩ := hcases
  · exact h
  · exact h.sendHead hq

/-- The five operations of R100 keep the invariant. -/
theorem State.Inv.operation {i : Instr} (hi : Instr.isOperation i = true) {s t : State} (h : s.Inv)
    (he : exec i s = .next t) : t.Inv := by
  cases i
  case reset =>
    obtain rfl : t = Machine.resetBlock s := by simpa using exec_cases he
    exact h.resetBlock
  case start x =>
    obtain rfl : t = Machine.beginSession x (Machine.stopSession s) := by simpa using exec_cases he
    exact h.stopSession.beginSession x
  case stop =>
    obtain rfl : t = Machine.stopSession s := by simpa using exec_cases he
    exact h.stopSession
  case dgram p => exact h.dgram he
  case pop => exact h.pop he
  all_goals cases hi

/-! ### The lines of a script -/

theorem runInstr_eq_next {i : Instr} {s t : State} (h : runInstr i s = .next t) : exec i s = .next t := by
  unfold runInstr at h
  split at h
  · exact h
  · cases h

/-- A FRAME line puts DGRAM lines before the script (R103). -/
theorem State.Inv.frame {s t : State} (h : s.Inv) {bs : List Byte} (hf : runFrame bs s = .next t) : t.Inv := by
  obtain ⟨-, hf⟩ := whenConfigured_eq_next.1 hf
  split at hf
  · cases hf
  · cases hf
    refine h.withScript fun l hl => ?_
    rcases List.mem_append.1 hl with hl | hl
    · obtain ⟨d, -, rfl⟩ := List.mem_map.1 hl
      rfl
    · exact h.scriptOnly l hl

/-- A DRAIN line puts POP lines before the script (R103). -/
theorem State.Inv.drain {s t : State} (h : s.Inv) (hd : runDrain s = .next t) : t.Inv := by
  cases hd
  refine h.withScript fun l hl => ?_
  rcases List.mem_append.1 hl with hl | hl
  · rw [List.eq_of_mem_replicate hl]
    rfl
  · exact h.scriptOnly l hl

theorem State.Inv.line {s t : State} (h : s.Inv) {l : Line} (hl : l.isScript = true) (hr : runLine l s = .next t) : t.Inv := by
  cases l with
  | config c => exact h.config hr
  | time v => cases hr; exact h.withTime (some v)
  | op i => exact h.operation hl (runInstr_eq_next hr)
  | bytes bs => cases hl
  | frame bs => exact h.frame hr
  | drain => exact h.drain hr

/-- Settles O56: the consumer's POP keeps the invariant, and so does every line of a script of operations. -/
theorem stepKeepsTheInvariant : Obligations.StepKeepsTheInvariant := by
  intro s t h hstep
  unfold step at hstep
  split at hstep
  · exact h.pop hstep
  · next l rest hscript =>
    have hrest : ∀ l ∈ rest, l.isScript = true := fun l hl => h.scriptOnly l (by simp [hscript, hl])
    exact (h.withScript hrest).line (h.scriptOnly l (by simp [hscript])) hstep

end Sys2Proof.Machine
end

section
/-! SUPPORT. Proofs for the family 10_state: who may change what, the sequence number, and the fault flags. All three follow from one
reading of what an instruction does: RESET, START, STOP, POP and ENQ each in one way, and any other instruction builds packets
after the reassembler has done its part. -/

namespace Sys2Proof.Machine

/-! ### What an instruction does: five rows by themselves, and building packets -/

/-- FR.APPEND, FR.FLUSH and DGRAM: the rows of the reassembler (R110 to R112). -/
def Instr.isFraming (i : Instr) : Prop := ∃ payload, i = .frAppend payload ∨ i = .frFlush payload ∨ i = .dgram payload

/-- `u` is `s` after the reassembler's part of `i`: a framing row may rewrite the stores and raise `ERR_BUF_OVF`, the flag only under
a finite capacity (R115); any other row leaves both. -/
def Framed (i : Instr) (s u : State) : Prop :=
  ∃ (carry au : Memory) (flag : Bool), u = { s with carry := carry, au := au, errBufOvf := flag } ∧
    (s.errBufOvf = true → flag = true) ∧
    (flag = true → s.errBufOvf = true ∨ s.params.bufCap.isSome = true ∨ s.params.dgramMax.isSome = true) ∧
    (¬ Instr.isFraming i → carry = s.carry ∧ au = s.au)

theorem Framed.refl (i : Instr) (s : State) : Framed i s s :=
  ⟨s.carry, s.au, s.errBufOvf, rfl, id, .inl, fun _ => ⟨rfl, rfl⟩⟩

theorem Framed.stores {i : Instr} (hi : Instr.isFraming i) (s : State) (carry au : Memory) :
    Framed i s { s with carry := carry, au := au } :=
  ⟨carry, au, s.errBufOvf, rfl, id, .inl, fun h => absurd hi h⟩

theorem Framed.overflow {i : Instr} (hi : Instr.isFraming i) {s : State} {n : Nat} (ho : bufOverflow s n = true) :
    Framed i s { s with carry := [], errBufOvf := true } :=
  ⟨[], s.au, true, rfl, fun _ => rfl, fun _ => .inr (bufCapacity_finite_of_overflow ho), fun h => absurd hi h⟩

theorem Framed.of_frAppend {i : Instr} (hi : Instr.isFraming i) (p : List Byte) (s : State) : Framed i s (frAppend p s) := by
  rcases frAppend_cases p s with ⟨ho, he⟩ | ⟨-, he⟩ <;> rw [he]
  · exact Framed.overflow hi ho
  · exact Framed.stores hi s _ s.au

theorem Framed.of_frFlush {i : Instr} (hi : Instr.isFraming i) {p : List Byte} {s t : State} (h : frFlush p s = .next t) :
    ∃ u, Framed i s u ∧ Built u t := by
  rcases frFlush_cases h with ⟨ho, rfl⟩ | ⟨-, held, -, hb⟩
  · exact ⟨_, Framed.overflow hi ho, Built.refl _⟩
  · exact ⟨_, Framed.stores hi s [] _, hb⟩

/-- What an instruction may change when it answers a next state. -/
inductive Effect : Instr → State → State → Prop
  | reset (s : State) : Effect .reset s (resetBlock s)
  | start (x : BitVec 32) (s : State) : Effect (.start x) s (beginSession x (stopSession s))
  | stop (s : State) : Effect .stop s (stopSession s)
  | pop (s : State) (dq sent : List Packet) : Effect .pop s { s with dq := dq, sent := sent }
  | enq (pkt : Packet) (s : State) : Effect (.enq pkt) s (enqueue pkt s)
  | built {i : Instr} {s u t : State} (hi : i ≠ .pop) (hf : Framed i s u) (hb : Built u t) : Effect i s t

/-- An instruction that answers a next state has one of these effects. -/
theorem exec_effect {i : Instr} {s t : State} (h : exec i s = .next t) : Effect i s t := by
  rcases exec_cases h with ⟨rfl, rfl⟩ | ⟨x, rfl, rfl⟩ | ⟨rfl, rfl⟩ | ⟨rfl, rfl | ⟨pkt, rest, -, rfl⟩⟩ | ⟨pkt, rfl, -, rfl⟩ |
    ⟨p, hp⟩ | ⟨hi, hb⟩ | ⟨hi, d, rfl⟩
  · exact .reset s
  · exact .start x s
  · exact .stop s
  · exact .pop t t.dq t.sent
  · exact .pop s rest _
  · exact .enq pkt s
  · have hi : Instr.isFraming i := ⟨p, hp.imp And.left (Or.imp And.left And.left)⟩
    have hpop : i ≠ .pop := by rintro rfl; simp at hp
    rcases hp with ⟨-, -, rfl⟩ | ⟨-, hf⟩ | ⟨-, rfl | ⟨u, rfl, -, ⟨-, rfl⟩ | hf⟩⟩
    · exact .built hpop (Framed.of_frAppend hi p s) (Built.refl _)
    · obtain ⟨v, hv, hb⟩ := Framed.of_frFlush hi hf
      exact .built hpop hv hb
    · exact .built hpop (Framed.refl i t) (Built.refl t)
    · exact .built hpop (Framed.of_frAppend hi p s) (Built.of_dp _ _)
    · obtain ⟨v, hv, hb⟩ := Framed.of_frFlush hi hf
      exact .built hpop hv (hb.trans (Built.of_dp u _))
  · exact .built (by rintro rfl; simp at hi) (Framed.refl i s) hb
  · exact .built (by rintro rfl; simp at hi) (Framed.refl i s) (Built.of_dp s d)

/-! ### Ownership -/

theorem Framed.params {i : Instr} {s u : State} (h : Framed i s u) : u.params = s.params := by
  obtain ⟨_, _, _, rfl, -⟩ := h; rfl

theorem Framed.session {i : Instr} {s u : State} (h : Framed i s u) : u.sessionActive = s.sessionActive ∧ u.ssrc = s.ssrc := by
  obtain ⟨_, _, _, rfl, -⟩ := h; exact ⟨rfl, rfl⟩

theorem Framed.sent {i : Instr} {s u : State} (h : Framed i s u) : u.sent = s.sent := by
  obtain ⟨_, _, _, rfl, -⟩ := h; rfl

theorem Framed.numbers {i : Instr} {s u : State} (h : Framed i s u) : u.seq = s.seq ∧ u.draws = s.draws := by
  obtain ⟨_, _, _, rfl, -⟩ := h; exact ⟨rfl, rfl⟩

theorem Framed.errDqOvf {i : Instr} {s u : State} (h : Framed i s u) : u.errDqOvf = s.errDqOvf := by
  obtain ⟨_, _, _, rfl, -⟩ := h; rfl

theorem exec_params {i : Instr} {s t : State} (h : exec i s = .next t) : t.params = s.params := by
  cases exec_effect h with
  | built _ hf hb => exact hb.params.trans hf.params
  | _ => simp

/-- RESET, START and STOP own `session_active` and `ssrc` (R38). -/
theorem exec_session {i : Instr} {s t : State} (hi : ¬ Instr.isSession i) (h : exec i s = .next t) :
    t.sessionActive = s.sessionActive ∧ t.ssrc = s.ssrc := by
  cases exec_effect h with
  | built _ hf hb => simpa [hb.sessionActive, hb.ssrc] using hf.session
  | _ => simp at hi ⊢

/-- POP owns the OUT port (R38). -/
theorem exec_sent {i : Instr} {s t : State} (hi : i ≠ .pop) (h : exec i s = .next t) : t.sent = s.sent := by
  cases exec_effect h with
  | built _ hf hb => exact hb.sent.trans hf.sent
  | _ => simp at hi ⊢

theorem exec_pop_frame {s t : State} (h : exec .pop s = .next t) : { t with dq := s.dq, sent := s.sent } = s := by
  cases exec_effect h with
  | built hi => exact absurd rfl hi
  | pop => rfl

/-- The session and framing rows own the stores (R38, R70). -/
theorem exec_stores {i : Instr} {s t : State} (hs : ¬ Instr.isSession i) (hi : ¬ Instr.isFraming i) (h : exec i s = .next t) :
    t.carry = s.carry ∧ t.au = s.au := by
  cases exec_effect h with
  | built _ hf hb =>
    obtain ⟨carry, au, flag, rfl, -, -, hstay⟩ := hf
    obtain ⟨rfl, rfl⟩ := hstay hi
    exact ⟨hb.carry, hb.au⟩
  | _ => simp at hs ⊢

/-- Settles O49: each owner's registers, one lemma for each. -/
theorem ownershipOfState : Obligations.OwnershipOfState := by
  intro i s t h
  obtain ⟨hscript, htime⟩ := exec_host h
  refine ⟨exec_params h, hscript, htime, fun hi => exec_session hi h, fun hi => exec_sent hi h, ?_, fun hs hp => ?_⟩
  · rintro rfl
    exact exec_pop_frame h
  · have hf : ¬ Instr.isFraming i := by
      rintro ⟨p, hi⟩
      obtain ⟨happend, hflush, hdgram⟩ := hp p
      exact hi.elim happend (Or.rec hflush hdgram)
    obtain ⟨hcarry, hau⟩ := exec_stores hs hf h
    simp [SameBytes, hcarry, hau]

/-! ### The sequence number -/

/-- Settles O50: building packets takes one number and one sample for each, and nothing else outside a session operation touches
either. -/
theorem sequenceNumberCountsPackets : Obligations.SequenceNumberCountsPackets := by
  intro i s t q hi hq h
  cases exec_effect h with
  | built _ hf hb =>
    obtain ⟨hseq, hdraws⟩ := hf.numbers
    simpa [hdraws] using hb.seq (hseq.trans hq)
  | _ => simp [hq] at hi ⊢

/-! ### The fault flags -/

/-- `ERR_BUF_OVF` becomes 1 only under a finite capacity, and no instruction but RESET clears it (R32). -/
theorem exec_errBufOvf {i : Instr} {s t : State} (h : exec i s = .next t) :
    (s.errBufOvf = false → t.errBufOvf = true → s.params.bufCap.isSome = true ∨ s.params.dgramMax.isSome = true) ∧
    (i ≠ .reset → s.errBufOvf = true → t.errBufOvf = true) := by
  cases exec_effect h with
  | built _ hf hb =>
    obtain ⟨carry, au, flag, rfl, hset, hfinite, -⟩ := hf
    rw [hb.errBufOvf]
    exact ⟨fun h0 h1 => (hfinite h1).resolve_left (by simp [h0]), fun _ => hset⟩
  | _ => simp +contextual

/-- `ERR_DQ_OVF` becomes 1 only under a finite capacity, and no instruction but RESET clears it (R32, R180). -/
theorem exec_errDqOvf {i : Instr} {s t : State} (h : exec i s = .next t) :
    (s.errDqOvf = false → t.errDqOvf = true → s.params.dqCap.isSome = true) ∧
    (i ≠ .reset → s.errDqOvf = true → t.errDqOvf = true) := by
  cases exec_effect h with
  | enq pkt =>
    obtain ⟨-, -, -, hset, hfinite⟩ := enqueueAll_queue [pkt] s
    exact ⟨fun h0 h1 => (hfinite h1).resolve_left (by simp [h0]), fun _ => hset⟩
  | built _ hf hb =>
    obtain ⟨-, -, -, hset, hfinite⟩ := hb.queue
    rw [hf.errDqOvf] at hset hfinite
    rw [hf.params] at hfinite
    exact ⟨fun h0 h1 => (hfinite h1).resolve_left (by simp [h0]), fun _ => hset⟩
  | _ => simp +contextual

/-- A state with a flag set is no good end of a run (R32, R193). -/
theorem State.Faulted.not_goodEnd {s : State} (h : s.Faulted) : ¬ s.GoodEnd := by
  rintro ⟨-, hbuf, hdq⟩
  simp [State.Faulted, hbuf, hdq] at h

/-- Settles O52: each flag by what an instruction does, and no good end by its definition. -/
theorem faultFlagsAreSticky : Obligations.FaultFlagsAreSticky := by
  refine ⟨fun i s t h => ?_, fun s => State.Faulted.not_goodEnd⟩
  obtain ⟨hbufSet, hbufStays⟩ := exec_errBufOvf h
  obtain ⟨hdqSet, hdqStays⟩ := exec_errDqOvf h
  exact ⟨hbufSet, hdqSet, fun hi => ⟨hbufStays hi, hdqStays hi⟩⟩

end Sys2Proof.Machine
end

section
/-! SUPPORT. Proofs for the family 10_state: `n_empty_nal` and `dq_peak` influence nothing (R31). Two runs from states that differ in
the two counters alone are compared operation by operation. -/

namespace Sys2Proof.Machine

/-! ### Two runs side by side -/

/-- Where `o` answers a next state, `o'` answers one related to it by `R`. -/
def Follows (R : State → State → Prop) (o o' : Result) : Prop := ∀ t, o = .next t → ∃ t', o' = .next t' ∧ R t t'

section
variable {R : State → State → Prop}

theorem Follows.next {s s' : State} (h : R s s') : Follows R (.next s) (.next s') := by
  rintro t ⟨⟩
  exact ⟨s', rfl, h⟩

theorem Follows.of_fault (r : Fault) (o : Result) : Follows R (.fault r) o := fun _ h => by cases h

theorem Follows.of_refused (r : Refusal) (o : Result) : Follows R (.refused r) o := fun _ h => by cases h

theorem Follows.ite {p : Prop} [Decidable p] {o o' q q' : Result} (h : p → Follows R o o') (hn : ¬ p → Follows R q q') :
    Follows R (if p then o else q) (if p then o' else q') := by
  split
  · exact h ‹_›
  · exact hn ‹_›

theorem Follows.andThen {o o' : Result} {f f' : State → Result} (h : Follows R o o')
    (hf : ∀ s s', R s s' → Follows R (f s) (f' s')) : Follows R (andThen o f) (andThen o' f') := by
  intro t ht
  obtain ⟨s, hs, ht⟩ := andThen_eq_next.1 ht
  obtain ⟨s', hs', hR⟩ := h s hs
  rw [hs', andThen_next]
  exact hf s s' hR t ht

theorem Follows.readReg {α : Type} {r : Reg} {v : Option α} {f f' : α → Result} (h : ∀ a, Follows R (f a) (f' a)) :
    Follows R (readReg r v f) (readReg r v f') := by
  cases v with
  | none => exact .of_fault _ _
  | some a => exact h a

theorem Follows.readAu {s s' : State} (hau : s'.au = s.au) {off n : Nat} {f f' : List Byte → Result}
    (h : ∀ bs, Follows R (f bs) (f' bs)) : Follows R (readAu s off n f) (readAu s' off n f') := by
  simp only [Machine.readAu, hau]
  split
  · exact h _
  · exact .of_fault _ _

end

/-! ### States that differ in the counters alone -/

/-- `t` is `s` but for `n_empty_nal` and `dq_peak`. -/
def SameButCounters (s t : State) : Prop := ∃ c n, t = { s with nEmptyNal := c, dqPeak := n }

theorem SameButCounters.raise {s s' : State} (h : SameButCounters s s') (c : Condition) :
    SameButCounters (raise c s) (raise c s') := by
  obtain ⟨c₀, n, rfl⟩ := h
  cases c <;> exact ⟨_, _, rfl⟩

/-- A full queue is full whatever its peak was (R170, R180). -/
theorem SameButCounters.enqueue {s s' : State} (h : SameButCounters s s') (pkt : Packet) :
    SameButCounters (enqueue pkt s) (enqueue pkt s') := by
  have hfull : queueFull s' = queueFull s := by obtain ⟨c, n, rfl⟩ := h; rfl
  simp only [Machine.enqueue, hfull]
  split
  · exact h.raise .dqOvf
  · obtain ⟨c, n, rfl⟩ := h
    exact ⟨c, max n (s.dqLevel + 1), rfl⟩

theorem SameButCounters.scanNext {s s' : State} (h : SameButCounters s s') : SameButCounters (scanNext s) (scanNext s') := by
  obtain ⟨c, n, rfl⟩ := h
  refine ⟨c, n, ?_⟩
  simp only [Machine.scanNext]
  split <;> rfl

theorem SameButCounters.stopSession {s s' : State} (h : SameButCounters s s') :
    SameButCounters (stopSession s) (stopSession s') := by
  obtain ⟨c, n, rfl⟩ := h
  refine ⟨c, n, ?_⟩
  simp only [Machine.stopSession]
  split <;> rfl

theorem SameButCounters.frAppend {s s' : State} (h : SameButCounters s s') (p : List Byte) :
    SameButCounters (frAppend p s) (frAppend p s') := by
  obtain ⟨c, n, rfl⟩ := h
  refine ⟨c, n, ?_⟩
  simp only [Machine.frAppend, show bufOverflow { s with nEmptyNal := c, dqPeak := n } p.length = bufOverflow s p.length from rfl]
  split <;> rfl

/-! ### Building packets -/

section
variable {s s' : State} (h : SameButCounters s s')
include h

theorem SameButCounters.withUnit {f f' : Nat → Nat → Result} (hf : ∀ a b, Follows SameButCounters (f a b) (f' a b)) :
    Follows SameButCounters (withUnit s f) (withUnit s' f') := by
  obtain ⟨c, n, rfl⟩ := h
  exact .readReg fun a => .readReg fun b => .ite (fun _ => hf a b) fun _ => .of_fault _ _

theorem SameButCounters.emit (m : Bool) (lead chunk : List Byte) :
    Follows SameButCounters (emit m lead chunk s) (emit m lead chunk s') := by
  obtain ⟨c, n, rfl⟩ := h
  exact .readReg fun q => .readReg fun x => .next (.enqueue ⟨c, n, rfl⟩ _)

theorem SameButCounters.emitSingle (a b : Nat) : Follows SameButCounters (emitSingle a b s) (emitSingle a b s') := by
  obtain ⟨c, n, rfl⟩ := h
  refine .readReg fun hdr => .readAu rfl fun chunk => ?_
  refine .andThen (SameButCounters.emit ⟨c, n, rfl⟩ true [hdr] chunk) fun t t' ht => .next ?_
  split
  · exact ht.raise .emptyNal
  · exact ht

theorem SameButCounters.emitFragment (a b k : Nat) : Follows SameButCounters (emitFragment a b k s) (emitFragment a b k s') := by
  obtain ⟨c, n, rfl⟩ := h
  exact .readReg fun f => .readReg fun nri => .readReg fun type => .readAu rfl fun chunk => SameButCounters.emit ⟨c, n, rfl⟩ _ _ chunk

theorem SameButCounters.classify : Follows SameButCounters (classify s) (classify s') := by
  obtain ⟨c, n, rfl⟩ := h
  refine .readReg fun a => ?_
  cases Memory.read s.au a with
  | none => exact .of_fault _ _
  | some hdr => exact .next ⟨c, n, rfl⟩

end

theorem SameButCounters.emitFragments (a b r : Nat) : ∀ {k : Nat} {s s' : State}, SameButCounters s s' →
    Follows SameButCounters (emitFragments a b k r s) (emitFragments a b k r s') := by
  induction r with
  | zero => exact fun h => .next h
  | succ r ih => exact fun h => .andThen (h.emitFragment a b _) fun _ _ ht => ih ht

theorem SameButCounters.packetize {s s' : State} (h : SameButCounters s s') :
    Follows SameButCounters (packetize s) (packetize s') := by
  refine h.withUnit fun a b => ?_
  have hparams : s'.params = s.params := by obtain ⟨c, n, rfl⟩ := h; rfl
  simp only [packetizeUnit, hparams]
  exact .ite (fun _ => h.emitSingle a b) fun _ => SameButCounters.emitFragments a b _ h

theorem SameButCounters.processUnits (fuel : Nat) : ∀ {s s' : State}, SameButCounters s s' →
    Follows SameButCounters (processUnits fuel s) (processUnits fuel s') := by
  induction fuel with
  | zero => exact fun h => .next h
  | succ fuel ih =>
    intro s s' h
    have hscan := h.scanNext
    have hdp : (Machine.scanNext s').dp = (Machine.scanNext s).dp := by obtain ⟨c, n, he⟩ := hscan; rw [he]
    simp only [Machine.processUnits, hdp]
    exact .ite (fun _ => .next hscan) fun _ =>
      .andThen (.andThen hscan.classify fun _ _ ht => ht.packetize) fun _ _ ht => ih ht

theorem SameButCounters.frFlush {s s' : State} (h : SameButCounters s s') (p : List Byte) :
    Follows SameButCounters (frFlush p s) (frFlush p s') := by
  obtain ⟨c, n, rfl⟩ := h
  refine .ite (fun _ => .next ⟨c, n, rfl⟩) fun _ => ?_
  dsimp only [State.carryLen]
  cases Memory.readRange s.carry 0 s.carry.length with
  | none => exact .of_fault _ _
  | some held => exact SameButCounters.processUnits _ ⟨c, n, rfl⟩

/-! ### All instructions -/

section
variable {s s' : State} (h : SameButCounters s s')
include h

theorem SameButCounters.whenConfigured {o o' : Result} (ho : Follows SameButCounters o o') :
    Follows SameButCounters (whenConfigured s o) (whenConfigured s' o') := by
  obtain ⟨c, n, rfl⟩ := h
  exact .ite (fun _ => ho) fun _ => .of_refused _ _

theorem SameButCounters.startTest (pattern : List Byte → Bool) (width : Nat) :
    Follows SameButCounters (startTest pattern width s) (startTest pattern width s') := by
  refine h.whenConfigured ?_
  obtain ⟨c, n, rfl⟩ := h
  exact .readReg fun i => .ite (fun _ => .next ⟨c, n, rfl⟩) fun _ => .next ⟨c, n, rfl⟩

theorem SameButCounters.endTest (pattern : List Byte → Bool) :
    Follows SameButCounters (endTest pattern s) (endTest pattern s') := by
  refine h.whenConfigured ?_
  obtain ⟨c, n, rfl⟩ := h
  exact .readReg fun i => .ite (fun _ => .next ⟨c, n, rfl⟩) fun _ => .next ⟨c, n, rfl⟩

theorem SameButCounters.execPop : Follows SameButCounters (execPop s) (execPop s') := by
  refine h.whenConfigured ?_
  obtain ⟨c, n, rfl⟩ := h
  refine .ite (fun _ => ?_) fun _ => .next ⟨c, n, rfl⟩
  dsimp only
  cases hq : s.dq with
  | nil => exact .next ⟨c, n, by rw [hq]⟩
  | cons pkt rest => exact .next ⟨c, n, rfl⟩

theorem SameButCounters.execDgram (p : List Byte) : Follows SameButCounters (execDgram p s) (execDgram p s') := by
  refine h.whenConfigured ?_
  have hframing : Follows SameButCounters
      (if isFullSize s.params p.length then .next (Machine.frAppend p s) else Machine.frFlush p s)
      (if isFullSize s.params p.length then .next (Machine.frAppend p s') else Machine.frFlush p s') :=
    .ite (fun _ => .next (h.frAppend p)) fun _ => h.frFlush p
  obtain ⟨c, n, rfl⟩ := h
  refine .ite (fun _ => .andThen hframing ?_) fun _ => .next ⟨c, n, rfl⟩
  rintro t _ ⟨c', n', rfl⟩
  exact .next ⟨c', n', rfl⟩

/-- No instruction reads the counters, but to give them new values (R31). -/
theorem SameButCounters.exec (i : Instr) : Follows SameButCounters (exec i s) (exec i s') := by
  cases i
  case sc3 | sc4 => exact h.startTest _ _
  case bnd0 | bnd1 => exact h.endTest _
  case scanNext => exact h.whenConfigured (.next h.scanNext)
  case classify => exact h.whenConfigured h.classify
  case packetize => exact h.whenConfigured h.packetize
  case stop => exact h.whenConfigured (.next h.stopSession)
  case pop => exact h.execPop
  case dgram p => exact h.execDgram p
  case start x =>
    refine h.whenConfigured (.next ?_)
    obtain ⟨c, n, hs⟩ := h.stopSession
    exact ⟨0#32, 0, by rw [hs]; rfl⟩
  case frAppend p =>
    have happend := h.frAppend p
    refine h.whenConfigured ?_
    obtain ⟨c, n, rfl⟩ := h
    exact .ite (fun _ => .next happend) fun _ => .of_refused _ _
  case frFlush p =>
    have hflush := h.frFlush p
    refine h.whenConfigured ?_
    obtain ⟨c, n, rfl⟩ := h
    exact .ite (fun _ => .of_refused _ _) fun _ => hflush
  case enq pkt =>
    have henq := h.enqueue pkt
    refine h.whenConfigured ?_
    obtain ⟨c, n, rfl⟩ := h
    exact .ite (fun _ => .next henq) fun _ => .of_refused _ _
  case pktSingle =>
    have hemit := h.emitSingle
    refine h.whenConfigured (h.withUnit fun a b => ?_)
    obtain ⟨c, n, rfl⟩ := h
    exact .ite (fun _ => hemit a b) fun _ => .of_refused _ _
  case pktFuaS =>
    have hemit := h.emitFragment
    refine h.whenConfigured (h.withUnit fun a b => ?_)
    obtain ⟨c, n, rfl⟩ := h
    exact .ite (fun _ => hemit a b 0) fun _ => .of_refused _ _
  case pktFuaM | pktFuaE =>
    have hemit := h.emitFragment
    refine h.whenConfigured (h.withUnit fun a b => ?_)
    obtain ⟨c, n, rfl⟩ := h
    exact .readReg fun k => .ite (fun _ => hemit a b (k + 1)) fun _ => .of_refused _ _
  case nalhdr | dgramLen | rtphdr | fuind | fuhdrS | fuhdrM | fuhdrE | buildHdr | reset =>
    refine h.whenConfigured (.next ?_)
    obtain ⟨c, n, rfl⟩ := h
    exact ⟨_, _, rfl⟩

end

/-- Settles O53: two runs that differ in the counters alone go side by side. -/
theorem countersInfluenceNothing : Obligations.CountersInfluenceNothing := by
  intro i s t c n ht
  have hsame : SameButCounters s { s with nEmptyNal := c, dqPeak := n } := ⟨c, n, rfl⟩
  obtain ⟨t', ht', c', n', rfl⟩ := hsame.exec i t ht
  exact ⟨c', n', ht'⟩

end Sys2Proof.Machine
end

section
/-! SUPPORT. Proofs for the family 10_state: what a row that cannot read one of its operands answers (R37, R50, R55, R125). -/

namespace Sys2Proof.Machine

theorem State.Configured.maxPayload_pos {s : State} (hc : s.Configured) : 1 ≤ s.params.maxPayload := by
  simp only [State.Configured, Params.legal, Bool.and_eq_true, decide_eq_true_eq] at hc
  exact hc.2

/-! ### The rows of a unit are its packets -/

section
variable {s : State} {a b : Nat} (hc : s.Configured) (ha : s.dp.nalStart = some a) (hb : s.dp.nalEnd = some b) (hab : a < b)

include ha hb hab in
theorem withUnit_eq (f : Nat → Nat → Result) : withUnit s f = f a b := by
  rw [withUnit, ha, readReg_some, hb, readReg_some, if_pos hab]

include hc ha hb hab

theorem exec_packetize_single (hn : unitCount s.params a b = 1) : exec .packetize s = emitSingle a b s := by
  rw [exec, execPacketize, whenConfigured_of hc, packetize, withUnit_eq ha hb hab]
  exact if_pos hn

theorem exec_packetize_fragments (hn : 2 ≤ unitCount s.params a b) :
    exec .packetize s = emitFragments a b 0 (unitCount s.params a b) s := by
  rw [exec, execPacketize, whenConfigured_of hc, packetize, withUnit_eq ha hb hab]
  exact if_neg (show unitCount s.params a b ≠ 1 by omega)

theorem exec_packetize_fault {r : Fault} (hn : 2 ≤ unitCount s.params a b) (hr : emitFragment a b 0 s = .fault r) :
    exec .packetize s = .fault r := by
  obtain ⟨m, hm⟩ : ∃ m, unitCount s.params a b = m + 1 := ⟨unitCount s.params a b - 1, by omega⟩
  rw [exec_packetize_fragments hc ha hb hab hn, hm, emitFragments, hr, andThen_fault]

theorem exec_pktSingle_eq (hn : unitCount s.params a b = 1) : exec .pktSingle s = emitSingle a b s := by
  rw [exec, execPktSingle, whenConfigured_of hc, withUnit_eq ha hb hab]
  exact if_pos hn

theorem exec_pktFuaS_eq (hn : 2 ≤ unitCount s.params a b) : exec .pktFuaS s = emitFragment a b 0 s := by
  rw [exec, execPktFuaS, whenConfigured_of hc, withUnit_eq ha hb hab]
  exact if_pos hn

theorem exec_pktFuaM_eq {k : Nat} (hk : s.dp.k = some k) (hn : k + 2 < unitCount s.params a b) :
    exec .pktFuaM s = emitFragment a b (k + 1) s := by
  rw [exec, execPktFuaM, whenConfigured_of hc, withUnit_eq ha hb hab, hk, readReg_some]
  exact if_pos hn

theorem exec_pktFuaE_eq {k : Nat} (hk : s.dp.k = some k) (hn : k + 2 = unitCount s.params a b) :
    exec .pktFuaE s = emitFragment a b (k + 1) s := by
  rw [exec, execPktFuaE, whenConfigured_of hc, withUnit_eq ha hb hab, hk, readReg_some]
  exact if_pos hn

/-- On a unit of one chunk every selected row emits the single packet (R159, R160). -/
theorem exec_selected_single {i : Instr} (hn : unitCount s.params a b = 1) (hi : s.SelectsRow (unitCount s.params a b) i) :
    exec i s = emitSingle a b s := by
  obtain rfl | ⟨-, rfl⟩ | ⟨h2, -⟩ | ⟨k, -, ⟨h2, -⟩ | ⟨h2, -⟩⟩ := hi
  · exact exec_packetize_single hc ha hb hab hn
  · exact exec_pktSingle_eq hc ha hb hab hn
  all_goals omega

/-- On a unit of more chunks every selected row begins with one fragment of the unit, so a fault of each is a fault of the row
(R159, R161). -/
theorem exec_selected_fault {i : Instr} {r : Fault} (hn : 2 ≤ unitCount s.params a b)
    (hi : s.SelectsRow (unitCount s.params a b) i)
    (hr : ∀ k, k < unitCount s.params a b → emitFragment a b k s = .fault r) : exec i s = .fault r := by
  obtain rfl | ⟨h1, -⟩ | ⟨-, rfl⟩ | ⟨k, hk, ⟨hl, rfl⟩ | ⟨hl, rfl⟩⟩ := hi
  · exact exec_packetize_fault hc ha hb hab hn (hr 0 (by omega))
  · omega
  · rw [exec_pktFuaS_eq hc ha hb hab hn, hr 0 (by omega)]
  · rw [exec_pktFuaM_eq hc ha hb hab hk hl, hr (k + 1) (by omega)]
  · rw [exec_pktFuaE_eq hc ha hb hab hk hl, hr (k + 1) (by omega)]

end

/-! ### Packets without a number -/

/-- `r` is the register of `seq` and `ssrc` that a packet's numbers first miss (R26, R37). -/
def State.Unnumbered (s : State) (r : Reg) : Prop :=
  (r = .seq ∧ s.seq = none) ∨ (r = .ssrc ∧ (∃ q, s.seq = some q) ∧ s.ssrc = none)

theorem State.unnumbered_seq {s : State} (hq : s.seq = none) : s.Unnumbered .seq := .inl ⟨rfl, hq⟩

theorem State.unnumbered_ssrc {s : State} {q : BitVec 16} (hq : s.seq = some q) (hx : s.ssrc = none) : s.Unnumbered .ssrc :=
  .inr ⟨rfl, ⟨q, hq⟩, hx⟩

section
variable {s : State} {r : Reg} (hr : s.Unnumbered r)
include hr

theorem emit_unnumbered (m : Bool) (lead chunk : List Byte) : emit m lead chunk s = .fault (.noValue r) := by
  obtain ⟨rfl, hq⟩ | ⟨rfl, ⟨q, hq⟩, hx⟩ := hr
  · rw [emit, hq, readReg_none]
  · rw [emit, hq, readReg_some, hx, readReg_none]

variable {a b : Nat} {h : Byte} (hc : s.Configured) (hwf : Memory.wf s.au = true) (hu : s.HoldsUnit a b h)
include hc hwf hu

theorem emitSingle_unnumbered : emitSingle a b s = .fault (.noValue r) := by
  obtain ⟨-, -, hab, hl, hhdr, -⟩ := hu
  have hn := unitCount_pos s.params a b hc.maxPayload_pos
  rw [emitSingle, hhdr, readReg_some, readChunk_eq hc.maxPayload_pos hwf hab hl hn,
    emit_unnumbered (s := setChunk a b 0 s) hr, andThen_fault]

theorem emitFragment_unnumbered {k : Nat} (hk : k < unitCount s.params a b) : emitFragment a b k s = .fault (.noValue r) := by
  obtain ⟨-, -, hab, hl, -, hf, hnri, htype⟩ := hu
  rw [emitFragment, hf, readReg_some, hnri, readReg_some, htype, readReg_some, readChunk_eq hc.maxPayload_pos hwf hab hl hk]
  refine emit_unnumbered ?_ _ _ _
  exact hr

theorem exec_unnumbered {i : Instr} (hi : s.SelectsRow (unitCount s.params a b) i) : exec i s = .fault (.noValue r) := by
  obtain ⟨ha, hb, hab, -⟩ := id hu
  obtain hn | hn : unitCount s.params a b = 1 ∨ 2 ≤ unitCount s.params a b := by
    have := unitCount_pos s.params a b hc.maxPayload_pos
    omega
  · rw [exec_selected_single hc ha hb hab hn hi, emitSingle_unnumbered hr hc hwf hu]
  · exact exec_selected_fault hc ha hb hab hn hi fun k hk => emitFragment_unnumbered hr hc hwf hu hk

theorem packetize_unnumbered : packetize s = .fault (.noValue r) := by
  obtain ⟨-, h⟩ := whenConfigured_eq_fault.1 (exec_unnumbered hr hc hwf hu (i := .packetize) (.inl rfl))
  exact h

end

/-- A scan that yields a unit leaves its bounds in the registers (R125). -/
theorem scanNext_of_unit {s : State} {a b : Nat} (hu : (scanStep (Memory.bytes s.au) (s.dp.p.getD 0)).unit = some (a, b)) :
    (scanNext s).dp.nalStart = some a ∧ (scanNext s).dp.nalEnd = some b ∧ (scanNext s).dp.scanDone = some false := by
  simp [scanNext, hu]

/-- The first unit of a buffer reaches the packetizer, whose first packet has no number (R190). -/
theorem processAccessUnit_unnumbered {s : State} {r : Reg} (hr : s.Unnumbered r) (hc : s.Configured)
    (hwf : Memory.wf s.au = true) (hunits : scanAll (Memory.bytes s.au) ≠ []) :
    processAccessUnit s = .fault (.noValue r) := by
  rcases hu : (scanStep (Memory.bytes s.au) 0).unit with _ | ⟨a, b⟩
  · simp [scanAll, scanAllFrom, hu] at hunits
  obtain ⟨-, hab, hl, -⟩ := scanStep_unit (Nat.zero_le _) hu
  rw [Memory.bytes_length] at hl
  rw [processAccessUnit]
  generalize ht : ({ s with dp := { s.dp with p := some 0 } } : State) = t
  have hparams : t.params = s.params := by rw [← ht]
  have hau : t.au = s.au := by rw [← ht]
  obtain ⟨hstart, hend, hdone⟩ := scanNext_of_unit (s := t) (a := a) (b := b) (by rw [← ht]; exact hu)
  rw [processUnits, hdone, if_neg (by simp), classify_eq (by simpa [hau] using hwf) hstart
    (by simp only [State.auLen, scanNext_au, hau]; omega), andThen_next, packetize_unnumbered (a := a) (b := b), andThen_fault]
  · subst ht
    simpa [State.Unnumbered] using hr
  · simpa [State.Configured, hparams] using hc
  · simpa [hau] using hwf
  · exact ⟨hstart, hend, hab, by simpa [State.auLen, hau] using hl, rfl, rfl, rfl, rfl⟩

theorem exec_frFlush_unnumbered {s : State} {r : Reg} (hr : s.Unnumbered r) (hc : s.Configured) (hwf : s.StoresWf)
    {payload : List Byte} (hlen : payload.length ≠ s.params.fullDgramSize) (hov : bufOverflow s payload.length = false)
    (hunits : scanAll (Memory.bytes s.carry ++ payload) ≠ []) : exec (.frFlush payload) s = .fault (.noValue r) := by
  have hsize : isFullSize s.params payload.length = false := by simpa [isFullSize] using hlen
  rw [exec, execFrFlush, whenConfigured_of hc, hsize, if_neg (by simp), frFlush, hov, if_neg (by simp), State.carryLen,
    Memory.readRange_all _ hwf.1]
  exact processAccessUnit_unnumbered (s := { s with au := _, carry := [] }) hr hc (Memory.wf_ofBytes _) (by simpa using hunits)

/-! ### Chunks that end past `AU` -/

/-- A unit of more than one chunk has a body (R157). -/
theorem body_of_two_le_unitCount {c : Params} {a b : Nat} (h : 2 ≤ unitCount c a b) : a + 1 < b := by
  by_contra hb
  have hone : unitCount c a b = 1 := if_pos (by simp only [emptyBody, bodyLen, beq_iff_eq]; omega)
  omega

/-- The chunks of a body are not empty (R158). -/
theorem chunkLo_lt_chunkHi {c : Params} {a b k : Nat} (hm : 1 ≤ c.maxPayload) (hab : a + 1 < b) (hk : k < unitCount c a b) :
    chunkLo c.maxPayload a k < chunkHi c.maxPayload a b k := by
  have hbody : k * c.maxPayload < b - a - 1 := by
    by_contra hle
    have := (unitCount_le (c := c) (a := a) (b := b) (q := k) hm (by omega)).2 (by omega)
    omega
  simp only [chunkLo, chunkHi]
  omega

/-- The only chunk of a unit is its body (R158). -/
theorem chunkHi_of_unitCount_one {c : Params} {a b : Nat} (hm : 1 ≤ c.maxPayload) (hab : a + 1 < b) (hn : unitCount c a b = 1) :
    chunkHi c.maxPayload a b 0 = b := by
  have := (unitCount_le (c := c) (a := a) (b := b) (q := 1) hm (by omega)).1 (by omega)
  simp only [chunkLo, chunkHi]
  omega

section
variable {s : State} {a b k : Nat} (hc : s.Configured) (hwf : Memory.wf s.au = true)
include hc hwf

theorem readChunk_past_end (hab : a + 1 < b) (hk : k < unitCount s.params a b)
    (hend : s.auLen < chunkHi s.params.maxPayload a b k) (f : List Byte → Result) :
    readChunk a b k s f = .fault (.offsetOutsideStore .au (chunkLo s.params.maxPayload a k)) := by
  have hlt := chunkLo_lt_chunkHi hc.maxPayload_pos hab hk
  rw [readChunk, readAu, Memory.readRange_past_end _ hwf _ _ (by omega) (by rw [State.auLen] at hend; omega)]

theorem emitSingle_past_end {h : Byte} (hhdr : s.dp.hdr = some h) (hab : a + 1 < b) (hn : unitCount s.params a b = 1)
    (hend : s.auLen < b) : emitSingle a b s = .fault (.offsetOutsideStore .au (a + 1)) := by
  rw [emitSingle, hhdr, readReg_some, readChunk_past_end hc hwf hab (by omega)
    (by rwa [chunkHi_of_unitCount_one hc.maxPayload_pos hab hn]), chunkLo, Nat.zero_mul]

theorem emitFragment_past_end {h : Byte} (hh : HeaderLatched h s.dp) (hab : a + 1 < b) (hk : k < unitCount s.params a b)
    (hend : s.auLen < chunkHi s.params.maxPayload a b k) :
    emitFragment a b k s = .fault (.offsetOutsideStore .au (chunkLo s.params.maxPayload a k)) := by
  obtain ⟨-, hf, hnri, htype⟩ := hh
  rw [emitFragment, hf, readReg_some, hnri, readReg_some, htype, readReg_some, readChunk_past_end hc hwf hab hk hend]

/-- A fragment whose chunk lies inside `AU` is emitted, wherever the unit ends, and leaves what the next one reads (R161). -/
theorem emitFragment_next {h : Byte} {q : BitVec 16} {x : BitVec 32} (hh : HeaderLatched h s.dp) (hnum : s.Numbered q x)
    (hab : a + 1 < b) (hk : k < unitCount s.params a b) (hfit : chunkHi s.params.maxPayload a b k ≤ s.auLen) :
    ∃ t, emitFragment a b k s = .next t ∧ t.params = s.params ∧ t.au = s.au ∧ t.Numbered (q + 1#16) x ∧ HeaderLatched h t.dp := by
  obtain ⟨-, hf, hnri, htype⟩ := id hh
  obtain ⟨hq, hx⟩ := hnum
  have hlt := chunkLo_lt_chunkHi hc.maxPayload_pos hab hk
  rw [State.auLen] at hfit
  rw [emitFragment, hf, readReg_some, hnri, readReg_some, htype, readReg_some, readChunk, readAu,
    Memory.readRange_of_wf _ hwf _ _ (by omega)]
  exact ⟨_, emit_eq _ _ _ _ q x hq hx, afterPackets_params .., afterPackets_au ..,
    ⟨afterPackets_seq .., (afterPackets_ssrc ..).trans hx⟩, hh⟩

end

/-- The loop stops at the first chunk that ends past `AU`: the fragments before it are emitted (R161, R167). -/
theorem emitFragments_past_end {h : Byte} {x : BitVec 32} {a b k : Nat} (hab : a + 1 < b) (r : Nat) :
    ∀ {j : Nat} {s : State} {q : BitVec 16}, s.Configured → Memory.wf s.au = true → HeaderLatched h s.dp → s.Numbered q x →
      k < unitCount s.params a b → (∀ m, m < k → chunkHi s.params.maxPayload a b m ≤ s.auLen) →
      s.auLen < chunkHi s.params.maxPayload a b k → j ≤ k → k < j + r →
      emitFragments a b j r s = .fault (.offsetOutsideStore .au (chunkLo s.params.maxPayload a k)) := by
  induction r with
  | zero => omega
  | succ r ih =>
    intro j s q hc hwf hh hnum hk hfit hend hjk hkr
    rw [emitFragments]
    obtain rfl | hlt := hjk.eq_or_lt
    · rw [emitFragment_past_end hc hwf hh hab hk hend, andThen_fault]
    · obtain ⟨t, ht, hparams, hau, hnum', hh'⟩ := emitFragment_next hc hwf hh hnum hab (by omega) (hfit j hlt)
      have hrest := ih (j := j + 1) (s := t) (by rwa [State.Configured, hparams]) (by rwa [hau]) hh' hnum'
        (by rwa [hparams]) (by simpa only [hparams, State.auLen, hau] using hfit)
        (by simpa only [hparams, State.auLen, hau] using hend) hlt (by omega)
      rw [ht, andThen_next, hrest, hparams]

/-! ### Every operand -/

section
variable {s : State} (hc : s.Configured)
include hc

theorem exec_without_index (hi : s.dp.i = none) :
    ∀ i ∈ [Instr.sc3, .sc4, .bnd0, .bnd1], exec i s = .fault (.noValue .i) := by
  simp [exec, execSc3, execSc4, execBnd0, execBnd1, startTest, endTest, whenConfigured_of hc, hi]

theorem exec_without_start (ha : s.dp.nalStart = none) :
    ∀ i ∈ [Instr.classify, .packetize, .pktSingle, .pktFuaS, .pktFuaM, .pktFuaE], exec i s = .fault (.noValue .nalStart) := by
  simp [exec, execClassify, classify, execPacketize, packetize, execPktSingle, execPktFuaS, execPktFuaM, execPktFuaE, withUnit,
    whenConfigured_of hc, ha]

theorem exec_classify_outside {a : Nat} (ha : s.dp.nalStart = some a) (hr : Memory.read s.au a = none) :
    exec .classify s = .fault (.offsetOutsideStore .au a) := by
  rw [exec, execClassify, whenConfigured_of hc, classify, ha, readReg_some, hr]

/-- The packet rows begin with the bounds of the unit (R156, R160, R161). -/
theorem exec_packetRow_of_withUnit {r : Fault} (hr : ∀ f, withUnit s f = .fault r) :
    ∀ i ∈ [Instr.packetize, .pktSingle, .pktFuaS, .pktFuaM, .pktFuaE], exec i s = .fault r := by
  simp [exec, execPacketize, packetize, execPktSingle, execPktFuaS, execPktFuaM, execPktFuaE, whenConfigured_of hc, hr]

theorem exec_without_chunk_index {a b : Nat} (ha : s.dp.nalStart = some a) (hb : s.dp.nalEnd = some b) (hab : a < b)
    (hk : s.dp.k = none) : ∀ i ∈ [Instr.pktFuaM, .pktFuaE], exec i s = .fault (.noValue .k) := by
  simp [exec, execPktFuaM, execPktFuaE, whenConfigured_of hc, withUnit_eq ha hb hab, hk]

end

/-- Settles O60: each operand in the order in which the rows read them. -/
theorem unreadableOperandsFault : Obligations.UnreadableOperandsFault := by
  intro s hc
  refine ⟨exec_without_index hc, exec_without_start hc, ?_, ?_, ?_, ?_, ?_⟩
  · intro a ha
    refine ⟨exec_classify_outside hc ha, fun i hi => ⟨fun hb => ?_, fun b hb hba => ?_⟩⟩
    · exact exec_packetRow_of_withUnit hc (fun f => by rw [withUnit, ha, readReg_some, hb, readReg_none]) i hi
    · exact exec_packetRow_of_withUnit hc
        (fun f => by rw [withUnit, ha, readReg_some, hb, readReg_some, if_neg (by omega)]) i hi
  · intro a b ha hb hab
    refine ⟨exec_without_chunk_index hc ha hb hab, fun i hi => ⟨fun hn hhdr => ?_, fun hn => ?_⟩⟩
    · rw [exec_selected_single hc ha hb hab hn hi, emitSingle, hhdr, readReg_none]
    · have hfault {r : Reg} := exec_selected_fault (r := .noValue r) hc ha hb hab hn hi
      refine ⟨fun hf => hfault fun k _ => ?_, fun f hf hnri => hfault fun k _ => ?_,
        fun f nri hf hnri htype => hfault fun k _ => ?_⟩
      · rw [emitFragment, hf, readReg_none]
      · rw [emitFragment, hf, readReg_some, hnri, readReg_none]
      · rw [emitFragment, hf, readReg_some, hnri, readReg_some, htype, readReg_none]
  · intro a b h hwf hu i hi
    exact ⟨fun hq => exec_unnumbered (State.unnumbered_seq hq) hc hwf hu hi,
      fun q hq hx => exec_unnumbered (State.unnumbered_ssrc hq hx) hc hwf hu hi⟩
  · intro a b h hwf ha hb hab hh n lo hi
    refine ⟨fun hn hbody hend => ?_, fun hn hend => ?_, fun k hk hend => ⟨fun hl => ?_, fun hl => ?_⟩,
      fun q x k hnum hn hk hfit hend => ?_⟩
    · have hfault := emitSingle_past_end hc hwf hh.1 hbody hn hend
      simp [exec_packetize_single hc ha hb hab hn, exec_pktSingle_eq hc ha hb hab hn, hfault]
    · have hfault := emitFragment_past_end hc hwf hh (body_of_two_le_unitCount hn) (by omega) hend
      simp [exec_packetize_fault hc ha hb hab hn hfault, exec_pktFuaS_eq hc ha hb hab hn, hfault, lo]
    · rw [exec_pktFuaM_eq hc ha hb hab hk hl,
        emitFragment_past_end hc hwf hh (body_of_two_le_unitCount (c := s.params) (by omega)) (by omega) hend]
    · rw [exec_pktFuaE_eq hc ha hb hab hk hl,
        emitFragment_past_end hc hwf hh (body_of_two_le_unitCount (c := s.params) (by omega)) (by omega) hend]
    · rw [exec_packetize_fragments hc ha hb hab hn]
      exact emitFragments_past_end (body_of_two_le_unitCount hn) _ hc hwf hh hnum hk hfit hend (Nat.zero_le k) (by omega)
  · intro payload hwf hlen hmax hcap hunits
    have hov : bufOverflow s payload.length = false := by simp [bufOverflow, hmax, hcap]
    exact ⟨fun hq => exec_frFlush_unnumbered (State.unnumbered_seq hq) hc hwf hlen hov hunits,
      fun q hq hx => exec_frFlush_unnumbered (State.unnumbered_ssrc hq hx) hc hwf hlen hov hunits⟩

end Sys2Proof.Machine
end

section
/-! SUPPORT. Proofs for the family 20_memory: what one step of a script runs (R62, R102, R211), and the canonical form of the byte
stores (R50), which every step keeps. -/

namespace Sys2Proof.Machine

/-! ### The line a step runs -/

theorem step_of_nil {s : State} (h : s.script = []) : step s = exec .pop s := by
  simp only [step, h, consumerTurn]

theorem step_of_cons {s : State} {l : Line} {rest : List Line} (h : s.script = l :: rest) :
    step s = runLine l { s with script := rest } := by
  simp only [step, h]

theorem runLine_op (i : Instr) (s : State) : runLine (.op i) s = if i.wellFormed then exec i s else .refused .illFormed := rfl

theorem runLine_bytes_ok {bs : List Byte} {i : Instr} (h : decode bs = .ok i) (s : State) :
    runLine (.bytes bs) s = runLine (.op i) s := by
  simp only [runLine, h]

theorem runLine_bytes_error {bs : List Byte} {e : DecodeError} (h : decode bs = .error e) (s : State) :
    runLine (.bytes bs) s = .refused (.undecodable e) := by
  simp only [runLine, h]

/-- Settles O42: a line of bytes is the line of the instruction they decode to. -/
theorem stepRunsTheDecodedLine : Obligations.StepRunsTheDecodedLine := by
  intro s bs rest hscript
  rw [step_of_cons hscript]
  refine ⟨fun i hi hwf => ?_, fun e he => runLine_bytes_error he _⟩
  rw [runLine_bytes_ok hi, runLine_op, if_pos hwf]

/-- Settles O43: a line of an operation, and the consumer's turn. -/
theorem stepRunsTheNextOperation : Obligations.StepRunsTheNextOperation := by
  intro s
  refine ⟨fun i rest hscript => ?_, step_of_nil⟩
  rw [step_of_cons hscript, runLine_op]

/-! ### The canonical form of the stores

Who writes a store: an append extends `CARRY`, a flush replaces `AU` and empties `CARRY`, and the session operations and an overflow
empty what they touch (R70). Each of these writes leaves the canonical form, and nothing else writes. -/

theorem stopSession_storesWf {s : State} (h : s.StoresWf) : (stopSession s).StoresWf := by
  unfold stopSession
  split
  · exact ⟨Memory.wf_nil, Memory.wf_nil⟩
  · exact h

theorem Built.storesWf {s t : State} (hb : Built s t) (h : s.StoresWf) : t.StoresWf := by
  rwa [State.StoresWf, hb.carry, hb.au]

theorem frAppend_storesWf {s : State} (h : s.StoresWf) (p : List Byte) : (frAppend p s).StoresWf := by
  obtain ⟨hcarry, hau⟩ := h
  rcases frAppend_cases p s with ⟨-, he⟩ | ⟨-, he⟩ <;> rw [he]
  · exact ⟨Memory.wf_nil, hau⟩
  · exact ⟨Memory.wf_append _ _ hcarry, hau⟩

theorem frFlush_storesWf {s t : State} (h : s.StoresWf) {p : List Byte} (hf : frFlush p s = .next t) : t.StoresWf := by
  rcases frFlush_cases hf with ⟨-, rfl⟩ | ⟨-, held, -, hb⟩
  · exact ⟨Memory.wf_nil, h.2⟩
  · exact hb.storesWf ⟨Memory.wf_nil, Memory.wf_ofBytes (held ++ p)⟩

/-- Every instruction, sub-operations included, keeps the canonical form. -/
theorem exec_storesWf {i : Instr} {s t : State} (h : s.StoresWf) (he : exec i s = .next t) : t.StoresWf := by
  rcases exec_cases he with ⟨-, rfl⟩ | ⟨x, -, rfl⟩ | ⟨-, rfl⟩ | ⟨-, rfl | ⟨pkt, rest, -, rfl⟩⟩ | ⟨pkt, -, -, rfl⟩ |
    ⟨p, ⟨-, -, rfl⟩ | ⟨-, hf⟩ | ⟨-, rfl | ⟨u, rfl, -, ⟨-, rfl⟩ | hf⟩⟩⟩ | ⟨-, hb⟩ | ⟨-, d, rfl⟩
  · exact ⟨Memory.wf_nil, Memory.wf_nil⟩
  · exact ⟨Memory.wf_nil, Memory.wf_nil⟩
  · exact stopSession_storesWf h
  · exact h
  · exact h
  · simpa [State.StoresWf] using h
  · exact frAppend_storesWf h p
  · exact frFlush_storesWf h hf
  · exact h
  · exact frAppend_storesWf h p
  · exact frFlush_storesWf (t := u) h hf
  · exact hb.storesWf h
  · exact h

/-- A line runs an instruction or leaves both stores as they are (R102, R103). -/
theorem runLine_cases {l : Line} {s t : State} (h : runLine l s = .next t) :
    (∃ i, exec i s = .next t) ∨ (t.carry = s.carry ∧ t.au = s.au) := by
  cases l with
  | config c =>
    simp only [runLine, runConfig] at h
    split at h
    · cases h
    · split at h <;> cases h
      exact .inr ⟨rfl, rfl⟩
  | time v => cases h; exact .inr ⟨rfl, rfl⟩
  | op i => exact .inl ⟨i, runInstr_eq_next h⟩
  | bytes bs =>
    cases hd : decode bs with
    | ok i => exact .inl ⟨i, runInstr_eq_next ((runLine_bytes_ok hd s).symm.trans h)⟩
    | error e => rw [runLine_bytes_error hd] at h; cases h
  | frame bs =>
    obtain ⟨-, h⟩ := whenConfigured_eq_next.1 h
    split at h <;> cases h
    exact .inr ⟨rfl, rfl⟩
  | drain => cases h; exact .inr ⟨rfl, rfl⟩

/-- Settles O57: the consumer's POP and every line run an instruction, which keeps the canonical form, or write no store. -/
theorem stepKeepsStoresCanonical : Obligations.StepKeepsStoresCanonical := by
  intro s t h hstep
  cases hscript : s.script with
  | nil => exact exec_storesWf h (step_of_nil hscript ▸ hstep)
  | cons l rest =>
    rw [step_of_cons hscript] at hstep
    rcases runLine_cases hstep with ⟨i, he⟩ | ⟨hcarry, hau⟩
    · exact exec_storesWf (s := { s with script := rest }) h he
    · rwa [State.StoresWf, hcarry, hau]

end Sys2Proof.Machine
end

section
/-! SUPPORT. Proofs for the family 30_encoding: decoding and encoding are inverse to each other, row by row and packet by packet, and
the bits of the bytes they read and write (R76 to R88). -/

namespace Sys2Proof

/-! ### The words of the spec -/

/-- Settles O1: the words are concrete. -/
theorem specWordsDecode : Obligations.SpecWordsDecode := by
  unfold Obligations.SpecWordsDecode
  decide

/-! ### From a row to its bytes and back -/

/-- Settles O2: row by row, by what taking the fields out of an assembled byte gives back. -/
theorem decodeOfEncode : Obligations.DecodeOfEncode := by
  intro i bs f he hf
  cases i
  case sc3 | sc4 | bnd0 | bnd1 => cases he; cases hf; rfl
  case nalhdr => cases he; cases hf; simp [decodeAs]
  case rtphdr m pt seq ts ssrc =>
    cases he; cases hf
    have hrtp := decodeRtp_rtpHeaderBytes m pt seq ts ssrc []
    rw [List.append_nil] at hrtp
    simp only [decodeAs, hrtp]
  case fuind => cases he; cases hf; simp [decodeAs]
  case fuhdrS => cases he; cases hf; simp only [decodeAs, decodeFuHeader_start]
  case fuhdrM => cases he; cases hf; simp only [decodeAs, decodeFuHeader_middle]
  case fuhdrE => cases he; cases hf; simp only [decodeAs, decodeFuHeader_end]
  all_goals cases he

/-! ### From bytes to the row they are -/

/-- Three bytes with the pattern 00 00 `c` are that pattern (R121). -/
theorem eq_of_match3 {c : Byte} {bs : List Byte} (hl : bs.length = 3) (h : match3 c bs = true) : bs = [0#8, 0#8, c] := by
  obtain ⟨x, y, z, rfl⟩ := List.length_eq_three.1 hl
  simpa [match3, and_assoc] using h

/-- Four bytes with the pattern 00 00 00 01 are that pattern (R121). -/
theorem eq_of_match4 {bs : List Byte} (hl : bs.length = 4) (h : match4 bs = true) : bs = [0#8, 0#8, 0#8, 1#8] := by
  match bs, hl with
  | [w, x, y, z], _ => simpa [match4, and_assoc] using h

/-- The row `i` is read by the unit `f`, and `bs` is its encoding. -/
def IsRow (f : Format) (bs : List Byte) (i : Instr) : Prop := formatOf i = some f ∧ encode i = some bs

theorem isRow_of_decodeAs_startSearch {bs : List Byte} {i : Instr} (h : decodeAs .startSearch bs = .ok i) :
    IsRow .startSearch bs i := by
  simp only [decodeAs] at h
  split at h
  · next hl =>
    split at h <;> cases h
    next hm => exact ⟨rfl, by rw [eq_of_match3 hl hm]; rfl⟩
  split at h
  · next hl =>
    split at h <;> cases h
    next hm => exact ⟨rfl, by rw [eq_of_match4 hl hm]; rfl⟩
  · cases h

theorem isRow_of_decodeAs_endSearch {bs : List Byte} {i : Instr} (h : decodeAs .endSearch bs = .ok i) :
    IsRow .endSearch bs i := by
  simp only [decodeAs] at h
  split at h
  · next hl =>
    split at h
    · next hm => cases h; exact ⟨rfl, by rw [eq_of_match3 hl hm]; rfl⟩
    · split at h <;> cases h
      next hm => exact ⟨rfl, by rw [eq_of_match3 hl hm]; rfl⟩
  · cases h

theorem isRow_of_decodeAs_nalHeader {bs : List Byte} {i : Instr} (h : decodeAs .nalHeader bs = .ok i) :
    IsRow .nalHeader bs i := by
  match bs with
  | [b] => cases h; exact ⟨rfl, by rw [encode, nalHeaderByte_fields]⟩
  | [] | _ :: _ :: _ => cases h

theorem isRow_of_decodeAs_rtpHeader {bs : List Byte} {i : Instr} (h : decodeAs .rtpHeader bs = .ok i) :
    IsRow .rtpHeader bs i := by
  simp only [decodeAs] at h
  split at h <;> cases h
  next hd => exact ⟨rfl, by rw [encode, ← decodeRtp_ok hd, List.append_nil]⟩

theorem isRow_of_decodeAs_fuInd {bs : List Byte} {i : Instr} (h : decodeAs .fuInd bs = .ok i) : IsRow .fuInd bs i := by
  match bs with
  | [b] =>
    simp only [decodeAs] at h
    split at h <;> cases h
    next hb => exact ⟨rfl, by rw [encode, fuIndicator_fields b hb]⟩
  | [] | _ :: _ :: _ => cases h

theorem isRow_of_decodeAs_fuHdr {bs : List Byte} {i : Instr} (h : decodeAs .fuHdr bs = .ok i) : IsRow .fuHdr bs i := by
  match bs with
  | [b] =>
    simp only [decodeAs] at h
    cases hd : decodeFuHeader b with
    | error e => rw [hd] at h; cases h
    | ok r =>
      obtain ⟨kind, type⟩ := r
      rw [hd] at h
      obtain ⟨rfl, rfl⟩ | ⟨rfl, rfl⟩ | ⟨rfl, rfl⟩ := decodeFuHeader_ok hd <;> cases h <;> exact ⟨rfl, rfl⟩
  | [] | _ :: _ :: _ => cases h

/-- Settles O3: unit by unit, by what a successful decode says about its bytes. -/
theorem encodeOfDecode : Obligations.EncodeOfDecode := by
  intro f bs i hf h
  cases f with
  | startSearch => exact isRow_of_decodeAs_startSearch h
  | endSearch => exact isRow_of_decodeAs_endSearch h
  | nalHeader => exact isRow_of_decodeAs_nalHeader h
  | rtpHeader => exact isRow_of_decodeAs_rtpHeader h
  | fuInd => exact isRow_of_decodeAs_fuInd h
  | fuHdr => exact isRow_of_decodeAs_fuHdr h
  | packet => exact absurd rfl hf

/-! ### Packets -/

/-- The RTP header of a packet with the fields `x`: its marker is that of the layout (R163). -/
def PacketFields.rtp (x : PacketFields) : RtpFields where
  m := x.kind.marker
  pt := x.pt
  seq := x.seq
  ts := x.ts
  ssrc := x.ssrc

/-- What follows the RTP header gives the fields back, unless a receiver takes a single packet's second byte for an FU header (R92). -/
theorem decodePayload_leadBytes {x : PacketFields} (hx : x.kind = .single → x.type ≠ 28#5 ∨ x.chunk = []) :
    decodePayload x.rtp (leadBytes x ++ x.chunk) = .ok x := by
  obtain ⟨kind, pt, seq, ts, ssrc, f, nri, type, chunk⟩ := x
  cases kind with
  | single =>
    cases chunk with
    | nil => simp [leadBytes, decodePayload, PacketFields.rtp, PacketKind.marker]
    | cons c cs =>
      have htype : type ≠ 28#5 := by simpa using hx rfl
      simp [leadBytes, decodePayload, PacketFields.rtp, PacketKind.marker, htype]
  | fuaS => simp [leadBytes, decodePayload, PacketFields.rtp, decodeFuHeader_start]
  | fuaM => simp [leadBytes, decodePayload, PacketFields.rtp, decodeFuHeader_middle]
  | fuaE => simp [leadBytes, decodePayload, PacketFields.rtp, decodeFuHeader_end]

theorem decodePacket_rtp (x : PacketFields) (rest : List Byte) :
    decodePacket (rtpHeaderBytes x.kind.marker x.pt x.seq x.ts x.ssrc ++ rest) = decodePayload x.rtp rest := by
  simp only [decodePacket, decodeRtp_rtpHeaderBytes, PacketFields.rtp]

/-- An FU indicator and an FU header that decode are the two bytes before a fragment's chunk (R88). -/
theorem leadBytes_of_decodeFuHeader {x : PacketFields} {b c : Byte} (hb : nalType b = 28#5)
    (hc : decodeFuHeader c = .ok (x.kind, x.type)) (hf : x.f = nalF b) (hn : x.nri = nalNri b) : leadBytes x = [b, c] := by
  have hind := fuIndicator_fields b hb
  obtain ⟨hk, hc⟩ | ⟨hk, hc⟩ | ⟨hk, hc⟩ := decodeFuHeader_ok hc <;> simp [leadBytes, hk, hc, hf, hn, hind]

/-- Everything a successful decode of a packet says about its RTP header and what follows it (R87, R88). -/
theorem decodePayload_ok {h : RtpFields} {rest : List Byte} {x : PacketFields} (e : decodePayload h rest = .ok x) :
    h = x.rtp ∧ leadBytes x ++ x.chunk = rest := by
  obtain ⟨m, pt, seq, ts, ssrc⟩ := h
  match rest with
  | [] => cases e
  | [b] =>
    simp only [decodePayload] at e
    split at e <;> cases e
    next hm => exact ⟨by simp [hm, PacketFields.rtp, PacketKind.marker], by simp [leadBytes]⟩
  | b :: c :: chunk =>
    simp only [decodePayload] at e
    split at e
    · next hb =>
      split at e
      · cases e
      · next kind type hc =>
        split at e <;> cases e
        next hm =>
          refine ⟨by simp [hm, PacketFields.rtp], ?_⟩
          rw [leadBytes_of_decodeFuHeader hb hc rfl rfl]
          rfl
    · split at e <;> cases e
      next hm => exact ⟨by simp [hm, PacketFields.rtp, PacketKind.marker], by simp [leadBytes]⟩

/-- Settles O4: the RTP header first, then what follows it. -/
theorem packetDecodeOfEncode : Obligations.PacketDecodeOfEncode := by
  refine ⟨fun x hx => ?_, fun x bs h => ?_⟩
  · rw [encodePacket, List.append_assoc, decodePacket_rtp, decodePayload_leadBytes hx]
  · unfold decodePacket at h
    split at h
    · cases h
    · next hdr rest hd =>
      obtain ⟨rfl, hrest⟩ := decodePayload_ok h
      have hbs := decodeRtp_ok hd
      rw [encodePacket, List.append_assoc, hrest]
      exact hbs

/-! ### Bytes as their fields, from bit 7 down -/

theorem nalHeaderByte_eq_append (f : BitVec 1) (nri : BitVec 2) (type : BitVec 5) : nalHeaderByte f nri type = f ++ nri ++ type := by
  revert f nri type; decide

theorem fuIndicator_eq_append (f : BitVec 1) (nri : BitVec 2) : fuIndicator f nri = f ++ nri ++ 28#5 :=
  nalHeaderByte_eq_append f nri 28#5

theorem fuIndicator_eq_mask (f : BitVec 1) (nri : BitVec 2) (type : BitVec 5) :
    fuIndicator f nri = (nalHeaderByte f nri type &&& 0xE0#8) ||| 0x1C#8 := by
  revert f nri type; decide

theorem fuHeader_eq_append (s e : Bool) (type : BitVec 5) :
    fuHeader s e type = BitVec.ofBool s ++ BitVec.ofBool e ++ 0#1 ++ type := by
  revert s e type; decide

theorem rtpByte1_eq_append (m : Bool) (pt : BitVec 7) : bit8 m <<< 7 ||| pt.setWidth 8 = BitVec.ofBool m ++ pt := by
  revert m pt; decide

/-- The upper bits of the FU indicator and the lower bits of the FU header are the two parts of the NAL header byte (R85). -/
theorem fuBytes_rebuild_header (h : Byte) (s e : Bool) :
    (fuIndicator (nalF h) (nalNri h) &&& 0xE0#8) ||| (fuHeader s e (nalType h) &&& 0x1F#8) = h := by
  revert h s e; decide

/-- Settles O5: each byte as its fields. -/
theorem fuByteLayout : Obligations.FuByteLayout := by
  refine ⟨fun f nri type => ⟨fuIndicator_eq_append f nri, fuIndicator_eq_mask f nri type⟩, fun n k type => ?_,
    fuBytes_rebuild_header, rfl, rfl, rfl⟩
  rw [fuHeader_eq_append]
  rfl

end Sys2Proof
end
section
/-! SUPPORT. Proofs for the family 30_encoding: what the input patterns, the output formats and the refused sub-operations do by
themselves, and what the lines of a script do that are no operation (R76 to R84, R102, R103). -/

namespace Sys2Proof.Machine

/-! ### Scanner patterns at the search index -/

section
variable {s : State} {i : Nat}

section
variable (hwf : Memory.wf s.au = true)
include hwf

/-- A three-byte pattern at the search index, read byte by byte (R121). -/
theorem match3_auFrom (c : Byte) :
    match3 c (auFrom s i) = true ↔
      Memory.read s.au i = some 0#8 ∧ Memory.read s.au (i + 1) = some 0#8 ∧ Memory.read s.au (i + 2) = some c := by
  simp only [Memory.read_of_wf s.au hwf]
  exact match3_drop c _ i

/-- The four-byte pattern at the search index, read byte by byte (R121). -/
theorem match4_auFrom :
    match4 (auFrom s i) = true ↔
      Memory.read s.au i = some 0#8 ∧ Memory.read s.au (i + 1) = some 0#8 ∧ Memory.read s.au (i + 2) = some 0#8 ∧
        Memory.read s.au (i + 3) = some 1#8 := by
  simp only [Memory.read_of_wf s.au hwf]
  exact match4_drop _ i

end

variable (hc : s.Configured) (hi : s.dp.i = some i)
include hc hi

theorem startTest_eq (pattern : List Byte → Bool) (width : Nat) :
    startTest pattern width s =
      if pattern (auFrom s i) then .next { s with dp := { s.dp with nalStart := some (i + width) } } else .next s := by
  rw [startTest, whenConfigured_of hc, hi, readReg_some]

theorem endTest_eq (pattern : List Byte → Bool) :
    endTest pattern s = if pattern (auFrom s i) then .next { s with dp := { s.dp with nalEnd := some i } } else .next s := by
  rw [endTest, whenConfigured_of hc, hi, readReg_some]

end

/-- Settles O14: the test at the search index, byte by byte. -/
theorem startCodeRows : Obligations.StartCodeRows := by
  intro s i hc hwf hi
  simp only [exec, execSc3, execSc4, startTest_eq hc hi, match3_auFrom hwf, match4_auFrom hwf, and_self]

/-- Settles O15: the test at the search index, byte by byte. -/
theorem boundaryRows : Obligations.BoundaryRows := by
  intro s i hc hwf hi
  simp only [exec, execBnd0, execBnd1, endTest_eq hc hi, match3_auFrom hwf, and_self]

/-! ### Formats -/

/-- Latching an assembled header byte latches the fields it was assembled from (R79, R141). -/
theorem latchHeader_nalHeaderByte (f : BitVec 1) (nri : BitVec 2) (type : BitVec 5) (s : State) :
    latchHeader (nalHeaderByte f nri type) s = { s with dp := { s.dp with
      hdr := some (f ++ nri ++ type), f := some f, nri := some nri, type := some type,
      isIdr := some (decide (type = 5#5)) } } := by
  simp only [latchHeader, nalF_nalHeaderByte, nalNri_nalHeaderByte, nalType_nalHeaderByte]
  rw [nalHeaderByte_eq_append]
  rfl

/-- Settles O18: each row by its meaning. -/
theorem headerAndLengthRows : Obligations.HeaderAndLengthRows := by
  intro s hc
  refine ⟨fun f nri type => ?_, fun len => ?_⟩
  · rw [exec, execNalhdr, whenConfigured_of hc, latchHeader_nalHeaderByte]
  · rw [exec, execDgramLen, whenConfigured_of hc]
    rfl

theorem rtpHeaderBytes_eq_append (m : Bool) (pt : BitVec 7) (seq : BitVec 16) (ts ssrc : BitVec 32) :
    rtpHeaderBytes m pt seq ts ssrc = [0x80#8, BitVec.ofBool m ++ pt] ++ be16 seq ++ be32 ts ++ be32 ssrc := by
  rw [rtpHeaderBytes, rtpByte1_eq_append]

/-- FUHDR with `S` and `E` as its upper three bits (R84). -/
theorem fuHeader_eq_flags_append (type : BitVec 5) :
    fuHeader true false type = 4#3 ++ type ∧ fuHeader false false type = 0#3 ++ type ∧ fuHeader false true type = 2#3 ++ type := by
  simp only [fuHeader_eq_append]
  exact ⟨rfl, rfl, rfl⟩

theorem appendToPacket_eq {s : State} (hc : s.Configured) (bs : List Byte) :
    appendToPacket bs s = .next { s with dp := { s.dp with pkt := s.dp.pkt ++ bs } } := whenConfigured_of hc _

/-- Settles O19: each format's bytes, where its row puts them. -/
theorem formatRowsBuildThePacket : Obligations.FormatRowsBuildThePacket := by
  intro s hc
  refine ⟨fun m pt seq ts ssrc => ?_, fun f nri => ?_, fun type => ?_⟩
  · rw [exec, execRtphdr, whenConfigured_of hc, rtpHeaderBytes_eq_append]
  · rw [exec, execFuind, appendToPacket_eq hc, fuIndicator_eq_append]
  · obtain ⟨hS, hM, hE⟩ := fuHeader_eq_flags_append type
    simp only [exec, execFuhdrS, execFuhdrM, execFuhdrE, appendToPacket_eq hc, hS, hM, hE, and_self]

/-- Settles O47: among all that an instruction can do, these rows set datapath registers. -/
theorem datapathRowsFrame : Obligations.DatapathRowsFrame := by
  intro i s t hi h
  obtain ⟨d, rfl⟩ : ∃ d, t = { s with dp := d } := by
    rcases exec_cases h with ⟨rfl, -⟩ | ⟨x, rfl, -⟩ | ⟨rfl, -⟩ | ⟨rfl, -⟩ | ⟨pkt, rfl, -⟩ | ⟨p, ⟨rfl, -⟩ | ⟨rfl, -⟩ | ⟨rfl, -⟩⟩ |
      ⟨rfl | rfl | rfl | rfl | rfl, -⟩ | ⟨-, hd⟩
    case inr.inr.inr.inr.inr.inr.inr => exact hd
    all_goals simp at hi
  exact ⟨rfl, fun off => ⟨rfl, rfl⟩⟩

/-! ### Sub-operations that are not selected -/

theorem isFullSize_eq_decide (c : Params) (len : Nat) : isFullSize c len = decide (len = c.fullDgramSize) := rfl

theorem exec_enq_of_not_packetSized {s : State} (hc : s.Configured) {bs : List Byte} (hbs : ¬ packetSized s.params bs) :
    exec (.enq bs) s = .refused (.notAPacket bs.length) := by
  rw [exec, execEnq, whenConfigured_of hc, if_neg hbs]

theorem exec_frAppend_of_other_size {s : State} (hc : s.Configured) {p : List Byte} (hp : p.length ≠ s.params.fullDgramSize) :
    exec (.frAppend p) s = .refused (.notSelected .frAppend) := by
  simp [exec, execFrAppend, whenConfigured_of hc, isFullSize_eq_decide, hp]

theorem exec_frFlush_of_full_size {s : State} (hc : s.Configured) {p : List Byte} (hp : p.length = s.params.fullDgramSize) :
    exec (.frFlush p) s = .refused (.notSelected .frFlush) := by
  simp [exec, execFrFlush, whenConfigured_of hc, isFullSize_eq_decide, hp]

/-- A unit has one chunk exactly when its body fits one payload (R157, R159). -/
theorem unitCount_eq_one_iff {c : Params} {a b : Nat} (hm : 1 ≤ c.maxPayload) :
    unitCount c a b = 1 ↔ b - a - 1 ≤ c.maxPayload := by
  have hpos := unitCount_pos c a b hm
  obtain h0 | h0 := Nat.eq_zero_or_pos (b - a - 1)
  · have hone : unitCount c a b = 1 := if_pos (by simp [emptyBody, bodyLen, h0])
    omega
  · have hle := unitCount_le (q := 1) hm h0
    omega

section
variable {s : State} {a b : Nat} (hc : s.Configured) (ha : s.dp.nalStart = some a) (hb : s.dp.nalEnd = some b) (hab : a < b)
include hc ha hb hab

theorem exec_pktSingle_not_selected (hn : unitCount s.params a b ≠ 1) :
    exec .pktSingle s = .refused (.notSelected .pktSingle) := by
  rw [exec, execPktSingle, whenConfigured_of hc, withUnit_eq ha hb hab]
  exact if_neg hn

theorem exec_pktFuaS_not_selected (hn : unitCount s.params a b ≤ 1) : exec .pktFuaS s = .refused (.notSelected .pktFuaS) := by
  rw [exec, execPktFuaS, whenConfigured_of hc, withUnit_eq ha hb hab]
  exact if_neg (Nat.not_lt.2 hn)

theorem exec_pktFuaM_not_selected {k : Nat} (hk : s.dp.k = some k) (hn : unitCount s.params a b ≤ k + 2) :
    exec .pktFuaM s = .refused (.notSelected .pktFuaM) := by
  rw [exec, execPktFuaM, whenConfigured_of hc, withUnit_eq ha hb hab, hk, readReg_some]
  exact if_neg (Nat.not_lt.2 hn)

theorem exec_pktFuaE_not_selected {k : Nat} (hk : s.dp.k = some k) (hn : unitCount s.params a b ≠ k + 2) :
    exec .pktFuaE s = .refused (.notSelected .pktFuaE) := by
  rw [exec, execPktFuaE, whenConfigured_of hc, withUnit_eq ha hb hab, hk, readReg_some]
  exact if_neg hn.symm

end

/-- Settles O41: each row outside its condition. -/
theorem subOperationsNotSelected : Obligations.SubOperationsNotSelected := by
  intro s hc
  refine ⟨fun bs hbs => exec_enq_of_not_packetSized hc (by simp only [packetSized]; omega),
    fun p => ⟨exec_frAppend_of_other_size hc, exec_frFlush_of_full_size hc⟩, fun a b ha hb hab => ?_⟩
  have hone := unitCount_eq_one_iff (a := a) (b := b) hc.maxPayload_pos
  exact ⟨fun hlen => exec_pktSingle_not_selected hc ha hb hab (by omega),
    fun hlen => exec_pktFuaS_not_selected hc ha hb hab (by omega),
    fun k hk => ⟨exec_pktFuaM_not_selected hc ha hb hab hk, exec_pktFuaE_not_selected hc ha hb hab hk⟩⟩

/-! ### CONFIG lines -/

theorem configParams_eq (c : ConfigLine) (old : Params) :
    configParams c old =
      if 1 ≤ c.fullDgramSize.getD 1460 ∧ 1 ≤ c.maxPayload.getD 1440 ∧ c.pt.getD 96 < 128 ∧ c.seqInit.getD 0 < 65536 then
        some { old with
          fullDgramSize := c.fullDgramSize.getD 1460, maxPayload := c.maxPayload.getD 1440
          pt := BitVec.ofNat 7 (c.pt.getD 96), seqInit := BitVec.ofNat 16 (c.seqInit.getD 0) }
      else none := rfl

theorem runConfig_of_session {s : State} {c : ConfigLine} (h : s.sessionActive = true) :
    runConfig c s = .refused .configInSession := by
  rw [runConfig, if_pos h]

theorem runConfig_of_some {s : State} {c : ConfigLine} {p : Params} (h : s.sessionActive = false)
    (hp : configParams c s.params = some p) : runConfig c s = .next { s with params := p } := by
  simp [runConfig, h, hp]

theorem runConfig_of_none {s : State} {c : ConfigLine} (h : s.sessionActive = false) (hp : configParams c s.params = none) :
    runConfig c s = .refused .illegalConfiguration := by
  simp [runConfig, h, hp]

/-- Settles O45: the line of the next step, by the session and by its values. -/
theorem configLineSetsParameters : Obligations.ConfigLineSetsParameters := by
  intro s c rest hscript full size pt first
  rw [step_of_cons hscript, runLine]
  have hparams := configParams_eq c s.params
  refine ⟨fun h => ?_, fun h hfull hsize hpt hfirst => ?_, fun h hbad => ?_⟩
  · exact runConfig_of_session (s := { s with script := rest }) h
  · rw [if_pos (by omega)] at hparams
    exact runConfig_of_some (s := { s with script := rest }) h hparams
  · rw [if_neg (by omega)] at hparams
    exact runConfig_of_none (s := { s with script := rest }) h hparams

/-! ### FRAME and DRAIN lines -/

/-- The pieces of a FRAME of at least `m` full datagrams: `m` full ones, then the rest (R103). -/
theorem framePieces_spec (size m : Nat) : ∀ {bs : List Byte}, m * size ≤ bs.length →
    ∃ pieces last, framePieces size m bs = pieces ++ [last] ∧ (pieces ++ [last]).flatten = bs ∧
      (∀ d ∈ pieces, d.length = size) ∧ last.length = bs.length - m * size := by
  induction m with
  | zero => exact fun {bs} _ => ⟨[], bs, rfl, by simp, by simp, by simp⟩
  | succ m ih =>
    intro bs hbs
    rw [Nat.succ_mul] at hbs
    obtain ⟨pieces, last, heq, hjoin, hsize, hlast⟩ := ih (bs := bs.drop size) (by rw [List.length_drop]; omega)
    refine ⟨bs.take size :: pieces, last, by rw [framePieces, heq, List.cons_append], ?_, ?_, ?_⟩
    · rw [List.cons_append, List.flatten_cons, hjoin, List.take_append_drop]
    · intro d hd
      obtain rfl | hd := List.mem_cons.1 hd
      · rw [List.length_take]; omega
      · exact hsize d hd
    · rw [hlast, List.length_drop, Nat.succ_mul]; omega

theorem runFrame_of_rest {s : State} (hc : s.Configured) {bs : List Byte} (h : bs.length % s.params.fullDgramSize ≠ 0) :
    runFrame bs s = .next { s with
      script := (framePieces s.params.fullDgramSize (bs.length / s.params.fullDgramSize) bs).map (fun d => .op (.dgram d))
        ++ s.script } := by
  rw [runFrame, whenConfigured_of hc, if_neg h]

theorem runFrame_of_multiple {s : State} (hc : s.Configured) {bs : List Byte} (h : bs.length % s.params.fullDgramSize = 0) :
    runFrame bs s = .refused .frameNotDefined := by
  rw [runFrame, whenConfigured_of hc, if_pos h]

/-- Settles O46: the pieces of a FRAME, and a DRAIN by its definition. -/
theorem frameAndDrainExpand : Obligations.FrameAndDrainExpand := by
  intro s rest hc
  refine ⟨fun bs hscript hrem => ?_, fun bs hscript hrem => ?_, step_of_cons⟩
  · obtain ⟨pieces, last, heq, hjoin, hsize, hlast⟩ :=
      framePieces_spec s.params.fullDgramSize (bs.length / s.params.fullDgramSize) (bs := bs) (Nat.div_mul_le_self _ _)
    refine ⟨pieces, last, ?_, hjoin, hsize, by rw [hlast, Nat.mod_eq_sub_div_mul]⟩
    rw [step_of_cons hscript, ← heq]
    exact runFrame_of_rest (s := { s with script := rest }) hc hrem
  · rw [step_of_cons hscript]
    exact runFrame_of_multiple (s := { s with script := rest }) hc hrem

/-! ### TIME lines

A TIME line fixes the held time, and no other line changes it, so until the next TIME line every sample is the same. -/

/-- Every sample is `v`, and no line to come says otherwise (R102). -/
def State.TimeFixed (v : BitVec 32) (s : State) : Prop := s.timeHeld = some v ∧ ∀ w, Line.time w ∉ s.script

/-- No instruction changes the held time or the script. -/
theorem State.TimeFixed.exec {v : BitVec 32} {s t : State} (hs : s.TimeFixed v) {i : Instr} (h : exec i s = .next t) :
    t.TimeFixed v := by
  obtain ⟨hscript, hheld⟩ := exec_host h
  rwa [State.TimeFixed, hscript, hheld]

/-- A line other than TIME keeps the held time, and puts no TIME line in its place (R102, R103). -/
theorem State.TimeFixed.runLine {v : BitVec 32} {s t : State} (hs : s.TimeFixed v) {l : Line} (hl : ∀ w, l ≠ .time w)
    (h : runLine l s = .next t) : t.TimeFixed v := by
  cases l with
  | config c =>
    simp only [Machine.runLine, runConfig] at h
    split at h
    · cases h
    · split at h <;> cases h
      exact hs
  | time w => exact absurd rfl (hl w)
  | op i => exact hs.exec (runInstr_eq_next h)
  | bytes bs =>
    cases hd : decode bs with
    | ok i => exact hs.exec (runInstr_eq_next ((runLine_bytes_ok hd s).symm.trans h))
    | error e => rw [runLine_bytes_error hd] at h; cases h
  | frame bs =>
    obtain ⟨-, h⟩ := whenConfigured_eq_next.1 h
    split at h <;> cases h
    exact ⟨hs.1, by simpa using hs.2⟩
  | drain => cases h; exact ⟨hs.1, by simpa using hs.2⟩

theorem State.TimeFixed.step {v : BitVec 32} {s t : State} (hs : s.TimeFixed v) (h : step s = .next t) : t.TimeFixed v := by
  cases hscript : s.script with
  | nil => exact hs.exec (step_of_nil hscript ▸ h)
  | cons l rest =>
    obtain ⟨hheld, hlines⟩ := hs
    simp only [hscript, List.mem_cons, not_or] at hlines
    rw [step_of_cons hscript] at h
    exact State.TimeFixed.runLine (s := { s with script := rest }) ⟨hheld, fun w => (hlines w).2⟩
      (fun w hl => (hlines w).1 hl.symm) h

theorem State.TimeFixed.after {v : BitVec 32} (n : Nat) :
    ∀ {s t : State}, s.TimeFixed v → s.after n = some t → t.TimeFixed v := by
  induction n with
  | zero => rintro s _ hs ⟨⟩; exact hs
  | succ n ih =>
    intro s t hs h
    cases hstep : Machine.step s with
    | next u => exact ih (hs.step hstep) (State.after_succ n hstep ▸ h)
    | fault r => simp [State.after, hstep] at h
    | refused r => simp [State.after, hstep] at h

theorem State.TimeFixed.samplesTaken {v : BitVec 32} (n : Nat) :
    ∀ {s : State}, s.TimeFixed v → ∀ a ∈ samplesTaken n s, a = v := by
  induction n with
  | zero => exact fun _ a ha => by cases ha
  | succ n ih =>
    intro s hs a ha
    cases hstep : Machine.step s with
    | next u =>
      simp only [Machine.samplesTaken, hstep] at ha
      split at ha
      · cases ha
      · exact (List.mem_append.1 ha).elim (samplesBetween_of_held hs.1 u a) (ih (hs.step hstep) a)
    | fault r => simp [Machine.samplesTaken, hstep] at ha
    | refused r => simp [Machine.samplesTaken, hstep] at ha

theorem State.TimeFixed.timeFrozenWithinDgram {v : BitVec 32} {s : State} (hs : s.TimeFixed v) : s.TimeFrozenWithinDgram := by
  intro m t u ht _ _ a ha b hb
  have hheld := (hs.after m ht).1
  rw [samplesBetween_of_held hheld u a ha, samplesBetween_of_held hheld u b hb]

theorem State.TimeFixed.timeMonotone {v : BitVec 32} {s : State} (hs : s.TimeFixed v) : s.TimeMonotone := by
  intro m t ht n j a b ha hb
  have hsample := State.TimeFixed.samplesTaken n (hs.after m ht)
  rw [hsample a (List.mem_of_getElem? ha), hsample b (List.mem_of_getElem? hb)]
  simp [notEarlier]

/-- Settles O44: the state after the line is fixed in time when no other TIME line follows. -/
theorem timeLineFixesTheDraws : Obligations.TimeLineFixesTheDraws := by
  intro s v rest hscript
  refine ⟨_, step_of_cons hscript, rfl, timeAt_of_held rfl, fun hrest => ?_⟩
  have hfixed : State.TimeFixed v { s with script := rest, timeHeld := some v } := ⟨rfl, hrest⟩
  exact ⟨hfixed.timeFrozenWithinDgram, hfixed.timeMonotone⟩

end Sys2Proof.Machine
end

section
/-! SUPPORT. Proofs for the family 40_frame_reassembler: what an append leaves in `CARRY`, what a flush emits, what a datagram above a
capacity does, and which of the two a datagram takes. -/

namespace Sys2Proof.Machine

/-! ### The capacities (R115) -/

theorem bufOverflow_eq_true_iff {s : State} {n : Nat} :
    bufOverflow s n = true ↔ above n s.params.dgramMax = true ∨ above (s.carryLen + n) s.params.bufCap = true :=
  Bool.or_eq_true_iff

theorem bufOverflow_eq_false_iff {s : State} {n : Nat} :
    bufOverflow s n = false ↔ above n s.params.dgramMax = false ∧ above (s.carryLen + n) s.params.bufCap = false :=
  Bool.or_eq_false_iff

theorem frAppend_of_overflow {s : State} {p : List Byte} (ho : bufOverflow s p.length = true) :
    frAppend p s = { s with carry := [], errBufOvf := true } := if_pos ho

theorem frAppend_of_no_overflow {s : State} {p : List Byte} (ho : bufOverflow s p.length = false) :
    frAppend p s = { s with carry := Memory.append s.carry p } := by
  rw [frAppend, ho, if_neg Bool.false_ne_true]

theorem frFlush_of_overflow {s : State} {p : List Byte} (ho : bufOverflow s p.length = true) :
    frFlush p s = .next { s with carry := [], errBufOvf := true } := if_pos ho

/-! ### The length selects (R110) -/

section
variable {s : State} {p : List Byte} (hc : s.Configured)
include hc

theorem exec_frAppend_of_full_size (hp : p.length = s.params.fullDgramSize) :
    exec (.frAppend p) s = .next (frAppend p s) := by
  simp [exec, execFrAppend, whenConfigured_of hc, isFullSize_eq_decide, hp]

theorem exec_frFlush_of_other_size (hp : p.length ≠ s.params.fullDgramSize) : exec (.frFlush p) s = frFlush p s := by
  simp [exec, execFrFlush, whenConfigured_of hc, isFullSize_eq_decide, hp]

theorem exec_dgram_of_no_session (hs : s.sessionActive = false) : exec (.dgram p) s = .next s := by
  rw [exec, execDgram, whenConfigured_of hc, hs, if_neg Bool.false_ne_true]

theorem exec_dgram_of_session (hs : s.sessionActive = true) :
    exec (.dgram p) s =
      andThen (if p.length = s.params.fullDgramSize then exec (.frAppend p) s else exec (.frFlush p) s) endOperation := by
  rw [exec, execDgram, whenConfigured_of hc, if_pos hs]
  by_cases hp : p.length = s.params.fullDgramSize
  · rw [if_pos hp, exec_frAppend_of_full_size hc hp, if_pos (by simpa [isFullSize] using hp)]
  · rw [if_neg hp, exec_frFlush_of_other_size hc hp, if_neg (by simpa [isFullSize] using hp)]

end

/-! ### What the stores hold -/

/-- `Append` on a canonical store: the old bytes, then the new ones (R11, R50). -/
theorem Memory.read_append {m : Memory} (h : Memory.wf m = true) (v : List Byte) (off : Nat) :
    Memory.read (Memory.append m v) off = if off < m.length then Memory.read m off else v[off - m.length]? := by
  rw [Memory.read_of_wf _ (Memory.wf_append m v h), Memory.read_of_wf m h, Memory.bytes_append, List.getElem?_append,
    Memory.bytes_length]

/-- The byte at an offset of a store written whole (R70). -/
theorem Memory.read_ofBytes (bs : List Byte) (off : Nat) : Memory.read (Memory.ofBytes bs) off = bs[off]? := by
  rw [Memory.read_of_wf _ (Memory.wf_ofBytes bs), Memory.bytes_ofBytes]

/-- The packets of a buffer depend on the buffer given, not on what the stores of the state hold. -/
theorem bufferPackets_with_stores (s : State) (m c : Memory) (q : BitVec 16) (x : BitVec 32) (au : List Byte) (j : Nat)
    (units : List (Nat × Nat)) :
    bufferPackets { s with au := m, carry := c } q x au j units = bufferPackets s q x au j units := by
  have ht : ∀ j, timeAt { s with au := m, carry := c } j = timeAt s (0 + j) := fun j => by rw [Nat.zero_add]; rfl
  simpa using bufferPackets_shift s { s with au := m, carry := c } q x au 0 rfl ht units j

/-! ### The statements -/

/-- Settles O37: within the capacities the row appends, and a canonical carry-over then reads as its old bytes and the new ones. -/
theorem appendWritesAfterTheCarry : Obligations.AppendWritesAfterTheCarry := by
  intro payload s hc hwf hlen hmax hcap
  refine ⟨{ s with carry := Memory.append s.carry payload }, ?_, Memory.append_length _ _, Memory.read_append hwf.1 payload, rfl⟩
  rw [exec_frAppend_of_full_size hc hlen, frAppend_of_no_overflow (bufOverflow_eq_false_iff.2 ⟨hmax, hcap⟩)]

/-- Settles O39: a flush within the capacities is `ProcessAccessUnit` on the joined buffer, whose packets do not depend on what the
stores held before. -/
theorem flushEmitsTheAccessUnit : Obligations.FlushEmitsTheAccessUnit := by
  intro payload s q x hc hwf ⟨hq, hx⟩ hlen hmax hcap buf
  obtain ⟨d, hd⟩ := frFlush_eq hc hwf.1 hq hx (bufOverflow_eq_false_iff.2 ⟨hmax, hcap⟩)
  refine ⟨d, Memory.ofBytes buf, ?_, Memory.read_ofBytes buf⟩
  rw [exec_frFlush_of_other_size hc hlen, hd, bufferPackets_with_stores, flushBuffer]

/-- Settles O36: the session flag first, then the length. -/
theorem datagramLengthSelects : Obligations.DatagramLengthSelects := by
  intro payload s hc
  refine ⟨exec_dgram_of_no_session hc, fun hs hlen => ?_, fun hs hlen => ?_⟩
  · rw [exec_dgram_of_session hc hs, if_pos hlen]
  · rw [exec_dgram_of_session hc hs, if_neg hlen]

/-- Settles O38: either row tests the capacities before anything else. -/
theorem bufferOverflowDiscards : Obligations.BufferOverflowDiscards := by
  intro payload s hc hover
  have ho : bufOverflow s payload.length = true := bufOverflow_eq_true_iff.2 hover
  refine ⟨fun hlen => ?_, fun hlen => ?_⟩
  · rw [exec_frAppend_of_full_size hc hlen, frAppend_of_overflow ho]
  · rw [exec_frFlush_of_other_size hc hlen, frFlush_of_overflow ho]

end Sys2Proof.Machine
end

section
/-! SUPPORT. Proofs for the family 41_bitstream_scanner: the pattern tests, the two searches, `SCAN.NEXT` and the whole scan of a
buffer. -/

namespace Sys2Proof.Machine

/-! ### The pattern tests (R121, R122) -/

theorem isBoundary_iff (rest : List Byte) : isBoundary rest = true ↔ match3 0#8 rest = true ∨ match3 1#8 rest = true :=
  Bool.or_eq_true_iff

/-- Settles O7: the tests by offset; an index that holds a byte lies inside the buffer. -/
theorem patternPredicates : Obligations.PatternPredicates := by
  intro au i c
  refine ⟨?_, ?_, isStart_iff _, isBoundary_iff _, fun h => ?_⟩
  · rw [match3_drop]
    exact ⟨fun h => ⟨(List.getElem?_eq_some_iff.1 h.2.2).1, h⟩, And.right⟩
  · rw [match4_drop]
    exact ⟨fun h => ⟨(List.getElem?_eq_some_iff.1 h.2.2.2).1, h⟩, And.right⟩
  · obtain ⟨-, h1, h2, h3⟩ := (match4_drop au i).1 h
    refine ⟨?_, (match3_drop 1#8 au (i + 1)).2 ⟨h1, h2, h3⟩⟩
    rw [← Bool.not_eq_true, match3_drop, h2]
    simp

/-! ### The searches (R123, R124) -/

/-- Settles O8: what `FindStart` can answer, and that two first start codes stand at one index. -/
theorem findStartIsFirst : Obligations.FindStartIsFirst := by
  intro au p s hp
  rcases findStart_cases au p hp with ⟨j, hpj, hj, hnear, hfirst, heq⟩ | ⟨j, -, -, hnone, heq⟩
  · rw [heq, Option.some_inj]
    constructor
    · rintro rfl
      exact ⟨j, hpj, hj, hfirst, hnear, rfl⟩
    · rintro ⟨i, hpi, hi, hfirst', -, rfl⟩
      have hij : ¬ i < j := fun hlt => by simp [hfirst i hpi hlt] at hi
      have hji : ¬ j < i := fun hlt => by simp [hfirst' j hpj hlt] at hj
      obtain rfl : i = j := by omega
      rfl
  · rw [heq]
    constructor
    · intro h
      cases h
    · rintro ⟨i, hpi, hi, -, hnear, -⟩
      simp [hnone i hpi hnear] at hi

/-- Settles O9: the two answers `FindEnd` has. -/
theorem findEndIsFirst : Obligations.FindEndIsFirst := by
  intro au s hs
  obtain ⟨hle, hlen, -⟩ := findEnd_bounds au s hs.le
  refine ⟨hle, hlen, ?_⟩
  rcases findEnd_cases au s hs.le with ⟨j, -, hj, hbefore, heq⟩ | ⟨j, -, -, hnone, heq⟩
  · rw [heq]
    exact ⟨hbefore, fun _ => hj⟩
  · rw [heq]
    exact ⟨fun t hst _ => hnone t hst, fun h => absurd h (Nat.lt_irrefl _)⟩

/-- The index `FindEnd` answers is the only one with the properties of R124. -/
theorem findEnd_eq_of_first {au : List Byte} {s e : Nat} (hs : s < au.length) (hse : s ≤ e) (he : e ≤ au.length)
    (hbefore : ∀ j, s ≤ j → j < e → isBoundary (au.drop j) = false)
    (hat : e < au.length → isBoundary (au.drop e) = true) : (findEnd au s).1 = e := by
  obtain ⟨hle, hlen, hbefore', hat'⟩ := findEndIsFirst au s hs
  have hlt : ¬ (findEnd au s).1 < e := fun h => by simp [hbefore _ hle h] at hat'; omega
  have hgt : ¬ e < (findEnd au s).1 := fun h => by simp [hbefore' e hse h] at hat; omega
  omega

/-- A start code `00 00 01` at the scan pointer is found there. -/
theorem findStart_of_match3 {au : List Byte} {p : Nat} (h : match3 1#8 (au.drop p) = true) :
    findStart au p = (some (p + 3), p) := by
  rw [findStart]
  cases hd : au.drop p with
  | nil => rw [hd] at h; cases h
  | cons b rest => rw [findStartFrom, if_pos (hd ▸ h)]

/-! ### `SCAN.NEXT` (R125, R127) -/

/-- Settles O10: the loop unrolled once. -/
theorem scanStepFollowsLoop : Obligations.ScanStepFollowsLoop := by
  intro au p hp
  have hstep := scanStep_eq au p hp
  rcases hfs : findStart au p with ⟨_ | s, i⟩
  · simpa only [hfs] using hstep
  · simp only [hfs] at hstep
    dsimp only
    split
    · next h => rw [hstep, if_pos h]
    · next h =>
      rw [if_neg h] at hstep
      split
      · next h' => rw [hstep, if_pos h']
      · next h' => rw [hstep, if_neg h']

/-- A start code with a byte at least before the end found for it is a unit. -/
theorem scanStep_unit_of_find {au : List Byte} {p s i : Nat} (hp : p ≤ au.length) (hstart : findStart au p = (some s, i))
    (hend : s < (findEnd au s).1) : (scanStep au p).unit = some (s, (findEnd au s).1) := by
  obtain ⟨-, hs, -, -⟩ := findStart_some_bounds hp hstart
  obtain ⟨-, he, -⟩ := findEnd_bounds au s hs
  have hloop := scanStepFollowsLoop au p hp
  simp only [hstart] at hloop
  rw [if_neg (by omega), if_pos hend] at hloop
  rw [hloop]

/-- Settles O16: the row by its meaning; where there is no scan pointer the scan is from 0. -/
theorem scanNextWritesRegisters : Obligations.ScanNextWritesRegisters := by
  intro s p hc hp _ r
  have hp0 : s.dp.p.getD 0 = p := by
    rcases hp with hp | ⟨hp, rfl⟩ <;> rw [hp] <;> rfl
  have hexec : exec .scanNext s = .next (scanNext s) := whenConfigured_of hc _
  rw [scanNext, hp0] at hexec
  rcases hu : r.unit with _ | ⟨a, b⟩ <;> simpa only [hu, r] using hexec

/-! ### `ScanAll` (R126, R127) -/

section
variable {au : List Byte} {p : Nat}

theorem scanAllFrom_of_done (fuel : Nat) (h : (scanStep au p).unit = none) : scanAllFrom au fuel p = [] := by
  cases fuel with
  | zero => rfl
  | succ fuel => rw [scanAllFrom, h]

theorem scanAllFrom_of_unit {u : Nat × Nat} (fuel : Nat) (h : (scanStep au p).unit = some u) :
    scanAllFrom au (fuel + 1) p = u :: scanAllFrom au fuel (scanStep au p).p := by
  rw [scanAllFrom, h]

end

/-- Each unit takes at least three bytes of what is left of the buffer. -/
theorem scanAllFrom_length_le (au : List Byte) (fuel p : Nat) (hp : p ≤ au.length) :
    3 * (scanAllFrom au fuel p).length + p ≤ au.length := by
  induction fuel generalizing p with
  | zero => simpa [scanAllFrom] using hp
  | succ fuel ih =>
    rcases hu : (scanStep au p).unit with _ | ⟨a, b⟩
    · simpa [scanAllFrom_of_done _ hu] using hp
    · obtain ⟨ha, hab, hb, hpb⟩ := scanStep_unit hp hu
      have := ih (scanStep au p).p (by omega)
      rw [scanAllFrom_of_unit _ hu, List.length_cons]
      omega

/-- Settles O11: the bounds of one round, and the bytes each unit takes. -/
theorem scanTerminates : Obligations.ScanTerminates := by
  intro au
  refine ⟨fun p hp => ?_, ?_⟩
  · obtain ⟨hlen, hi, -, -⟩ := scanFrom_bounds au (au.length + 1) p hp
    refine ⟨hlen, hi, fun hunit => ?_⟩
    obtain ⟨⟨a, b⟩, hu⟩ := Option.isSome_iff_exists.1 hunit
    obtain ⟨ha, hab, -, hpb⟩ := scanStep_unit hp hu
    omega
  · have : 3 * (scanAll au).length + 0 ≤ au.length := scanAllFrom_length_le au (au.length + 1) 0 (Nat.zero_le _)
    omega

/-- A start code lies between any two units, which are in byte order. -/
theorem scanAllFrom_pairwise (au : List Byte) (fuel p : Nat) (hp : p ≤ au.length) :
    (scanAllFrom au fuel p).Pairwise (fun u v => u.2 + 3 ≤ v.1) := by
  induction fuel generalizing p with
  | zero => exact .nil
  | succ fuel ih =>
    rcases hu : (scanStep au p).unit with _ | ⟨a, b⟩
    · rw [scanAllFrom_of_done _ hu]
      exact .nil
    · obtain ⟨-, -, hb, hpb⟩ := scanStep_unit hp hu
      rw [scanAllFrom_of_unit _ hu, hpb]
      exact .cons (fun v hv => (scanAllFrom_bounds au fuel b hb v hv).1) (ih b hb)

/-- Settles O12: one round and the rest, the bounds of every unit, and their order. -/
theorem scanAllInOrder : Obligations.ScanAllInOrder := by
  intro au
  refine ⟨fun p hp => ?_, rfl, fun u hu => ?_, scanAllFrom_pairwise au _ 0 (Nat.zero_le _)⟩
  · rcases hu : (scanStep au p).unit with _ | ⟨a, b⟩
    · exact scanAllFrom_of_done _ hu
    · obtain ⟨ha, hab, hb, hpb⟩ := scanStep_unit hp hu
      rw [scanAllFrom_of_unit _ hu, scanAllFrom_fuel au au.length (au.length + 1) _ (by omega) (by omega) (by omega)]
  · simpa using scanAllFrom_bounds au (au.length + 1) 0 (Nat.zero_le _) u hu

/-! ### Start-coded payloads (R130) -/

/-- The payloads one after the other, each behind a start code `00 00 01`. -/
def startCoded (payloads : List (List Byte)) : List Byte := (payloads.map (fun u => [0#8, 0#8, 1#8] ++ u)).flatten

theorem startCoded_cons (u : List Byte) (payloads : List (List Byte)) :
    startCoded (u :: payloads) = [0#8, 0#8, 1#8] ++ (u ++ startCoded payloads) := by
  simp [startCoded]

theorem match3_startCoded_cons (u : List Byte) (payloads : List (List Byte)) :
    match3 1#8 (startCoded (u :: payloads)) = true := rfl

/-- What follows a payload is nothing or a start code, which is a boundary. -/
theorem isBoundary_startCoded {payloads : List (List Byte)} (h : payloads ≠ []) : isBoundary (startCoded payloads) = true := by
  obtain ⟨u, payloads, rfl⟩ := List.exists_cons_of_ne_nil h
  rfl

/-- Bytes behind a payload that does not end in zero complete no pattern: one that begins inside it and ends outside it has the
last byte of the payload as one of its two zeros. -/
theorem match3_append_eq_false {c : Byte} {u rest : List Byte} {j : Nat} (hj : j < u.length)
    (hu : match3 c (u.drop j) = false) (hend : u.getLast? ≠ some 0#8) : match3 c ((u ++ rest).drop j) = false := by
  rw [← Bool.not_eq_true, match3_drop] at hu ⊢
  rintro ⟨h0, h1, h2⟩
  rw [List.getElem?_append_left hj] at h0
  rw [List.getLast?_eq_getElem?] at hend
  by_cases hj1 : j + 1 < u.length
  · rw [List.getElem?_append_left hj1] at h1
    by_cases hj2 : j + 2 < u.length
    · rw [List.getElem?_append_left hj2] at h2
      exact hu ⟨h0, h1, h2⟩
    · exact hend (by rwa [show u.length - 1 = j + 1 by omega])
  · exact hend (by rwa [show u.length - 1 = j by omega])

theorem isBoundary_append_eq_false {u rest : List Byte} {j : Nat} (hj : j < u.length)
    (hu : isBoundary (u.drop j) = false) (hend : u.getLast? ≠ some 0#8) : isBoundary ((u ++ rest).drop j) = false := by
  obtain ⟨h0, h1⟩ := Bool.or_eq_false_iff.1 hu
  exact Bool.or_eq_false_iff.2 ⟨match3_append_eq_false hj h0 hend, match3_append_eq_false hj h1 hend⟩

/-- From the start of a payload the end search stops at the payload's end. -/
theorem findEnd_payload {au u : List Byte} {payloads : List (List Byte)} {s : Nat} (hd : au.drop s = u ++ startCoded payloads)
    (hne : u ≠ []) (hfree : ∀ j, isBoundary (u.drop j) = false) (hend : payloads ≠ [] → u.getLast? ≠ some 0#8) :
    (findEnd au s).1 = s + u.length := by
  have hpos : 0 < u.length := List.length_pos_of_ne_nil hne
  have hlen : au.length - s = u.length + (startCoded payloads).length := by
    rw [← List.length_drop, hd, List.length_append]
  have hat : au.drop (s + u.length) = startCoded payloads := by rw [← List.drop_drop, hd, List.drop_left]
  refine findEnd_eq_of_first (by omega) (by omega) (by omega) (fun j hsj hje => ?_) (fun hlt => ?_)
  · obtain ⟨k, rfl⟩ := Nat.exists_eq_add_of_le hsj
    rw [← List.drop_drop, hd]
    rcases payloads with _ | ⟨v, payloads⟩
    · simpa [startCoded] using hfree k
    · exact isBoundary_append_eq_false (by omega) (hfree k) (hend (List.cons_ne_nil _ _))
  · rw [hat]
    refine isBoundary_startCoded ?_
    rintro rfl
    simp [startCoded] at hlen
    omega

/-- The scan from an offset behind which payloads follow gives those payloads. -/
theorem scanAllFrom_startCoded (au : List Byte) (payloads : List (List Byte)) (fuel p : Nat) (hp : p ≤ au.length)
    (hfuel : au.length < fuel + p) (hd : au.drop p = startCoded payloads)
    (hfree : ∀ u ∈ payloads, u ≠ [] ∧ ∀ j, isBoundary (u.drop j) = false)
    (hend : ∀ u ∈ payloads.dropLast, u.getLast? ≠ some 0#8) :
    (scanAllFrom au fuel p).map (fun u => (au.drop u.1).take (u.2 - u.1)) = payloads := by
  induction payloads generalizing fuel p with
  | nil =>
    obtain rfl : p = au.length := by
      have := List.drop_eq_nil_iff.1 hd
      omega
    have hlen := scanAllFrom_length_le au fuel au.length hp
    rw [List.length_eq_zero_iff.1 (by omega : (scanAllFrom au fuel au.length).length = 0), List.map_nil]
  | cons u payloads ih =>
    obtain ⟨hne, hu⟩ := hfree u List.mem_cons_self
    have hpos : 0 < u.length := List.length_pos_of_ne_nil hne
    have hstart := findStart_of_match3 (hd ▸ match3_startCoded_cons u payloads)
    have hbody : au.drop (p + 3) = u ++ startCoded payloads := by
      rw [← List.drop_drop, hd, startCoded_cons]
      rfl
    have hfind := findEnd_payload hbody hne hu fun h => hend u (by simp [List.dropLast_cons_of_ne_nil h])
    have hunit := scanStep_unit_of_find hp hstart (by omega)
    obtain ⟨-, -, hb, hnext⟩ := scanStep_unit hp hunit
    obtain ⟨fuel, rfl⟩ : ∃ f, fuel = f + 1 := ⟨fuel - 1, by omega⟩
    have hrest : au.drop (p + 3 + u.length) = startCoded payloads := by rw [← List.drop_drop, hbody, List.drop_left]
    have hend' : ∀ v ∈ payloads.dropLast, v.getLast? ≠ some 0#8 := by
      intro v hv
      refine hend v ?_
      rw [List.dropLast_cons_of_ne_nil (by rintro rfl; cases hv)]
      exact List.mem_cons_of_mem _ hv
    rw [hfind] at hunit hb hnext
    rw [scanAllFrom_of_unit _ hunit, hnext, List.map_cons, hbody, Nat.add_sub_cancel_left, List.take_left,
      ih fuel _ hb (by omega) hrest (fun v hv => hfree v (List.mem_cons_of_mem _ hv)) hend']

/-- Settles O13: the scan from the first start code. -/
theorem scannerFindsEveryUnit : Obligations.ScannerFindsEveryUnit :=
  fun payloads hfree hend => scanAllFrom_startCoded _ payloads _ 0 (Nat.zero_le _) (by omega) rfl hfree hend

end Sys2Proof.Machine
end

section
/-! SUPPORT. Proofs for the family 42_nal_classifier: `CLASSIFY` on a header byte that is present. -/

namespace Sys2Proof.Machine

theorem isIdr_eq_decide (type : BitVec 5) : isIdr type = decide (type = 5#5) := rfl

/-- The registers of `latchHeader` as slices of the header byte (R141, R142). -/
theorem latchHeader_eq_extract (h : Byte) (s : State) :
    latchHeader h s = { s with dp := { s.dp with
      hdr := some h, f := some (h.extractLsb' 7 1), nri := some (h.extractLsb' 5 2), type := some (h.extractLsb' 0 5),
      isIdr := some (decide (h.extractLsb' 0 5 = 5#5)) } } := by
  simp only [latchHeader, nalF, nalNri, nalType, isIdr_eq_decide]

/-- The row reads the header byte at `nal_start` and latches its fields (R141). -/
theorem exec_classify_of_read {s : State} {a : Nat} {h : Byte} (hc : s.Configured) (ha : s.dp.nalStart = some a)
    (hr : Memory.read s.au a = some h) : exec .classify s = .next (latchHeader h s) := by
  rw [exec, execClassify, whenConfigured_of hc, classify, ha, readReg_some, hr]

/-- Settles O17: the header read, and each field as its bits of the header byte. -/
theorem classifyExtractsFields : Obligations.ClassifyExtractsFields := by
  intro s a h hc ha hr
  rw [exec_classify_of_read hc ha hr, latchHeader_eq_extract]

end Sys2Proof.Machine
end

section
/-! SUPPORT. Proofs for the family 43_rtp_header_builder: the bytes of `BUILD_HDR` and where the row puts them. -/

namespace Sys2Proof.Machine

/-- The header as its first two bytes and its three numbers (R148). -/
theorem buildHeader_eq_append (seq : BitVec 16) (ts ssrc : BitVec 32) (m : Bool) (pt : BitVec 7) :
    buildHeader seq ts ssrc m pt = [0x80#8, BitVec.ofBool m ++ pt] ++ be16 seq ++ be32 ts ++ be32 ssrc := by
  rw [buildHeader, rtpHeaderBytes_eq_append]

/-- V, P, X and CC of every header make its first byte (R148). -/
theorem rtpByte0_eq_append : 0x80#8 = 2#2 ++ 0#1 ++ 0#1 ++ 0#4 := by decide

/-- Settles O6: the first byte by its fields, and each number by its bytes, most significant first. -/
theorem rtpHeaderLayout : Obligations.RtpHeaderLayout := by
  intro seq ts ssrc m pt
  rw [buildHeader_eq_append, rtpByte0_eq_append]
  simp only [be16, be32, List.cons_append, List.nil_append]

/-- Settles O20: the row's meaning in a configured state, with the header's bytes written out. -/
theorem buildHeaderChangesNothingElse : Obligations.BuildHeaderChangesNothingElse := by
  intro seq ts ssrc m pt s hc
  rw [exec, execBuildHdr, whenConfigured_of hc, buildHeader_eq_append]

end Sys2Proof.Machine
end

section
/-! SUPPORT. Proofs for the family 44_packetizer: the chunks of a unit and the packets they give, as functions of its bytes. -/

namespace Sys2Proof.Machine

/-! ### Chunks (R157, R158) -/

/-- The chunks before the last are full, and something is left for the last (R158). -/
theorem unitCount_body {c : Params} {a b : Nat} (hm : 1 ≤ c.maxPayload) (h0 : 0 < b - a - 1) :
    (unitCount c a b - 1) * c.maxPayload < b - a - 1 ∧ b - a - 1 ≤ (unitCount c a b - 1) * c.maxPayload + c.maxPayload := by
  have hpos := unitCount_pos c a b hm
  refine ⟨Nat.lt_of_not_le fun hle => ?_, ?_⟩
  · have := (unitCount_le hm h0).2 hle
    omega
  · rw [← Nat.succ_mul, Nat.succ_eq_add_one, Nat.sub_add_cancel hpos]
    exact (unitCount_le hm h0).1 le_rfl

/-- Settles O21: from the bound that makes `n` the least number of chunks. -/
theorem chunkCountIsCeiling : Obligations.ChunkCountIsCeiling := by
  intro c a b hm _ len
  have hone : unitCount c a b = 1 ↔ len ≤ c.maxPayload := unitCount_eq_one_iff hm
  have hpos := unitCount_pos c a b hm
  exact ⟨hone, by omega, fun h0 => hone.2 (by omega),
    fun h0 => ⟨(unitCount_le hm h0).1 le_rfl, fun q => (unitCount_le hm h0).2⟩⟩

/-- Consecutive pieces of `m` bytes, put together, are the bytes they were taken from. -/
theorem flatten_pieces (m : Nat) (l : List Byte) (n : Nat) :
    ((List.range n).map fun k => (l.drop (k * m)).take m).flatten = l.take (n * m) := by
  induction n with
  | zero => simp
  | succ n ih => simp [List.range_succ, ih, Nat.succ_mul, List.take_add]

/-- The chunks in order are exactly the body (R158). -/
theorem flatten_chunkBytes {c : Params} {a b : Nat} (hm : 1 ≤ c.maxPayload) (au : List Byte) :
    ((List.range (unitCount c a b)).map (chunkBytes c au a b)).flatten = (au.drop (a + 1)).take (b - a - 1) := by
  have hall : b - a - 1 ≤ unitCount c a b * c.maxPayload := by
    obtain h0 | h0 := Nat.eq_zero_or_pos (b - a - 1)
    · omega
    · exact (unitCount_le hm h0).1 le_rfl
  calc ((List.range (unitCount c a b)).map (chunkBytes c au a b)).flatten
    _ = ((au.drop (a + 1)).take (b - a - 1)).take (unitCount c a b * c.maxPayload) := by
      rw [← flatten_pieces]
      simp only [← chunkBytes_eq]
    _ = (au.drop (a + 1)).take (b - a - 1) := List.take_of_length_le ((List.length_take_le _ _).trans hall)

/-- The only chunk of a unit is its body (R158). -/
theorem chunkBytes_of_unitCount_one {c : Params} {a b : Nat} (hm : 1 ≤ c.maxPayload) (hn : unitCount c a b = 1) (au : List Byte) :
    chunkBytes c au a b 0 = (au.drop (a + 1)).take (b - a - 1) := by
  rw [← flatten_chunkBytes hm, hn]
  simp

/-- The body of a unit inside the buffer (R157). -/
theorem body_length {au : List Byte} {a b : Nat} (hb : b ≤ au.length) :
    ((au.drop (a + 1)).take (b - a - 1)).length = b - a - 1 := by
  rw [List.length_take, List.length_drop]
  omega

/-- The unit is its header byte and its body (R157). -/
theorem unit_eq_cons {au : List Byte} {h : Byte} {a b : Nat} (hab : a < b) (hh : au[a]? = some h) :
    (au.drop a).take (b - a) = h :: (au.drop (a + 1)).take (b - a - 1) := by
  obtain ⟨hlt, rfl⟩ := List.getElem?_eq_some_iff.1 hh
  rw [List.drop_eq_getElem_cons hlt, show b - a = b - a - 1 + 1 by omega, List.take_succ_cons, Nat.add_sub_cancel]

/-- Every chunk but the last is full (R158). -/
theorem chunkBytes_length_full {c : Params} {au : List Byte} {a b k : Nat} (hm : 1 ≤ c.maxPayload) (hb : b ≤ au.length)
    (hk : k + 1 < unitCount c a b) : (chunkBytes c au a b k).length = c.maxPayload := by
  have hbody := body_of_two_le_unitCount (c := c) (a := a) (b := b) (by omega)
  have hleft : (k + 1) * c.maxPayload < b - a - 1 :=
    Nat.lt_of_not_le fun hle => by have := (unitCount_le hm (by omega)).2 hle; omega
  rw [Nat.succ_mul] at hleft
  rw [chunkBytes_length hb]
  omega

/-- Settles O22: the length of a chunk by its index, and the chunks as consecutive pieces of the body. -/
theorem chunksPartitionTheBody : Obligations.ChunksPartitionTheBody := by
  intro c au a b hm hab hb len n
  have hbody (h0 : 0 < len) : (n - 1) * c.maxPayload < len ∧ len ≤ (n - 1) * c.maxPayload + c.maxPayload :=
    unitCount_body hm h0
  have hlast : (chunkBytes c au a b (n - 1)).length = min c.maxPayload (len - (n - 1) * c.maxPayload) := chunkBytes_length hb
  exact ⟨fun k => chunkBytes_length_full hm hb, by omega, by omega, flatten_chunkBytes hm au⟩

/-! ### Layouts (R159, R163) -/

section
variable {n k : Nat}

theorem layoutOf_eq_single_iff : layoutOf n k = .single ↔ n = 1 := by
  unfold layoutOf
  split_ifs <;> simp [*]

theorem layoutOf_eq_fuaS_iff (hn : 2 ≤ n) : layoutOf n k = .fuaS ↔ k = 0 := by
  rw [layoutOf, if_neg (by omega)]
  split_ifs <;> simp [*]

theorem layoutOf_eq_fuaE_iff (hn : 2 ≤ n) : layoutOf n k = .fuaE ↔ k + 1 = n := by
  rw [layoutOf, if_neg (by omega)]
  split_ifs <;> simp <;> omega

/-- The marker is on the last packet of a unit and on no other (R163). -/
theorem marker_layoutOf (hk : k < n) : (layoutOf n k).marker = decide (k + 1 = n) := by
  unfold layoutOf
  split_ifs <;> simp [PacketKind.marker] <;> omega

end

/-! ### The bytes of a packet (R82, R87, R88) -/

section
variable (x : PacketFields)

theorem encodePacket_getElem_zero : (encodePacket x)[0]? = some 0x80#8 := rfl

theorem encodePacket_getElem_one : (encodePacket x)[1]? = some (BitVec.ofBool x.kind.marker ++ x.pt) :=
  congrArg some (rtpByte1_eq_append _ _)

theorem encodePacket_seq : ((encodePacket x).drop 2).take 2 = be16 x.seq := rfl

theorem encodePacket_ts : ((encodePacket x).drop 4).take 4 = be32 x.ts := rfl

theorem encodePacket_ssrc : ((encodePacket x).drop 8).take 4 = be32 x.ssrc := rfl

theorem encodePacket_drop_header : (encodePacket x).drop 12 = leadBytes x ++ x.chunk := rfl

variable {x}

/-- The NAL header byte stands before the body of a single packet (R87). -/
theorem leadBytes_single (hx : x.kind = .single) : leadBytes x = [nalHeaderByte x.f x.nri x.type] := by
  rw [leadBytes, hx]

/-- The FU bytes stand before the chunk of a fragment, `S` and `E` as its layout says (R88). -/
theorem leadBytes_fragment (hx : x.kind ≠ .single) :
    leadBytes x = [fuIndicator x.f x.nri, fuHeader (decide (x.kind = .fuaS)) (decide (x.kind = .fuaE)) x.type] := by
  rw [leadBytes]
  cases hk : x.kind with
  | single => exact absurd hk hx
  | fuaS | fuaM | fuaE => rfl

theorem encodePacket_getElem_twelve (hx : x.kind ≠ .single) : (encodePacket x)[12]? = some (fuIndicator x.f x.nri) := by
  rw [← Nat.add_zero 12, ← List.getElem?_drop, encodePacket_drop_header, leadBytes_fragment hx]
  rfl

theorem encodePacket_getElem_thirteen (hx : x.kind ≠ .single) :
    (encodePacket x)[13]? = some (fuHeader (decide (x.kind = .fuaS)) (decide (x.kind = .fuaE)) x.type) := by
  rw [show 13 = 12 + 1 from rfl, ← List.getElem?_drop, encodePacket_drop_header, leadBytes_fragment hx]
  rfl

theorem encodePacket_drop_chunk (hx : x.kind ≠ .single) : (encodePacket x).drop 14 = x.chunk := by
  rw [← List.drop_drop (i := 2) (j := 12), encodePacket_drop_header, leadBytes_fragment hx]
  rfl

end

/-! ### The packets of a unit (R165 to R172) -/

section
variable {s : State} {q : BitVec 16} {x : BitVec 32} {au : List Byte} {h : Byte} {a b j k : Nat}

@[simp] theorem unitPackets_length : (unitPackets s q x au h a b j).length = unitCount s.params a b := by
  simp [unitPackets]

theorem unitPackets_getElem? (hk : k < unitCount s.params a b) :
    (unitPackets s q x au h a b j)[k]? = some (encodePacket (unitPacket s q x au h a b j k)) := by
  simp [unitPackets, hk]

/-- What a unit's packet is, by its index. -/
theorem of_unitPackets_getElem? {pkt : Packet} (hp : (unitPackets s q x au h a b j)[k]? = some pkt) :
    k < unitCount s.params a b ∧ pkt = encodePacket (unitPacket s q x au h a b j k) := by
  obtain ⟨hk, -⟩ := List.getElem?_eq_some_iff.1 hp
  rw [unitPackets_length] at hk
  rw [unitPackets_getElem? hk, Option.some.injEq] at hp
  exact ⟨hk, hp.symm⟩

theorem unitPackets_single (hn : unitCount s.params a b = 1) :
    unitPackets s q x au h a b j = [encodePacket (unitPacket s q x au h a b j 0)] := by
  simp [unitPackets, hn]

theorem unitPacket_kind_single (hn : unitCount s.params a b = 1) : (unitPacket s q x au h a b j k).kind = .single :=
  layoutOf_eq_single_iff.2 hn

theorem unitPacket_kind_fragment (hn : 2 ≤ unitCount s.params a b) : (unitPacket s q x au h a b j k).kind ≠ .single :=
  mt layoutOf_eq_single_iff.1 (by omega)

/-- The one packet of a unit has 13 bytes before the body (R165). -/
theorem single_length (hm : 1 ≤ s.params.maxPayload) (hb : b ≤ au.length) (hn : unitCount s.params a b = 1) :
    (encodePacket (unitPacket s q x au h a b j 0)).length = 13 + (b - a - 1) := by
  rw [encodePacket_length, if_pos (unitPacket_kind_single hn), ← body_length hb, ← chunkBytes_of_unitCount_one hm hn]
  rfl

/-- A fragment has 14 bytes before its chunk (R165). -/
theorem fragment_length (hn : 2 ≤ unitCount s.params a b) :
    (encodePacket (unitPacket s q x au h a b j k)).length = 14 + (chunkBytes s.params au a b k).length := by
  rw [encodePacket_length, if_neg (unitPacket_kind_fragment hn)]
  rfl

theorem unitPacket_sized : packetSized s.params (encodePacket (unitPacket s q x au h a b j k)) := by
  have hle : (unitPacket s q x au h a b j k).chunk.length ≤ s.params.maxPayload := chunkBytes_length_le _ _ _ _ _
  rw [packetSized, encodePacket_length]
  split <;> omega

/-- The bytes of all fragments of a unit: 14 for each, and the body (R165). -/
theorem fragments_total_length (hm : 1 ≤ s.params.maxPayload) (hb : b ≤ au.length) (hn : 2 ≤ unitCount s.params a b) :
    ((unitPackets s q x au h a b j).map List.length).sum = 14 * unitCount s.params a b + (b - a - 1) := by
  rw [← body_length hb, ← flatten_chunkBytes hm, unitPackets, List.map_map]
  simp [Function.comp_def, fragment_length hn, List.sum_map_add, List.length_flatten, Nat.mul_comm]

/-- From byte 14 on the fragments of a unit are its body (R172). -/
theorem flatten_fragments (hm : 1 ≤ s.params.maxPayload) (hn : 2 ≤ unitCount s.params a b) :
    ((unitPackets s q x au h a b j).map (List.drop 14)).flatten = (au.drop (a + 1)).take (b - a - 1) := by
  rw [← flatten_chunkBytes hm, unitPackets, List.map_map]
  congr 2
  funext k
  exact encodePacket_drop_chunk (unitPacket_kind_fragment hn)

/-- From byte 12 on the one packet of a unit is the unit (R172). -/
theorem single_drop_header (hm : 1 ≤ s.params.maxPayload) (hn : unitCount s.params a b = 1) :
    (encodePacket (unitPacket s q x au h a b j 0)).drop 12 = h :: (au.drop (a + 1)).take (b - a - 1) := by
  rw [encodePacket_drop_header, leadBytes_single (unitPacket_kind_single hn), ← chunkBytes_of_unitCount_one hm hn]
  exact congrArg (· :: _) (nalHeaderByte_fields h)

end

/-- Settles O23: the length of each packet by its layout, and the chunks' lengths together. -/
theorem packetLengths : Obligations.PacketLengths := by
  intro s q x au h a b j hm hab hb len n pkts
  refine ⟨fun hn => ?_, fun hn => ⟨fun k hk => ?_, fun k hk => ?_, ?_⟩, fun pkt hp => ?_⟩
  · rw [show pkts = _ from unitPackets_single hn, List.map_singleton, single_length hm hb hn]
  · rw [unitPackets_getElem? (by omega), Option.map_some, fragment_length hn, chunkBytes_length_full hm hb hk]
  · rw [unitPackets_getElem? hk, Option.map_some, fragment_length hn]
  · rw [fragments_total_length hm hb hn]
  · obtain ⟨k, -, rfl⟩ := List.mem_map.1 hp
    exact unitPacket_sized

/-- The number of packets as R171 writes it. -/
theorem unitCount_eq_max {c : Params} {a b : Nat} (hm : 1 ≤ c.maxPayload) :
    unitCount c a b = max 1 ((b - a - 1 + c.maxPayload - 1) / c.maxPayload) := by
  have hpos := unitCount_pos c a b hm
  rw [unitCount, chunkCount, emptyBody, bodyLen] at hpos ⊢
  split at hpos
  · next h0 =>
    rw [beq_iff_eq] at h0
    rw [if_pos (by simpa using h0), h0, Nat.div_eq_of_lt (by omega), Nat.max_zero]
  · next h0 => rw [if_neg h0, Nat.max_eq_right hpos]

/-- `S` and `E` are bits 7 and 6 of the FU header (R84). -/
theorem fuHeader_flags (s e : Bool) (type : BitVec 5) :
    (fuHeader s e type).getLsbD 7 = s ∧ (fuHeader s e type).getLsbD 6 = e := by
  revert s e type; decide

/-- Settles O24: the fixed bytes of every packet, then the bits of its layout. -/
theorem unitPacketsProperties : Obligations.UnitPacketsProperties := by
  intro s q x au h a b j hm hab hb len pkts n
  have hcount : n = unitCount s.params a b := unitPackets_length
  refine ⟨hcount.trans (unitCount_eq_max hm), fun k pkt hp => ?_⟩
  obtain ⟨hk, rfl⟩ := of_unitPackets_getElem? hp
  rw [hcount]
  refine ⟨unitPacket_sized.2, encodePacket_getElem_zero _, ?_, encodePacket_ssrc _, fun hn => ?_⟩
  · rw [encodePacket_getElem_one, unitPacket, marker_layoutOf hk]
  · rw [encodePacket_getElem_thirteen (unitPacket_kind_fragment hn), Option.map_some]
    simp only [fuHeader_flags, unitPacket, layoutOf_eq_fuaS_iff hn, layoutOf_eq_fuaE_iff hn]

/-- Settles O25: the two fields as `unitPacket` numbers them. -/
theorem packetsAreNumberedInOrder : Obligations.PacketsAreNumberedInOrder := by
  intro s q x au h a b j k pkt hp
  obtain ⟨-, rfl⟩ := of_unitPackets_getElem? hp
  refine ⟨?_, encodePacket_ts _⟩
  rw [encodePacket_seq, unitPacket, Nat.add_assoc, BitVec.ofNat_add q.toNat, BitVec.ofNat_toNat, BitVec.setWidth_eq]

/-- Settles O26: the one packet's payload, or the fragments' chunks after the rebuilt header byte. -/
theorem receiverRebuildsTheUnit : Obligations.ReceiverRebuildsTheUnit := by
  intro s q x au h a b j hm hab hb hh pkts
  rw [show pkts.length = _ from unitPackets_length, unit_eq_cons hab hh]
  refine ⟨fun hn => ?_, fun hn => ⟨fun pkt hp => ?_, ?_⟩⟩
  · rw [show pkts = _ from unitPackets_single hn, List.map_singleton, single_drop_header hm hn]
  · obtain ⟨k, -, rfl⟩ := List.mem_map.1 hp
    have hkind : (unitPacket s q x au h a b j k).kind ≠ .single := unitPacket_kind_fragment hn
    exact ⟨_, _, encodePacket_getElem_twelve hkind, encodePacket_getElem_thirteen hkind, fuBytes_rebuild_header h _ _⟩
  · rw [flatten_fragments hm hn]

end Sys2Proof.Machine
end

section
/-! SUPPORT. Proofs for the family 44_packetizer: what the packet rows and `ENQ` do, and what they leave unchanged. -/

namespace Sys2Proof.Machine

/-! ### `ENQ` (R170, R180) -/

theorem exec_enq_of_packetSized {s : State} (hc : s.Configured) {pkt : Packet} (hp : packetSized s.params pkt) :
    exec (.enq pkt) s = .next (enqueue pkt s) := by
  rw [exec, execEnq, whenConfigured_of hc, if_pos hp]

theorem queueFull_eq_true_iff {s : State} : queueFull s = true ↔ s.params.dqCap = some s.dqLevel := by
  rw [queueFull, beq_iff_eq, eq_comm]

/-- Settles O30: the queue is full or not. -/
theorem enqueueAppendsOrOverflows : Obligations.EnqueueAppendsOrOverflows := by
  intro pkt s hc hp
  rw [exec_enq_of_packetSized hc hp]
  obtain ⟨hf, he⟩ | ⟨hf, he⟩ := enqueue_cases pkt s
  · have hcap : s.params.dqCap ≠ some s.dqLevel := by simp [← queueFull_eq_true_iff, hf]
    exact ⟨fun _ => congrArg _ he, fun hfull => absurd hfull hcap⟩
  · have hcap : s.params.dqCap = some s.dqLevel := queueFull_eq_true_iff.1 hf
    exact ⟨fun hroom => absurd hcap hroom, fun _ => congrArg _ he⟩

/-! ### The frame of the packet rows (R156, R69, R70) -/

/-- What a row that emits or enqueues packets does: it builds packets, or enqueues one. -/
theorem exec_packetRow {i : Instr} {s t : State}
    (hi : i = .packetize ∨ i = .pktSingle ∨ i = .pktFuaS ∨ i = .pktFuaM ∨ i = .pktFuaE ∨ ∃ pkt, i = .enq pkt)
    (h : exec i s = .next t) : Built s t ∨ ∃ pkt, packetSized s.params pkt ∧ t = enqueueAll [pkt] s := by
  rcases exec_cases h with ⟨rfl, -⟩ | ⟨x, rfl, -⟩ | ⟨rfl, -⟩ | ⟨rfl, -⟩ | ⟨pkt, -, hp, he⟩ | ⟨p, ⟨rfl, -⟩ | ⟨rfl, -⟩ | ⟨rfl, -⟩⟩ |
    ⟨-, hb⟩ | ⟨-, d, rfl⟩
  case inr.inr.inr.inr.inl => exact .inr ⟨pkt, hp, he⟩
  case inr.inr.inr.inr.inr.inr.inl => exact .inl hb
  case inr.inr.inr.inr.inr.inr.inr => exact .inl (Built.of_dp s d)
  all_goals simp at hi

/-- Settles O48: the frames of building packets and of one `Enqueue`. -/
theorem packetRowsFrame : Obligations.PacketRowsFrame := by
  intro i s t hi h
  obtain hb | ⟨pkt, hp, rfl⟩ := exec_packetRow hi h
  · exact ⟨hb.params, hb.sessionActive, hb.ssrc, by simp [SameBytes, hb.carry, hb.au], hb.errBufOvf, hb.sent, hb.timeHeld,
      hb.script, hb.tail⟩
  · obtain ⟨new, hdq, hnew⟩ := enqueueAll_tail [pkt] s
    have hsized : ∀ p ∈ new, packetSized s.params p := fun p hmem => List.mem_singleton.1 (hnew p hmem) ▸ hp
    exact ⟨enqueueAll_params .., enqueueAll_sessionActive .., enqueueAll_ssrc .., by simp [SameBytes],
      enqueueAll_errBufOvf .., enqueueAll_sent .., enqueueAll_timeHeld .., enqueueAll_script .., new, hdq, hsized⟩

/-! ### The packets a row emits -/

/-- Settles O27: in a configured state the row is its meaning on the unit in the registers. -/
theorem packetizeEmitsTheUnit : Obligations.PacketizeEmitsTheUnit := by
  intro s q x h a b hc hwf ⟨ha, hb, hab, hl, hh⟩ ⟨hq, hx⟩
  obtain ⟨d, hd, -⟩ := packetize_eq hc hwf ha hb hab hl hq hx hh
  exact ⟨d, by rw [exec, execPacketize, whenConfigured_of hc, hd]⟩

/-- The registers of chunk `k` (R157, R158). -/
theorem setChunk_dp_eq (a b k : Nat) (s : State) :
    (setChunk a b k s).dp = { s.dp with
      len := some (b - a - 1), n := some (unitCount s.params a b), k := some k
      lo := some (a + 1 + k * s.params.maxPayload), hi := some (min (a + 1 + (k + 1) * s.params.maxPayload) b) } := by
  rw [Nat.succ_mul, ← Nat.add_assoc]
  rfl

section
variable {s : State} {q : BitVec 16} {x : BitVec 32} {h : Byte} {a b k : Nat}

/-- The single packet of a unit, field by field (R160). -/
theorem encodePacket_unitPacket_single (hm : 1 ≤ s.params.maxPayload) (hn : unitCount s.params a b = 1) (au : List Byte) :
    encodePacket (unitPacket s q x au h a b 0 0) =
      buildHeader q (timeAt s 0) x true s.params.pt ++ [h] ++ (au.drop (a + 1)).take (b - a - 1) := by
  have hkind : (unitPacket s q x au h a b 0 0).kind = .single := unitPacket_kind_single hn
  rw [encodePacket, leadBytes_single hkind, hkind, ← chunkBytes_of_unitCount_one hm hn]
  simp [unitPacket, buildHeader, PacketKind.marker]

/-- The fragment of chunk `k`, field by field, with the FU header `fuh` (R161 to R164). -/
def fragmentBytes (s : State) (q : BitVec 16) (x : BitVec 32) (h : Byte) (a b k : Nat) (fuh : Byte) : Packet :=
  buildHeader q (timeAt s 0) x (decide (k + 1 = unitCount s.params a b)) s.params.pt ++ [nalF h ++ nalNri h ++ 28#5, fuh] ++
    chunkBytes s.params (Memory.bytes s.au) a b k

/-- `s` after the fragment of chunk `k` has been emitted: its packet and its registers (R161, R163). -/
def afterFragment (s : State) (q : BitVec 16) (x : BitVec 32) (h : Byte) (a b k : Nat) (fuh : Byte) : State :=
  afterPackets s q [fragmentBytes s q x h a b k fuh] 0 { s.dp with
    len := some (b - a - 1), n := some (unitCount s.params a b), k := some k
    lo := some (a + 1 + k * s.params.maxPayload), hi := some (min (a + 1 + (k + 1) * s.params.maxPayload) b)
    m := some (decide (k + 1 = unitCount s.params a b)), s := some (decide (k = 0))
    e := some (decide (k + 1 = unitCount s.params a b)), ts := some (timeAt s 0), pkt := fragmentBytes s q x h a b k fuh }

theorem encodePacket_unitPacket_fragment (hn : 2 ≤ unitCount s.params a b) (hk : k < unitCount s.params a b) :
    encodePacket { unitPacket s q x (Memory.bytes s.au) h a b 0 k with seq := q, ts := timeAt s 0 } =
      fragmentBytes s q x h a b k (fuHeader (decide (k = 0)) (decide (k + 1 = unitCount s.params a b)) (nalType h)) := by
  have hkind : layoutOf (unitCount s.params a b) k ≠ .single := mt layoutOf_eq_single_iff.1 (by omega)
  rw [encodePacket, leadBytes_fragment hkind, fragmentBytes, ← fuIndicator_eq_append]
  simp only [unitPacket, layoutOf_eq_fuaS_iff hn, layoutOf_eq_fuaE_iff hn, marker_layoutOf hk, buildHeader]

/-- One fragment of a classified unit, its FU header by `S` and `E` (R161, R163, R164). -/
theorem emitFragment_afterFragment {start last : Bool} (hc : s.Configured) (hwf : Memory.wf s.au = true) (hu : s.HoldsUnit a b h)
    (hnum : s.Numbered q x) (hn : 2 ≤ unitCount s.params a b) (hk : k < unitCount s.params a b)
    (hstart : decide (k = 0) = start) (hlast : decide (k + 1 = unitCount s.params a b) = last) :
    emitFragment a b k s = .next (afterFragment s q x h a b k (fuHeader start last (nalType h))) := by
  obtain ⟨-, -, hab, hl, -, hf, hnri, htype⟩ := hu
  obtain ⟨hq, hx⟩ := hnum
  rw [emitFragment_eq hc hwf hab hl hq hx hf hnri htype (by omega) hk, encodePacket_unitPacket_fragment hn hk, setChunk_dp_eq,
    ← hstart, ← hlast]
  rfl

end

/-- Settles O28: the single packet and the registers of chunk 0. -/
theorem pktSingleEmits : Obligations.PktSingleEmits := by
  intro s q x h a b hc hwf ⟨ha, hb, hab, hl, hh⟩ ⟨hq, hx⟩ hlen pkt
  have hm := hc.maxPayload_pos
  have hn : unitCount s.params a b = 1 := (unitCount_eq_one_iff hm).2 hlen
  have hhi : min (a + 1 + (0 + 1) * s.params.maxPayload) b = b := by omega
  rw [exec_pktSingle_eq hc ha hb hab hn, emitSingle_eq hc hwf hab hl hq hx hh.1 hn, encodePacket_unitPacket_single hm hn,
    setChunk_dp_eq, hn, hhi, Nat.zero_mul]

/-- Settles O29: each row emits the fragment it selects, with its own `S` and `E`. -/
theorem fragmentRowsEmit : Obligations.FragmentRowsEmit := by
  intro s q x h a b hc hwf hu hnum n pkt after
  obtain ⟨ha, hb, hab, -⟩ := id hu
  obtain ⟨hS, hM, hE⟩ := fuHeader_eq_flags_append (nalType h)
  rw [← hS, ← hM, ← hE]
  refine ⟨fun hn => ?_, fun k hk hl => ?_, fun k hk hl => ?_⟩
  · rw [exec_pktFuaS_eq hc ha hb hab hn]
    exact emitFragment_afterFragment hc hwf hu hnum hn (by omega) rfl (decide_eq_false (by omega))
  · rw [exec_pktFuaM_eq hc ha hb hab hk hl]
    exact emitFragment_afterFragment hc hwf hu hnum (by omega) (by omega) rfl (decide_eq_false (by omega))
  · rw [exec_pktFuaE_eq hc ha hb hab hk hl]
    exact emitFragment_afterFragment hc hwf hu hnum (by omega) (by omega) rfl (decide_eq_true hl)

end Sys2Proof.Machine
end

section
/-! SUPPORT. Proofs for the family 44_packetizer: `IS_IDR` influences nothing (R169). Two runs from states that differ in it alone are
compared, by rules for the shared operations that each meaning is made of. -/

namespace Sys2Proof.Machine

/-! ### Meanings that ignore `IS_IDR` -/

/-- `s` with another value of `IS_IDR`. -/
def State.withIsIdr (s : State) (v : Option Bool) : State := { s with dp := { s.dp with isIdr := v } }

/-- `t` is `s` but for `IS_IDR`. -/
def SameButIsIdr (s t : State) : Prop := ∃ v, t = s.withIsIdr v

/-- From a state with another `IS_IDR`, `f` answers the same next state but for `IS_IDR`. -/
def IgnoresIsIdr (f : State → Result) : Prop := ∀ s v, Follows SameButIsIdr (f s) (f (s.withIsIdr v))

/-- An update that, from a state with another `IS_IDR`, gives the same state but for `IS_IDR`. -/
def KeepsIsIdrApart (g : State → State) : Prop := ∀ s v, SameButIsIdr (g s) (g (s.withIsIdr v))

section
variable {f f' : State → Result} {g g' : State → State}

theorem IgnoresIsIdr.next (hg : KeepsIsIdrApart g) : IgnoresIsIdr fun s => .next (g s) := fun s v => .next (hg s v)

theorem IgnoresIsIdr.hold : IgnoresIsIdr .next := .next fun _ v => ⟨v, rfl⟩

theorem IgnoresIsIdr.fault (r : Fault) : IgnoresIsIdr fun _ => .fault r := fun _ _ => .of_fault r _

theorem IgnoresIsIdr.refused (r : Refusal) : IgnoresIsIdr fun _ => .refused r := fun _ _ => .of_refused r _

theorem IgnoresIsIdr.comp (hf : IgnoresIsIdr f) (hg : KeepsIsIdrApart g) : IgnoresIsIdr fun s => f (g s) := by
  intro s v
  obtain ⟨v', h⟩ := hg s v
  dsimp only
  rw [h]
  exact hf _ v'

theorem IgnoresIsIdr.andThen (hf : IgnoresIsIdr f) (hf' : IgnoresIsIdr f') : IgnoresIsIdr fun s => andThen (f s) f' := by
  refine fun s v => (hf s v).andThen ?_
  rintro t _ ⟨v', rfl⟩
  exact hf' t v'

/-- A test that does not read `IS_IDR`. -/
theorem IgnoresIsIdr.ite {p : State → Prop} [∀ s, Decidable (p s)] (hp : ∀ s v, p (s.withIsIdr v) = p s) (hf : IgnoresIsIdr f)
    (hf' : IgnoresIsIdr f') : IgnoresIsIdr fun s => if p s then f s else f' s := by
  intro s v
  simp only [hp]
  exact .ite (fun _ => hf s v) fun _ => hf' s v

theorem KeepsIsIdrApart.ite {p : State → Prop} [∀ s, Decidable (p s)] (hp : ∀ s v, p (s.withIsIdr v) = p s)
    (hg : KeepsIsIdrApart g) (hg' : KeepsIsIdrApart g') : KeepsIsIdrApart fun s => if p s then g s else g' s := by
  intro s v
  simp only [hp]
  split
  · exact hg s v
  · exact hg' s v

theorem IgnoresIsIdr.whenConfigured (hf : IgnoresIsIdr f) : IgnoresIsIdr fun s => whenConfigured s (f s) :=
  .ite (fun _ _ => rfl) hf (.refused _)

/-- A read of any register but `IS_IDR`. -/
theorem IgnoresIsIdr.readReg {α : Type} {r : Reg} {reg : State → Option α} {f : α → State → Result}
    (hreg : ∀ s v, reg (s.withIsIdr v) = reg s) (hf : ∀ a, IgnoresIsIdr (f a)) :
    IgnoresIsIdr fun s => readReg r (reg s) fun a => f a s := by
  intro s v
  simp only [hreg]
  exact .readReg fun a => hf a s v

theorem IgnoresIsIdr.withUnit {f : Nat → Nat → State → Result} (hf : ∀ a b, IgnoresIsIdr (f a b)) :
    IgnoresIsIdr fun s => withUnit s fun a b => f a b s :=
  .readReg (fun _ _ => rfl) fun a => .readReg (fun _ _ => rfl) fun b => .ite (fun _ _ => rfl) (hf a b) (.fault _)

theorem IgnoresIsIdr.readChunk {a b k : Nat} {f : List Byte → State → Result} (hf : ∀ bs, IgnoresIsIdr (f bs)) :
    IgnoresIsIdr fun s => readChunk a b k s fun bs => f bs s :=
  fun s v => .readAu rfl fun bs => hf bs s v

end

/-! ### Building packets -/

theorem keepsIsIdrApart_enqueue (pkt : Packet) : KeepsIsIdrApart (enqueue pkt) :=
  .ite (fun _ _ => rfl) (fun _ v => ⟨v, rfl⟩) fun _ v => ⟨v, rfl⟩

theorem ignoresIsIdr_emit (m : Bool) (lead chunk : List Byte) : IgnoresIsIdr (emit m lead chunk) :=
  .readReg (fun _ _ => rfl) fun _ => .readReg (fun _ _ => rfl) fun _ => .next fun _ v => keepsIsIdrApart_enqueue _ _ v

theorem ignoresIsIdr_emitSingle (a b : Nat) : IgnoresIsIdr (emitSingle a b) :=
  .readReg (fun _ _ => rfl) fun _ => .readChunk fun chunk => .andThen (fun _ v => ignoresIsIdr_emit _ _ chunk _ v)
    (.next (.ite (fun _ _ => rfl) (fun _ v => ⟨v, rfl⟩) fun _ v => ⟨v, rfl⟩))

theorem ignoresIsIdr_emitFragment (a b k : Nat) : IgnoresIsIdr (emitFragment a b k) :=
  .readReg (fun _ _ => rfl) fun _ => .readReg (fun _ _ => rfl) fun _ => .readReg (fun _ _ => rfl) fun _ =>
    .readChunk fun chunk _ v => ignoresIsIdr_emit _ _ chunk _ v

theorem ignoresIsIdr_emitFragments (a b r : Nat) : ∀ k, IgnoresIsIdr (emitFragments a b k r) := by
  induction r with
  | zero => exact fun _ => .hold
  | succ r ih => exact fun k => .andThen (ignoresIsIdr_emitFragment a b k) (ih (k + 1))

theorem ignoresIsIdr_packetize : IgnoresIsIdr packetize :=
  .withUnit fun a b => .ite (fun _ _ => rfl) (ignoresIsIdr_emitSingle a b) fun s => ignoresIsIdr_emitFragments a b _ 0 s

/-! ### A whole access unit -/

theorem keepsIsIdrApart_scanNext : KeepsIsIdrApart scanNext := by
  refine fun s v => ⟨v, ?_⟩
  dsimp only [scanNext, State.withIsIdr]
  split <;> rfl

/-- `CLASSIFY` overwrites `IS_IDR` (R142). -/
theorem ignoresIsIdr_classify : IgnoresIsIdr classify := by
  refine .readReg (fun _ _ => rfl) fun a s v => ?_
  dsimp only [State.withIsIdr]
  cases Memory.read s.au a with
  | none => exact .of_fault _ _
  | some h => exact .next ⟨some (isIdr (nalType h)), rfl⟩

theorem ignoresIsIdr_processUnits (fuel : Nat) : IgnoresIsIdr (processUnits fuel) := by
  induction fuel with
  | zero => exact .hold
  | succ fuel ih =>
    have hround : IgnoresIsIdr fun t =>
        if t.dp.scanDone = some true then .next t else andThen (andThen (classify t) packetize) (processUnits fuel) :=
      .ite (fun _ _ => rfl) .hold (.andThen (.andThen ignoresIsIdr_classify ignoresIsIdr_packetize) ih)
    exact hround.comp keepsIsIdrApart_scanNext

theorem ignoresIsIdr_frFlush (p : List Byte) : IgnoresIsIdr (frFlush p) := by
  refine .ite (fun _ _ => rfl) (.next fun _ v => ⟨v, rfl⟩) fun s v => ?_
  dsimp only [State.withIsIdr, State.carryLen]
  cases Memory.readRange s.carry 0 s.carry.length with
  | none => exact .of_fault _ _
  | some held => exact ignoresIsIdr_processUnits _ _ v

theorem keepsIsIdrApart_frAppend (p : List Byte) : KeepsIsIdrApart (frAppend p) :=
  .ite (fun _ _ => rfl) (fun _ v => ⟨v, rfl⟩) fun _ v => ⟨v, rfl⟩

/-! ### All instructions -/

theorem ignoresIsIdr_startTest (pattern : List Byte → Bool) (width : Nat) : IgnoresIsIdr (startTest pattern width) :=
  .whenConfigured <| .readReg (fun _ _ => rfl) fun _ => .ite (fun _ _ => rfl) (.next fun _ v => ⟨v, rfl⟩) .hold

theorem ignoresIsIdr_endTest (pattern : List Byte → Bool) : IgnoresIsIdr (endTest pattern) :=
  .whenConfigured <| .readReg (fun _ _ => rfl) fun _ => .ite (fun _ _ => rfl) (.next fun _ v => ⟨v, rfl⟩) .hold

theorem ignoresIsIdr_execPop : IgnoresIsIdr execPop := by
  refine .whenConfigured <| .ite (fun _ _ => rfl) (fun s v => ?_) .hold
  dsimp only [State.withIsIdr]
  cases hq : s.dq with
  | nil => exact .next ⟨v, by rw [State.withIsIdr, hq]⟩
  | cons pkt rest => exact .next ⟨v, rfl⟩

theorem keepsIsIdrApart_stopSession : KeepsIsIdrApart stopSession :=
  .ite (fun _ _ => rfl) (fun _ _ => ⟨none, rfl⟩) fun _ v => ⟨v, rfl⟩

theorem ignoresIsIdr_execDgram (p : List Byte) : IgnoresIsIdr (execDgram p) :=
  .whenConfigured <| .ite (fun _ _ => rfl)
    (.andThen (.ite (fun _ _ => rfl) (.next (keepsIsIdrApart_frAppend p)) (ignoresIsIdr_frFlush p))
      (.next fun _ _ => ⟨none, rfl⟩))
    .hold

/-- No instruction reads `IS_IDR` (R169). -/
theorem ignoresIsIdr_exec (i : Instr) : IgnoresIsIdr (exec i) := by
  cases i with
  | sc3 | sc4 => exact ignoresIsIdr_startTest _ _
  | bnd0 | bnd1 => exact ignoresIsIdr_endTest _
  | dgramLen | rtphdr | fuind | fuhdrS | fuhdrM | fuhdrE | buildHdr => exact .whenConfigured (.next fun _ v => ⟨v, rfl⟩)
  | nalhdr | reset => exact .whenConfigured (.next fun _ _ => ⟨_, rfl⟩)
  | start x =>
    have hbegin : IgnoresIsIdr fun s => .next (beginSession x s) := .next fun _ _ => ⟨none, rfl⟩
    exact .whenConfigured (hbegin.comp keepsIsIdrApart_stopSession)
  | stop => exact .whenConfigured (.next keepsIsIdrApart_stopSession)
  | scanNext => exact .whenConfigured (.next keepsIsIdrApart_scanNext)
  | classify => exact .whenConfigured ignoresIsIdr_classify
  | packetize => exact .whenConfigured ignoresIsIdr_packetize
  | pop => exact ignoresIsIdr_execPop
  | dgram p => exact ignoresIsIdr_execDgram p
  | frAppend p => exact .whenConfigured <| .ite (fun _ _ => rfl) (.next (keepsIsIdrApart_frAppend p)) (.refused _)
  | frFlush p => exact .whenConfigured <| .ite (fun _ _ => rfl) (.refused _) (ignoresIsIdr_frFlush p)
  | enq pkt => exact .whenConfigured <| .ite (fun _ _ => rfl) (.next (keepsIsIdrApart_enqueue pkt)) (.refused _)
  | pktSingle =>
    exact .whenConfigured <| .withUnit fun a b => .ite (fun _ _ => rfl) (ignoresIsIdr_emitSingle a b) (.refused _)
  | pktFuaS =>
    exact .whenConfigured <| .withUnit fun a b => .ite (fun _ _ => rfl) (ignoresIsIdr_emitFragment a b 0) (.refused _)
  | pktFuaM | pktFuaE =>
    exact .whenConfigured <| .withUnit fun a b => .readReg (fun _ _ => rfl) fun k =>
      .ite (fun _ _ => rfl) (ignoresIsIdr_emitFragment a b (k + 1)) (.refused _)

/-- Settles O54: no instruction reads `IS_IDR`. -/
theorem isIdrInfluencesNothing : Obligations.IsIdrInfluencesNothing := by
  intro i s t v h
  obtain ⟨_, ht, v', rfl⟩ := ignoresIsIdr_exec i s v t h
  exact ⟨v', ht⟩

end Sys2Proof.Machine
end

section
/-! SUPPORT. Proofs for the family 45_dispatch_queue: `POP` by whether it is enabled, and the order in which packets leave the queue. -/

namespace Sys2Proof.Machine

/-! ### `POP` (R176, R177) -/

theorem popEnabled_eq_true_iff {s : State} : popEnabled s = true ↔ s.sessionActive = true ∧ s.dqLevel ≠ 0 := by
  simp [popEnabled]

/-- Settles O31: a session and a head enable the row. -/
theorem popSendsTheHead : Obligations.PopSendsTheHead := by
  intro s pkt rest hc hs hq
  have henabled : popEnabled s = true := popEnabled_eq_true_iff.2 ⟨hs, by simp [State.dqLevel, hq]⟩
  rw [exec, execPop, whenConfigured_of hc, if_pos henabled, hq]

/-- Settles O32: without a session or a head the row is not enabled. -/
theorem popHoldsWhenDisabled : Obligations.PopHoldsWhenDisabled := by
  intro s hc hd
  have hdisabled : ¬ popEnabled s = true := fun h => by
    obtain ⟨hs, hl⟩ := popEnabled_eq_true_iff.1 h
    exact hd.elim (by simp [hs]) hl
  rw [exec, execPop, whenConfigured_of hc, if_neg hdisabled]

/-! ### Strict FIFO (R178) -/

/-- `POP` moves packets from the head of the queue to the end of what was sent: the two joined stay the same list. -/
theorem exec_pop_stream {s t : State} (h : exec .pop s = .next t) :
    s.sent <+: t.sent ∧ t.sent ++ t.dq = s.sent ++ s.dq := by
  have hcases : t = s ∨ ∃ pkt rest, s.dq = pkt :: rest ∧ t = { s with dq := rest, sent := s.sent ++ [pkt] } := by
    simpa using exec_cases h
  obtain rfl | ⟨pkt, rest, hq, rfl⟩ := hcases
  · exact ⟨List.prefix_rfl, rfl⟩
  · exact ⟨List.prefix_append _ _, by simp [hq]⟩

theorem Framed.dq {i : Instr} {s u : State} (h : Framed i s u) : u.dq = s.dq := by
  obtain ⟨_, _, _, rfl, -⟩ := h; rfl

/-- Only `POP` and the session rows take packets from the queue; every other row leaves it or extends it at its tail (R170). -/
theorem exec_dq_prefix {i : Instr} {s t : State} (hs : ¬ Instr.isSession i) (hi : i ≠ .pop) (h : exec i s = .next t) :
    s.dq <+: t.dq := by
  cases exec_effect h with
  | enq pkt => exact (enqueueAll_queue [pkt] s).1
  | built _ hf hb =>
    obtain ⟨hprefix, -⟩ := hb.queue
    rwa [hf.dq] at hprefix
  | _ => simp at hs hi

/-- Settles O51: `POP` keeps sent and queued joined; any other row leaves what was sent and, outside the session rows, only extends
the queue. -/
theorem queueIsFirstInFirstOut : Obligations.QueueIsFirstInFirstOut := by
  intro i s t h
  by_cases hi : i = .pop
  · subst hi
    obtain ⟨hsent, hstream⟩ := exec_pop_stream h
    exact ⟨hsent, fun _ => hstream ▸ List.prefix_rfl⟩
  · rw [exec_sent hi h]
    exact ⟨List.prefix_rfl, fun hs => (List.prefix_append_right_inj _).2 (exec_dq_prefix hs hi h)⟩

end Sys2Proof.Machine
end

section
/-! SUPPORT. Proofs for the family 46_session_and_pipeline: the three session operations, and a whole datagram of the flush case. -/

namespace Sys2Proof.Machine

/-! ### The session operations (R185 to R188) -/

theorem stopSession_of_session {s : State} (hs : s.sessionActive = true) :
    stopSession s =
      { s with sessionActive := false, dq := [], carry := [], au := [], seq := none, ssrc := none, dp := {} } := if_pos hs

theorem stopSession_of_no_session {s : State} (hs : s.sessionActive = false) : stopSession s = s := by
  rw [stopSession, hs, if_neg Bool.false_ne_true]

/-- A fresh session overwrites all that stopping a session discards (R188). -/
theorem beginSession_stopSession (x : BitVec 32) (s : State) : beginSession x (stopSession s) = beginSession x s := by
  cases hs : s.sessionActive with
  | true => rw [stopSession_of_session hs]; rfl
  | false => rw [stopSession_of_no_session hs]

section
variable {s : State} (hc : s.Configured)
include hc

theorem exec_reset_eq : exec .reset s = .next (resetBlock s) := whenConfigured_of hc _

theorem exec_stop_eq : exec .stop s = .next (stopSession s) := whenConfigured_of hc _

theorem exec_start_eq (x : BitVec 32) : exec (.start x) s = .next (beginSession x s) := by
  rw [exec, execStart, whenConfigured_of hc, beginSession_stopSession]

end

/-- Settles O33: RESET is one assignment, and what any other instruction does keeps each fault flag. -/
theorem resetLeavesNothing : Obligations.ResetLeavesNothing := by
  refine ⟨fun s hc => exec_reset_eq hc, fun i s t hi h => ?_⟩
  obtain ⟨-, hbuf⟩ := exec_errBufOvf h
  obtain ⟨-, hdq⟩ := exec_errDqOvf h
  exact ⟨hbuf hi, hdq hi⟩

/-- Settles O34: a fresh session is the same whether or not one was stopped before it. -/
theorem startOpensASession : Obligations.StartOpensASession := by
  intro x s hc
  refine ⟨exec_start_eq hc x, fun _ => ⟨stopSession s, exec_stop_eq hc, stopSession_sessionActive s, ?_⟩⟩
  have hstopped : (stopSession s).Configured := by rwa [State.Configured, stopSession_params]
  rw [exec_start_eq hc, exec_start_eq hstopped, beginSession_stopSession]

/-- Settles O35: STOP by whether there is a session. -/
theorem stopDiscardsTheSession : Obligations.StopDiscardsTheSession := by
  intro s hc
  refine ⟨fun hs => ?_, fun hs => ?_⟩
  · rw [exec_stop_eq hc, stopSession_of_session hs]
  · rw [exec_stop_eq hc, stopSession_of_no_session hs]

/-! ### A datagram of the flush case (R189, R190) -/

/-- The end of an operation clears the datapath registers that building packets left (R22). -/
theorem endOperation_afterPackets (s : State) (q : BitVec 16) (pkts : List Packet) (empties : Nat) (d : Datapath) :
    endOperation (afterPackets s q pkts empties d) = .next (afterPackets s q pkts empties {}) := rfl

/-- Settles O40: in a session the datagram is flushed, and the end of the operation clears the registers the flush left. -/
theorem datagramFlushIsOneStep : Obligations.DatagramFlushIsOneStep := by
  intro payload s q x hc hwf hs ⟨hq, hx⟩ hlen hmax hcap buf
  obtain ⟨hcarry, -⟩ := hwf
  obtain ⟨d, hflush⟩ := frFlush_eq hc hcarry hq hx (bufOverflow_eq_false_iff.2 ⟨hmax, hcap⟩)
  rw [exec_dgram_of_session hc hs, if_neg hlen, exec_frFlush_of_other_size hc hlen, hflush, andThen_next,
    endOperation_afterPackets, bufferPackets_with_stores, flushBuffer]

end Sys2Proof.Machine
end
